-- ==== Sys2Proof/Word.lean ====
section
/-! DEFINITION. The words SQUID-FCS computes with, and their plainest arithmetic (00_scope.md R11). -/

namespace Sys2Proof

/-- One byte of a stream, a buffer or an operation word's `byte` field (R11). -/
abbrev Byte := BitVec 8

/-- A 16-bit motor mask; bit `m - 1` stands for motor number `m` (R11). -/
abbrev Mask := BitVec 16

/-- A 16-bit operation word (R96). -/
abbrev OpWord := BitVec 16

/-- One 32-bit field of a MotorSetting record (R85). -/
abbrev Field32 := BitVec 32

/-- Ten one-bit lines, the line of motor `m` at index `m - 1` (R42, R43). -/
abbrev Lines := Vector Bool 10

/-- Exclusive OR of a span of bytes, started from `x` (R2, R82). -/
def xorFrom (x : Byte) (bs : List Byte) : Byte := bs.foldl (fun a b => a ^^^ b) x

end Sys2Proof
end

