-- ==== Sys2Proof/Syntax.lean ====
section
/-! DEFINITION. The instructions: one constructor for each row of spec/opcode_table.json. -/

namespace Sys2Proof

/-- Every row of the opcode table. The first nine rows and the three RESERVED rows are 16-bit operation words on the command
port (30_encoding.md R96, R97). The `cmd` rows are the Cmd bytes of accepted host frames and stand for what the controller
then does (44_command_contract.md). The `rsp` rows are the response frames the controller sends (R92). -/
inductive Instr where
  /-- NOP, word 0x0000 (R154). -/
  | nop
  /-- RX_BYTE: the received byte (R120). -/
  | rxByte (b : Byte)
  /-- DEC_CLEAR, word 0x2000 (R134). -/
  | decClear
  /-- ENC_FRAME: the response code (R153). -/
  | encFrame (c : Byte)
  /-- TXB_PUSH: the payload byte (R152). -/
  | txbPush (b : Byte)
  /-- TXB_CLEAR, word 0x5000 (R151). -/
  | txbClear
  /-- SEQ_START: the record count, 0 to 15 as encoded (R180). -/
  | seqStart (n : BitVec 4)
  /-- SEQ_TICK, word 0x7000 (R187). -/
  | seqTick
  /-- SEQ_STOP, word 0x8000 (R201). -/
  | seqStop
  /-- RESERVED, opc 0x9: the whole word (R99). -/
  | reserved9 (w : OpWord)
  /-- RESERVED, opc 0xA or 0xB: the whole word (R99). -/
  | reservedAB (w : OpWord)
  /-- RESERVED, opc 0xC to 0xF: the whole word (R99). -/
  | reservedCF (w : OpWord)
  /-- CMD_VERSION, Cmd 0x01 (R231). -/
  | cmdVersion
  /-- CMD_STATUS, Cmd 0x02 (R232). -/
  | cmdStatus
  /-- CMD_STOP, Cmd 0x03 (R233). -/
  | cmdStop
  /-- CMD_SYNC_MOVE, Cmd 0x10 (R234). -/
  | cmdSyncMove
  /-- CMD_ASYNC_MOVE, Cmd 0x11 (R235). -/
  | cmdAsyncMove
  /-- RSP_VERSION, Cmd 0x81 (R231). -/
  | rspVersion
  /-- RSP_STATUS, Cmd 0x82 (R232). -/
  | rspStatus
  /-- RSP_STOP, Cmd 0x83 (R233). -/
  | rspStop
  /-- RSP_MOVE, Cmd 0x90 (R234, R235). -/
  | rspMove
  /-- RSP_ERROR, Cmd 0xFF: the one Data byte, an error value of R93 (R240). -/
  | rspError (e : Byte)
deriving DecidableEq, Repr

end Sys2Proof
end

