-- ==== Sys2Proof/WellFormed.lean ====
section
/-! DEFINITION. Which terms of Instr stand for a word of their row. Operand widths are exact by type; only the three RESERVED
rows carry a whole word, whose opcode field must lie in the row's range (30_encoding.md R97, R99). -/

namespace Sys2Proof

/-- The opcode field `opc`, bits 15:12 of an operation word (R96). -/
def opcOf (w : OpWord) : BitVec 4 := w.extractLsb' 12 4

/-- The `aux` field, bits 11:8 (R96). -/
def auxOf (w : OpWord) : BitVec 4 := w.extractLsb' 8 4

/-- The `byte` field, bits 7:0 (R96). -/
def byteOf (w : OpWord) : Byte := w.extractLsb' 0 8

/-- Each RESERVED row holds a word with an opcode of its own range (R99, and the mask and match of the table's rows). -/
def Instr.wellFormed : Instr → Bool
  | .reserved9 w => opcOf w == 0x9#4
  | .reservedAB w => opcOf w == 0xA#4 || opcOf w == 0xB#4
  | .reservedCF w => opcOf w == 0xC#4 || opcOf w == 0xD#4 || opcOf w == 0xE#4 || opcOf w == 0xF#4
  | .nop | .rxByte _ | .decClear | .encFrame _ | .txbPush _ | .txbClear | .seqStart _ | .seqTick | .seqStop
  | .cmdVersion | .cmdStatus | .cmdStop | .cmdSyncMove | .cmdAsyncMove
  | .rspVersion | .rspStatus | .rspStop | .rspMove | .rspError _ => true

end Sys2Proof
end

