-- ==== Sys2Proof/Decode.lean ====
section
/-! DEFINITION. Decoding of operation words, command codes and response codes, and the encoder (30_encoding.md R91, R92, R96 to R101). -/

namespace Sys2Proof

/-- What the machine decodes, by the wire it comes on: an operation word of the command port (R96), the Cmd byte of an accepted host
frame (R91), or a response the controller is to send, its code and, for ERROR, its one Data byte (R92, R240). -/
inductive Code where
  | opw (w : OpWord)
  | cmd (c : Byte)
  | rsp (c : Byte) (e : Byte)
deriving DecidableEq, Repr

/-- Why a code stands for no instruction. -/
inductive Reject where
  /-- A must-be-zero field is nonzero: `REF_NONZERO_FIELD` (R98). -/
  | nonzeroField
  /-- A Cmd byte that is none of R91's: "unrecognized" (R95, R237). -/
  | unknownCommand (c : Byte)
  /-- A response code that is none of R92's, or a Data byte beside a code other than ERROR; the contract issues neither. -/
  | unknownResponse (c : Byte)
deriving DecidableEq, Repr

/-! ## Command, response, error and result codes (R91 to R94) -/

def codeVersion : Byte := 0x01#8
def codeStatus : Byte := 0x02#8
def codeStop : Byte := 0x03#8
def codeSyncMove : Byte := 0x10#8
def codeAsyncMove : Byte := 0x11#8
def codeRspVersion : Byte := 0x81#8
def codeRspStatus : Byte := 0x82#8
def codeRspStop : Byte := 0x83#8
def codeRspMove : Byte := 0x90#8
def codeRspError : Byte := 0xFF#8
def errInvalidCommand : Byte := 0x01#8
def errInvalidPacketLength : Byte := 0x02#8
def errXorChecksum : Byte := 0x03#8
def errInvalidMotorCount : Byte := 0x04#8
def errMotorParam : Byte := 0x05#8
def errEmergencyStop : Byte := 0x0B#8
def errTimeout : Byte := 0x0D#8
def resultSuccess : Byte := 0x00#8
def resultBusy : Byte := 0x01#8

/-! ## Decoding -/

/-- The RESERVED row of a word with `opc` 0x9 or more (R99). -/
def reservedRow (w : OpWord) : Instr :=
  if opcOf w = 0x9#4 then .reserved9 w
  else if opcOf w = 0xA#4 ∨ opcOf w = 0xB#4 then .reservedAB w
  else .reservedCF w

/-- R100: every 16-bit word decodes to one operation or to one refusal. The reserved opcodes are tested first, then `aux`, then
`byte`. -/
def decodeWord (w : OpWord) : Except Reject Instr :=
  if 0x9#4 ≤ opcOf w then .ok (reservedRow w)
  else if auxOf w ≠ 0#4 ∧ opcOf w ≠ 0x6#4 then .error .nonzeroField
  else if byteOf w ≠ 0#8 ∧ opcOf w ≠ 0x1#4 ∧ opcOf w ≠ 0x3#4 ∧ opcOf w ≠ 0x4#4 then .error .nonzeroField
  else
    match (opcOf w).toNat with
    | 0 => .ok .nop
    | 1 => .ok (.rxByte (byteOf w))
    | 2 => .ok .decClear
    | 3 => .ok (.encFrame (byteOf w))
    | 4 => .ok (.txbPush (byteOf w))
    | 5 => .ok .txbClear
    | 6 => .ok (.seqStart (auxOf w))
    | 7 => .ok .seqTick
    | 8 => .ok .seqStop
    | _ => .ok (reservedRow w)

/-- The handler a Cmd byte of an accepted frame selects (R91, R230, R237). -/
def decodeCmd (c : Byte) : Except Reject Instr :=
  if c = codeVersion then .ok .cmdVersion
  else if c = codeStatus then .ok .cmdStatus
  else if c = codeStop then .ok .cmdStop
  else if c = codeSyncMove then .ok .cmdSyncMove
  else if c = codeAsyncMove then .ok .cmdAsyncMove
  else .error (.unknownCommand c)

/-- The response a code names; only ERROR has an operand (R92, R240). -/
def decodeRsp (c e : Byte) : Except Reject Instr :=
  if c = codeRspError then .ok (.rspError e)
  else if e ≠ 0#8 then .error (.unknownResponse c)
  else if c = codeRspVersion then .ok .rspVersion
  else if c = codeRspStatus then .ok .rspStatus
  else if c = codeRspStop then .ok .rspStop
  else if c = codeRspMove then .ok .rspMove
  else .error (.unknownResponse c)

/-- Decoding is total on every code, and a code with no instruction is rejected by name. -/
def decode : Code → Except Reject Instr
  | .opw w => decodeWord w
  | .cmd c => decodeCmd c
  | .rsp c e => decodeRsp c e

/-! ## The encoder, from the same tables -/

/-- The operation word of the given fields (R96). -/
def opWord (opc aux : BitVec 4) (b : Byte) : OpWord := opc ++ aux ++ b

/-- The code of a well-formed instruction (R91, R92, R97). -/
def encode : Instr → Code
  | .nop => .opw (opWord 0x0#4 0#4 0#8)
  | .rxByte b => .opw (opWord 0x1#4 0#4 b)
  | .decClear => .opw (opWord 0x2#4 0#4 0#8)
  | .encFrame c => .opw (opWord 0x3#4 0#4 c)
  | .txbPush b => .opw (opWord 0x4#4 0#4 b)
  | .txbClear => .opw (opWord 0x5#4 0#4 0#8)
  | .seqStart n => .opw (opWord 0x6#4 n 0#8)
  | .seqTick => .opw (opWord 0x7#4 0#4 0#8)
  | .seqStop => .opw (opWord 0x8#4 0#4 0#8)
  | .reserved9 w => .opw w
  | .reservedAB w => .opw w
  | .reservedCF w => .opw w
  | .cmdVersion => .cmd codeVersion
  | .cmdStatus => .cmd codeStatus
  | .cmdStop => .cmd codeStop
  | .cmdSyncMove => .cmd codeSyncMove
  | .cmdAsyncMove => .cmd codeAsyncMove
  | .rspVersion => .rsp codeRspVersion 0#8
  | .rspStatus => .rsp codeRspStatus 0#8
  | .rspStop => .rsp codeRspStop 0#8
  | .rspMove => .rsp codeRspMove 0#8
  | .rspError e => .rsp codeRspError e

/-! ## The opcode table's numbering -/

/-- Whether a byte is a response code (R92). The command codes (R91) and the response codes are disjoint, so an 8-bit row of the table is
known by its value. -/
def isResponseCode (c : Byte) : Bool :=
  c == codeRspVersion || c == codeRspStatus || c == codeRspStop || c == codeRspMove || c == codeRspError

/-- The code that a table row's bits stand for: 16 bits are an operation word, 8 bits a FRAME Cmd byte. The Data byte of an ERROR response
lies above the 8 bits the table gives its row, at bits 15:8. -/
def codeOfTable (nbits w : Nat) : Option Code :=
  if nbits = 16 then some (.opw (BitVec.ofNat 16 w))
  else if nbits = 8 then
    if isResponseCode (BitVec.ofNat 8 w) then some (.rsp (BitVec.ofNat 8 w) (BitVec.ofNat 8 (w / 256)))
    else some (.cmd (BitVec.ofNat 8 w))
  else none

/-- The instruction the decoder reads from a row's bits, numbered as spec/opcode_table.json numbers them. -/
def decodeTableWord (nbits w : Nat) : Option Instr :=
  match codeOfTable nbits w with
  | none => none
  | some c =>
    match decode c with
    | .ok i => some i
    | .error _ => none

end Sys2Proof
end

