-- ==== Sys2Proof/Config.lean ====
section
/-! DEFINITION. What a build of the block fixes (00_scope.md R7 to R10) and the free values of the environment (R43).
Fixed parameters have the spec's value. Open parameters are constants with no body, in their legal ranges (R294). -/

namespace Sys2Proof

/-! ## Fixed and derived parameters (R7, R8) -/

/-- The start marker of a frame (R7). -/
def stx : Byte := 0x02#8
/-- The least legal frame length (R7). -/
def lenMin : Nat := 5
/-- The greatest legal frame length (R7). -/
def lenMax : Nat := 256
/-- The number of motors (R7). -/
def maxMotors : Nat := 10
/-- The bytes of one MotorSetting record (R7). -/
def recSize : Nat := 16
/-- The largest Data field, and the capacity of `dec_buf` and `txb` (R8). -/
def payloadMax : Nat := 251

/-! ## Open parameters (R9, R10) -/

/-- A response frame the controller may send: its code, and its Data before they are cut to a legal length. -/
structure Response where
  code : Byte
  payload : List Byte
deriving DecidableEq, Repr, Inhabited

/-- The Data of a response frame, 0 to 251 bytes (R83). -/
def Response.data (r : Response) : List Byte := r.payload.take payloadMax

/-- The response codes other than ERROR (R92). -/
inductive PlainCode where
  | version
  | status
  | stop
  | move
deriving DecidableEq, Repr, Inhabited

/-- The byte of a response code (R92). -/
def PlainCode.byte : PlainCode → Byte
  | .version => codeRspVersion
  | .status => codeRspStatus
  | .stop => codeRspStop
  | .move => codeRspMove

/-- The error values that an ERROR response may carry for another reason than an emergency stop; the other named ones are never sent (R93, R95). -/
inductive ErrorValue where
  | invalidCommand
  | invalidPacketLength
  | invalidMotorCount
  | motorParamError
deriving DecidableEq, Repr, Inhabited

/-- The byte of an error value (R93). -/
def ErrorValue.byte : ErrorValue → Byte
  | .invalidCommand => errInvalidCommand
  | .invalidPacketLength => errInvalidPacketLength
  | .invalidMotorCount => errInvalidMotorCount
  | .motorParamError => errMotorParam

/-- The frame of a build's busy answer: an ERROR response has one error value as its Data (R240), any other response has the build's Data (R10; log 24). -/
inductive BusyFrame where
  | error (v : ErrorValue)
  | plain (code : PlainCode) (payload : List Byte)
deriving DecidableEq, Repr, Inhabited

/-- The response of a busy answer's frame (R92, R93, R240). -/
def BusyFrame.response : BusyFrame → Response
  | .error v => { code := codeRspError, payload := [v.byte] }
  | .plain c payload => { code := c.byte, payload := payload }

/-- The frame of a build's emergency-stop report. Which response it is is open, but it carries the `EMERGENCY_STOP` error byte: as the one Data byte
of an ERROR response (R93, R240), or at some place of another response's Data (R10, R242; log 5). -/
inductive ReportFrame where
  | error
  | plain (code : PlainCode) (lead : List Byte) (trail : List Byte)
deriving DecidableEq, Repr, Inhabited

/-- The response of a report's frame; at most 250 bytes come before the error byte, so that it lies within a legal frame (R83, R93, R240). -/
def ReportFrame.response : ReportFrame → Response
  | .error => { code := codeRspError, payload := [errEmergencyStop] }
  | .plain c lead trail => { code := c.byte, payload := lead.take (payloadMax - 1) ++ [errEmergencyStop] ++ trail }

/-- A build's `BUSY_POLICY`: the answer to a move command that arrives while the engine runs (R10, R241). The spec does not say where among the
handler's other work the answer is sent, so both points are the build's (log 24). -/
structure BusyAnswer where
  /-- The response frame. -/
  frame : BusyFrame
  /-- Whether the answer comes before the checks of R236, or only to a move command that passes them. -/
  beforeChecks : Bool
  /-- Whether the answer is sent before the frame's DEC_CLEAR, or after it. -/
  beforeClear : Bool
deriving DecidableEq, Repr, Inhabited

/-- The response of a busy answer (R241). -/
def BusyAnswer.response (a : BusyAnswer) : Response := a.frame.response

/-- When a build sends its `ESTOP_REPORT`. The spec leaves it open: "the STOP command, or a hardware input not described" (R10, R242, 91 N9; log 5). -/
inductive ReportTrigger where
  /-- In the STOP command, after SEQ_STOP and before the response. -/
  | beforeStopAnswer
  /-- In the STOP command, after the response and before DEC_CLEAR. -/
  | afterStopAnswer
  /-- At an event outside the STOP command, an arrival of its own. -/
  | stopEvent
deriving DecidableEq, Repr, Inhabited

/-- A build's `ESTOP_REPORT`: the response frame that carries the `EMERGENCY_STOP` error byte, and its trigger (R10, R242). -/
structure StopReport where
  /-- The response frame. -/
  frame : ReportFrame
  /-- When it is sent. -/
  trigger : ReportTrigger
deriving DecidableEq, Repr, Inhabited

/-- The response of a report (R242). -/
def StopReport.response (r : StopReport) : Response := r.frame.response

/-- `E_BADMULT_CODE`: which of its two values a build sends for a Data length that is no multiple of 16 (R10, R238). -/
inductive BadMultCode where
  | invalidPacketLength
  | invalidMotorCount
deriving DecidableEq, Repr, Inhabited

/-- The error byte of the chosen code (R93, R238). -/
def BadMultCode.byte : BadMultCode → Byte
  | .invalidPacketLength => errInvalidPacketLength
  | .invalidMotorCount => errInvalidMotorCount

/-- The open parameters, each in the range R9 and R10 give it. A range that starts at 1 is held as its value less one. -/
structure Params where
  /-- `DEBOUNCE_TICKS` less one, 0 to 65534. -/
  debounceLessOne : Fin 65535
  /-- `SAFETY_TIMEOUT_TICKS`, 0 to 4294967294. -/
  safetyTimeout : Fin 4294967295
  /-- `RX_DRAIN_MAX` less one, 0 to 254. -/
  rxDrainLessOne : Fin 255
  /-- `MB_CFG_CMD`. -/
  mbCfgCmd : Byte
  /-- `KEY_ACTIVE_HIGH`. -/
  keyActiveHigh : Bool
  /-- `STATUS_BUSY_HIGH`. -/
  statusBusyHigh : Bool
  /-- `TICK_HZ` less one; no rule reads it. -/
  tickHzLessOne : Nat
  /-- `E_BADMULT_CODE`. -/
  badMult : BadMultCode
  /-- `BUSY_POLICY`; none is the spec's contract, a restart (R241). -/
  busyPolicy : Option BusyAnswer
  /-- `ESTOP_REPORT`; none is the spec's contract (R242). -/
  estopReport : Option StopReport
deriving DecidableEq, Repr, Inhabited

/-- The report of the build, if the given trigger is the one that sends it (R10, R242). -/
def Params.reportAt (p : Params) (t : ReportTrigger) : Option Response :=
  match p.estopReport with
  | none => none
  | some r => if r.trigger = t then some r.response else none

/-- `DEBOUNCE_TICKS`, 1 to 65535. -/
def Params.debounceTicks (p : Params) : Nat := p.debounceLessOne.val + 1
/-- `SAFETY_TIMEOUT_TICKS`, 0 to 4294967294. -/
def Params.safetyTimeoutTicks (p : Params) : Nat := p.safetyTimeout.val
/-- `RX_DRAIN_MAX`, 1 to 255. -/
def Params.rxDrainMax (p : Params) : Nat := p.rxDrainLessOne.val + 1
/-- `TICK_HZ`, above 0. -/
def Params.tickHz (p : Params) : Nat := p.tickHzLessOne + 1

/-- The build's `DEBOUNCE_TICKS` less one: no value is known (R9; log 4). -/
opaque Config.debounceLessOne : Fin 65535
/-- The build's `SAFETY_TIMEOUT_TICKS`: no value is known (R9; log 4). -/
opaque Config.safetyTimeout : Fin 4294967295
/-- The build's `RX_DRAIN_MAX` less one: no value is known (R9; log 4). -/
opaque Config.rxDrainLessOne : Fin 255
/-- The build's `MB_CFG_CMD`: no value is known (R9; log 4). -/
opaque Config.mbCfgCmd : Byte
/-- The build's `KEY_ACTIVE_HIGH`: no value is known (R9; log 4). -/
opaque Config.keyActiveHigh : Bool
/-- The build's `STATUS_BUSY_HIGH`: no value is known (R9; log 4). -/
opaque Config.statusBusyHigh : Bool
/-- The build's `TICK_HZ` less one: no value is known (R9; log 4). -/
opaque Config.tickHzLessOne : Nat
/-- The build's `E_BADMULT_CODE`: no value is known (R10; log 4). -/
opaque Config.badMult : BadMultCode
/-- `FW_VERSION_PAYLOAD` before it is cut to a legal length: no value is known (R10; log 4). -/
opaque Config.fwVersionRaw : List Byte
/-- `STATUS_PAYLOAD_LAYOUT` before it is cut to a legal length, a function of `active`, `completed` and the electrical status levels:
no value is known (R10; log 4). -/
opaque Config.statusLayoutRaw : Mask → Mask → Lines → List Byte

/-- The build's `BUSY_POLICY`: whether it has one, and which, is not known (R10, R241; log 4). -/
opaque Config.busyPolicy : Option BusyAnswer
/-- The build's `ESTOP_REPORT`: whether it has one, and which, is not known (R10, R242; log 4). -/
opaque Config.estopReport : Option StopReport

/-- The build's parameters. -/
def Config.params : Params where
  debounceLessOne := Config.debounceLessOne
  safetyTimeout := Config.safetyTimeout
  rxDrainLessOne := Config.rxDrainLessOne
  mbCfgCmd := Config.mbCfgCmd
  keyActiveHigh := Config.keyActiveHigh
  statusBusyHigh := Config.statusBusyHigh
  tickHzLessOne := Config.tickHzLessOne
  badMult := Config.badMult
  busyPolicy := Config.busyPolicy
  estopReport := Config.estopReport

/-- `FW_VERSION_PAYLOAD`, 0 to 251 bytes (R231). -/
def Config.fwVersionPayload : List Byte := Config.fwVersionRaw.take payloadMax

/-- `STATUS_PAYLOAD_LAYOUT`, 0 to 251 bytes (R232). -/
def Config.statusPayload (active completed : Mask) (levels : Lines) : List Byte :=
  (Config.statusLayoutRaw active completed levels).take payloadMax

/-! ## Free values of the environment (R43, R274; 93_implementation_defined.md I5, I6, I8) -/

/-- The logical status-line levels at draw `n`: index `m - 1` is 1 when motor `m` reads busy. Nothing constrains it (log 6). -/
opaque Config.busyLevels : Nat → Lines

/-- The bytes that are on the motor-bus receive stream at draw `n`, oldest first. Nothing constrains it (log 7). -/
opaque Config.mbRxBytes : Nat → List Byte

/-- What the `dec_plen` output shows while no frame is ready, from the draw counter, `dec_len`, `dec_cnt` and `dec_xor`. Nothing constrains
it (R40; log 9). -/
opaque Config.decPlenUnspecified : Nat → BitVec 16 → Byte → Byte → Byte

end Sys2Proof
end

