-- ==== Sys2Proof/Machine/State.lean ====
section
/-! DEFINITION. The state of SQUID-FCS as plain data (10_state.md), with the command port and the controller's program of
44_command_contract.md beside it, and the state after reset (R50). -/

namespace Sys2Proof.Machine

/-- The storage of `dec_buf` or `txb`: (index, byte) pairs in rising order of the index. An index that is not listed has been
written by nothing and has no value (R27, R30). -/
abbrev Mem := List Host.Cell

/-- The decoder's state; its value 7 is unused and excluded by the type (R22, 93 I13). -/
inductive DecState where
  | waitStx
  | waitLenHigh
  | waitLenLow
  | waitCmd
  | waitData
  | waitXor
  | ready
deriving DecidableEq, Repr

/-- The engine's state; its values 5 to 7 are unused and excluded by the type (R31, 93 I13). -/
inductive SeqState where
  | idle
  | checkingRx
  | sending
  | waitingStatus
  | complete
deriving DecidableEq, Repr

/-- One MotorSetting record (R85); `steps` is the 32-bit pattern of a two's-complement number (R86). -/
structure MotorSetting where
  number : Field32
  acceleration : Field32
  maxSpeed : Field32
  steps : Field32
deriving DecidableEq, Repr

/-- An output event (R49). -/
inductive Event where
  /-- A byte on the host transmit stream. -/
  | host (b : Byte)
  /-- A byte on the motor-bus transmit stream. -/
  | mbus (b : Byte)
  /-- Key line of motor number `motor` driven to a logical level. -/
  | key (motor : Nat) (level : Bool)
  /-- A motor-bus receive byte taken and discarded. -/
  | mbrxDrop (b : Byte)
deriving DecidableEq, Repr

/-- Why an operation was refused (R14, R262). -/
inductive RefReason where
  /-- `REF_RESERVED_OP`: an operation word with `opc` 0x9 or more (R99). -/
  | refReservedOp
  /-- `REF_NONZERO_FIELD`: a must-be-zero field of an operation word is nonzero (R98). -/
  | refNonzeroField
  /-- `REF_TXB_FULL`: TXB_PUSH with 251 bytes queued (R152). -/
  | refTxbFull
  /-- `REF_START_COUNT`: SEQ_START with a count above 10 (R180). -/
  | refStartCount
  /-- `REF_START_UNWRITTEN`: a record byte the current frame did not write (R165, R181). -/
  | refStartUnwritten
  /-- `REF_START_INVALID`: a record that fails `msd_valid` (R167, R181). -/
  | refStartInvalid
deriving DecidableEq, Repr

/-- Why the model stops with a fault. Each is raised only in states no run from reset reaches (the invariants of Safety.lean exclude
them), and each is safe: the model stops where no rule of the spec gives the access a meaning. -/
inductive Fault where
  /-- RX_BYTE in WaitData would write `dec_buf` outside 0..250 (R27, R126). Safe. -/
  | decBufIndex
  /-- TXB_PUSH would write `txb` outside 0..250 (R30, R152). Safe. -/
  | txbIndex
  /-- ENC_FRAME would read a byte of `txb` that nothing has written (R30, R153). Safe. -/
  | txbUnwritten
  /-- SEQ_TICK in Sending would read `settings` outside 0..9 (R41, R191). Safe. -/
  | settingsIndex
  /-- SEQ_TICK in Sending would drive a key line of a motor number outside 1..10 (R42, R183, R192). Safe. -/
  | keyIndex
deriving DecidableEq, Repr

/-- Why the model gives a step no meaning. -/
inductive Refusal where
  /-- Raised by exec's arm of an instruction that has no meaning yet. Safe. -/
  | notModelled (mnemonic : String)
  /-- Raised by step in a state whose run carries the refusal mark: "the model records refusal R and stops" (R12, R14). Safe. -/
  | runRefused (reason : RefReason)
  /-- Raised by step when the controller's program holds a response code that R92 does not list, in states no run reaches. Safe. -/
  | unknownResponse (code : Byte)
deriving DecidableEq, Repr

/-- The packet decoder's fields (R22 to R28). -/
structure Decoder where
  /-- `dec_state` (R22). -/
  state : DecState
  /-- `dec_len` (R23). -/
  len : BitVec 16
  /-- `dec_xor` (R24). -/
  xor : Byte
  /-- `dec_cmd` (R25). -/
  cmd : Byte
  /-- `dec_cnt` (R26). -/
  cnt : Byte
  /-- `dec_buf` and `dec_wr`: index `i` is listed exactly when its mark is set (R27). -/
  buf : Mem
  /-- `dec_done` (R28). -/
  frameDone : Bool
deriving DecidableEq, Repr

/-- The packet encoder's fields (R29, R30). -/
structure Encoder where
  /-- `txb_len` (R29). -/
  txbLen : Byte
  /-- `txb` (R30). -/
  txb : Mem
deriving DecidableEq, Repr

/-- The motor sequencing engine's fields (R31 to R42). -/
structure Engine where
  /-- `seq_state` (R31). -/
  state : SeqState
  /-- `running` (R32). -/
  running : Bool
  /-- `active` (R33). -/
  active : Mask
  /-- `completed` (R34). -/
  completed : Mask
  /-- `pending` (R35). -/
  pending : Mask
  /-- `motorCount` (R36). -/
  motorCount : BitVec 4
  /-- `sendIdx` (R37). -/
  sendIdx : BitVec 4
  /-- `tickCounter` (R38). -/
  tickCounter : BitVec 32
  /-- `deb[0..9]` (R39). -/
  deb : Vector (BitVec 16) 10
  /-- `settings[0..9]` (R41). -/
  settings : Vector MotorSetting 10
  /-- `key[0..9]`, logical levels (R42). -/
  key : Lines
deriving DecidableEq, Repr

/-- One thing that reaches the block or its controller from outside, in the order in which the block applies them (R6, R72). -/
inductive Arrival where
  /-- An agent puts an operation word on the command port (R5). -/
  | word (w : OpWord)
  /-- The controller takes its next turn (R6 (3), R230). -/
  | controller
  /-- The reset input of the block is asserted (R290). -/
  | resetInput
  /-- The controller learns of an emergency stop outside the STOP command: a trigger of `ESTOP_REPORT` (R10, R242; log 5). -/
  | stopEvent
deriving DecidableEq, Repr

/-- One thing the controller has yet to do for the frame it handles (44_command_contract.md). -/
inductive CtlItem where
  /-- Issue an operation word. -/
  | op (w : OpWord)
  /-- Send the response with this code and, for ERROR, this Data byte (R92, R240). -/
  | rsp (c : Byte) (e : Byte)
  /-- Wait until `all_complete = 1` (R234 (4)). -/
  | waitComplete
deriving DecidableEq, Repr

/-- The whole state. -/
structure State where
  /-- The packet decoder. -/
  dec : Decoder
  /-- The packet encoder. -/
  enc : Encoder
  /-- The motor sequencing engine. -/
  seq : Engine
  /-- The refusal mark: none is 0, `some r` is 1 with its reason (R14, R48). -/
  refused : Option RefReason
  /-- The output history, oldest event first (R49). -/
  hist : List Event
  /-- What arrives next, first item first: the total order of all agents' operations (R6, R72). -/
  port : List Arrival
  /-- The controller's remaining program; empty when it handles no frame (R230, R303). -/
  ctl : List CtlItem
  /-- The model's own counter of draws from the environment, the argument of Config's free values (log 8). -/
  draws : Nat
deriving DecidableEq, Repr

/-- The decoder after reset (R50): every scalar 0, nothing written. -/
def Decoder.reset : Decoder where
  state := .waitStx
  len := 0#16
  xor := 0#8
  cmd := 0#8
  cnt := 0#8
  buf := []
  frameDone := false

/-- The encoder after reset (R50). -/
def Encoder.reset : Encoder where
  txbLen := 0#8
  txb := []

/-- The record the model's reset puts into the latch; the spec gives its contents no value (R41, R50; log 12). -/
def MotorSetting.zero : MotorSetting where
  number := 0#32
  acceleration := 0#32
  maxSpeed := 0#32
  steps := 0#32

/-- The engine after reset (R50). -/
def Engine.reset : Engine where
  state := .idle
  running := false
  active := 0#16
  completed := 0#16
  pending := 0#16
  motorCount := 0#4
  sendIdx := 0#4
  tickCounter := 0#32
  deb := Vector.replicate 10 0#16
  settings := Vector.replicate 10 MotorSetting.zero
  key := Vector.replicate 10 false

/-- The machine right after reset (R50, R290): nothing has arrived and the controller handles no frame. -/
def State.reset : State where
  dec := Decoder.reset
  enc := Encoder.reset
  seq := Engine.reset
  refused := none
  hist := []
  port := []
  ctl := []
  draws := 0

end Sys2Proof.Machine
end

