-- ==== Sys2Proof/Machine/Operands.lean ====
section
/-! DEFINITION. Operand forms: the indexed stores, byte order, records, motor numbers, and the wire frames built from them
(20_memory.md, 30_encoding.md R80 to R90, 42_motor_settings.md, 43_sequencer.md R183). -/

namespace Sys2Proof.Machine

/-! ## The indexed stores `dec_buf` and `txb` (R60) -/

/-- The byte at an index, if it has been written (R27, R30). -/
def Mem.read : Mem → Nat → Option Byte
  | [], _ => none
  | (c, x) :: m, a => if a = c then some x else Mem.read m a

/-- Write one byte; the list stays in rising order (R12). -/
def Mem.write : Mem → Nat → Byte → Mem
  | [], a, b => [(a, b)]
  | (c, x) :: m, a, b =>
    if a < c then (a, b) :: (c, x) :: m
    else if a = c then (a, b) :: m
    else (c, x) :: Mem.write m a b

/-- The indexes rise strictly. -/
def Mem.rising : Mem → Bool
  | [] => true
  | [_] => true
  | x :: y :: m => decide (x.1 < y.1) && Mem.rising (y :: m)

/-- The canonical form of a store of 251 bytes: indexes strictly rising, each in 0..250. Every listed entry differs from what an unlisted
index reads as, since an unlisted index has no value. -/
def Mem.wf (m : Mem) : Bool := Mem.rising m && m.all (fun c => decide (c.1 < payloadMax))

/-- The `n` bytes from index `o` on, if each has been written. -/
def Mem.readSpan (m : Mem) : Nat → Nat → Option (List Byte)
  | _, 0 => some []
  | o, n + 1 =>
    match Mem.read m o, Mem.readSpan m (o + 1) n with
    | some b, some bs => some (b :: bs)
    | _, _ => none

/-! ## Byte order (R64 to R66) -/

/-- `LE32`: the byte at the lowest offset holds bits 7:0 (R12, R65). -/
def le32 (b0 b1 b2 b3 : Byte) : Field32 := b3 ++ b2 ++ b1 ++ b0

/-- The four bytes of a field, lowest first (R66). -/
def le32Bytes (v : Field32) : List Byte :=
  [v.extractLsb' 0 8, v.extractLsb' 8 8, v.extractLsb' 16 8, v.extractLsb' 24 8]

/-- Bits 15:8 of a Length (R64). -/
def lenHigh (l : BitVec 16) : Byte := l.extractLsb' 8 8

/-- Bits 7:0 of a Length (R64). -/
def lenLow (l : BitVec 16) : Byte := l.extractLsb' 0 8

/-! ## MotorSetting records (R85, R86, R165, R167) -/

/-- A record from its 16 bytes (R85). -/
def recordOf : List Byte → Option MotorSetting
  | [n0, n1, n2, n3, a0, a1, a2, a3, v0, v1, v2, v3, t0, t1, t2, t3] =>
    some { number := le32 n0 n1 n2 n3, acceleration := le32 a0 a1 a2 a3, maxSpeed := le32 v0 v1 v2 v3, steps := le32 t0 t1 t2 t3 }
  | _ => none

/-- `msd_decode(k)`: record `k` at `dec_buf[16k .. 16k+15]`; none if a byte of it is unwritten (R61, R165). -/
def msdDecode (buf : Mem) (k : Nat) : Option MotorSetting :=
  match Mem.readSpan buf (16 * k) recSize with
  | none => none
  | some bs => recordOf bs

/-- `msd_valid`: number in 1..10 as an unsigned value, acceleration and maxSpeed not 0 (R167). -/
def msdValid (r : MotorSetting) : Bool :=
  decide (1 ≤ r.number.toNat) && decide (r.number.toNat ≤ maxMotors) && decide (r.acceleration ≠ 0#32) && decide (r.maxSpeed ≠ 0#32)

/-- `steps` as a signed number (R11, R86). -/
def MotorSetting.stepsInt (r : MotorSetting) : Int := r.steps.toInt

/-- Records `k`, `k + 1`, …, `n` of them, checked in index order, unwritten before invalid within a record; the first failing check
decides (R181, R267). -/
def msdRecords (buf : Mem) : Nat → Nat → Except RefReason (List MotorSetting)
  | _, 0 => .ok []
  | k, n + 1 =>
    match msdDecode buf k with
    | none => .error .refStartUnwritten
    | some r =>
      if msdValid r then
        match msdRecords buf (k + 1) n with
        | .ok rs => .ok (r :: rs)
        | .error e => .error e
      else .error .refStartInvalid

/-! ## Motor numbers (R42, R183) -/

/-- `bit(m)`, for 1 ≤ m ≤ 10 (R183). -/
def motorBit (m : Nat) : Mask := 1#16 <<< (m - 1)

/-- The motor numbers less one, ascending (R194). -/
def motorIndexes : List (Fin 10) := List.finRange 10

/-- The line index of a record's motor, `number - 1`; none outside 1..10 (R42, R183). -/
def motorIndex (r : MotorSetting) : Option (Fin 10) :=
  if h : 1 ≤ r.number.toNat ∧ r.number.toNat ≤ 10 then some ⟨r.number.toNat - 1, by omega⟩ else none

/-! ## Wire frames -/

/-- The Length of a frame with `n` Data bytes (R81). -/
def frameLength (n : Byte) : BitVec 16 := 5#16 + n.setWidth 16

/-- A FRAME's checksum: LenH, LenL, Cmd and every Data byte (R82). -/
def frameXor (lenH lenL c : Byte) (data : List Byte) : Byte := xorFrom (lenH ^^^ lenL ^^^ c) data

/-- A FRAME's bytes in transmission order, for a Length, a Cmd and its Data (R80). -/
def frameBytes (l : BitVec 16) (c : Byte) (data : List Byte) : List Byte :=
  [stx, lenHigh l, lenLow l, c] ++ data ++ [frameXor (lenHigh l) (lenLow l) c data]

/-- The first 13 bytes of a motor-bus configuration frame (R88). -/
def mbusBody (cmd : Byte) (r : MotorSetting) : List Byte :=
  cmd :: (le32Bytes r.acceleration ++ le32Bytes r.maxSpeed ++ le32Bytes r.steps)

/-- The 14 bytes of a motor-bus configuration frame, its checksum over all 13 before it (R88, R89). -/
def mbusFrame (cmd : Byte) (r : MotorSetting) : List Byte :=
  mbusBody cmd r ++ [xorFrom 0#8 (mbusBody cmd r)]

end Sys2Proof.Machine
end

