-- ==== Sys2Proof/Machine/Flags.lean ====
section
/-! DEFINITION. The flags and status outputs of the block (10_state.md R40, R42, R44). -/

namespace Sys2Proof.Machine

/-- `dec_ready` (R28, R40). -/
def State.decReady (s : State) : Bool := decide (s.dec.state = .ready)

/-- `dec_plen`: the Data bytes of the ready frame; unspecified while none is ready (R40). -/
def State.decPlen (s : State) : Byte :=
  if s.dec.state = .ready then (s.dec.len - 5#16).setWidth 8
  else Config.decPlenUnspecified s.draws s.dec.len s.dec.cnt s.dec.xor

/-- `all_complete` of an engine: some motor is active and every active motor is completed (R40, R203). -/
def Engine.allComplete (e : Engine) : Bool :=
  decide (e.active ≠ 0#16) && decide (e.active &&& e.completed = e.active)

/-- The `all_complete` output (R40). -/
def State.allComplete (s : State) : Bool := s.seq.allComplete

/-- The `dec_state` output's number (R22). -/
def decStateCode : DecState → BitVec 3
  | .waitStx => 0#3
  | .waitLenHigh => 1#3
  | .waitLenLow => 2#3
  | .waitCmd => 3#3
  | .waitData => 4#3
  | .waitXor => 5#3
  | .ready => 6#3

/-- The `seq_state` output's number (R31). -/
def seqStateCode : SeqState → BitVec 3
  | .idle => 0#3
  | .checkingRx => 1#3
  | .sending => 2#3
  | .waitingStatus => 3#3
  | .complete => 4#3

/-- The electrical level of the key line at index `i`: the logical level XNOR `KEY_ACTIVE_HIGH` (R42). -/
def keyLevel (p : Params) (e : Engine) (i : Fin 10) : Bool := e.key[i] == p.keyActiveHigh

/-- The electrical levels of the status lines whose logical levels are given, by `STATUS_BUSY_HIGH` (R43, R232). -/
def statusLevels (p : Params) (busy : Lines) : Lines := busy.map (fun v => v == p.statusBusyHigh)

end Sys2Proof.Machine
end

