-- ==== Sys2Proof/Machine/Ops.lean ====
section
/-! DEFINITION. The named operations over the state that the meanings share: field updates, output, refusal, the drain, the
controller's program, and the reset input. The block takes no exceptions (60_exceptions.md R268, R269); the one thing an
operation can raise is a refusal, `State.refuse` (00_scope.md R14). -/

namespace Sys2Proof.Machine

/-! ## Field updates -/

/-- Replace the decoder. -/
def State.setDec (s : State) (d : Decoder) : State := { s with dec := d }
/-- Replace the encoder. -/
def State.setEnc (s : State) (e : Encoder) : State := { s with enc := e }
/-- Replace the engine. -/
def State.setSeq (s : State) (e : Engine) : State := { s with seq := e }
/-- Replace the arrivals. -/
def State.setPort (s : State) (p : List Arrival) : State := { s with port := p }
/-- Replace the controller's program. -/
def State.setCtl (s : State) (c : List CtlItem) : State := { s with ctl := c }

/-- `dec_done <- 0`, as every operation other than the frame-completing RX_BYTE leaves it (R28, R44, R154; log 3). -/
def State.clearDone (s : State) : State := { s with dec := { s.dec with frameDone := false } }

/-- Append output events, in order (R13, R49, R78). -/
def State.emit (s : State) (evs : List Event) : State := { s with hist := s.hist ++ evs }

/-- Advance the counter of draws if the operation drew from the environment (log 8). -/
def State.drew (s : State) (drawn : Bool) : State := { s with draws := if drawn then s.draws + 1 else s.draws }

/-! ## Refusal: the one thing an operation can raise (R12, R14, R48) -/

/-- `refuse R`: no state changes, nothing is emitted, the sticky mark records the reason. -/
def State.refuse (s : State) (r : RefReason) : State := { s with refused := some r }

/-! ## The motor-bus receive drain (R184) -/

/-- The `MBRX_DROP` events of one `DRAIN`, given the bytes that are on the receive stream: at most `RX_DRAIN_MAX` of them are taken, oldest
first (R184, R205). -/
def drainEvents (p : Params) (available : List Byte) : List Event :=
  (available.take p.rxDrainMax).map Event.mbrxDrop

/-! ## The controller's program (44_command_contract.md) -/

/-- Put items before the rest of the controller's program. -/
def State.runProgram (s : State) (items : List CtlItem) : State := { s with ctl := items ++ s.ctl }

/-- The program item that issues DEC_CLEAR (R97, R230). -/
def itemDecClear : CtlItem := .op (opWord 0x2#4 0#4 0#8)

/-- The program item that issues SEQ_STOP (R97, R233). -/
def itemSeqStop : CtlItem := .op (opWord 0x8#4 0#4 0#8)

/-- The program item that issues SEQ_START n (R97, R234). -/
def itemSeqStart (n : BitVec 4) : CtlItem := .op (opWord 0x6#4 n 0#8)

/-- `SEND c, P`: `TXCLR; PUSH p0; …; PUSH pk; ENC c` (R103). -/
def sendProgram (c : Byte) (payload : List Byte) : List CtlItem :=
  .op (opWord 0x5#4 0#4 0#8) :: (payload.map (fun b => CtlItem.op (opWord 0x4#4 0#4 b)) ++ [.op (opWord 0x3#4 0#4 c)])

/-- The controller answers with an ERROR frame and then clears the decoder (R230, R237 to R240; 95 P3, P4; log 19). -/
def errorProgram (e : Byte) : List CtlItem := [.rsp codeRspError e, itemDecClear]

/-- The operations that send a frame which an open parameter may hold, if it holds one (R10). -/
def optionProgram : Option Response → List CtlItem
  | none => []
  | some r => sendProgram r.code r.data

/-- An emergency stop outside the STOP command: the controller sends the build's report, if that is its trigger, once it is done with what it has
begun, since it works through one frame at a time (R242, R303; log 5). -/
def State.queueReport (p : Params) (s : State) : State := { s with ctl := s.ctl ++ optionProgram (p.reportAt .stopEvent) }

/-! ## The reset input (R290) -/

/-- Every field to its reset value, the controller free, the arrivals after the reset kept, and later draws fresh (R50, R290; log 21). -/
def State.resetInput (s : State) (rest : List Arrival) : State :=
  { State.reset with port := rest, draws := s.draws }

end Sys2Proof.Machine
end

