-- ==== Sys2Proof/Machine/Commands.lean ====
section
/-! DEFINITION. The host commands: what the controller does for each Cmd byte of an accepted frame, "as the sequence of block operations
the controller issues" (44_command_contract.md R230 to R243). A handler puts that sequence into the controller's program; the
controller issues it one operation a turn, so that the other agents' operations can come between (00_scope.md R6; log 16). -/

namespace Sys2Proof.Machine

/-- CMD_VERSION (R231): the VERSION response, then DEC_CLEAR (R230). A nonempty Data field is ignored (R243). -/
def execCmdVersion (s : State) : Host.Outcome State Fault Refusal :=
  .next (s.runProgram [.rsp codeRspVersion 0#8, itemDecClear])

/-- CMD_STATUS (R232): the STATUS response, then DEC_CLEAR (R230). A nonempty Data field is ignored (R243). -/
def execCmdStatus (s : State) : Host.Outcome State Fault Refusal :=
  .next (s.runProgram [.rsp codeRspStatus 0#8, itemDecClear])

/-- CMD_STOP for given parameters: SEQ_STOP, the STOP response, DEC_CLEAR, and the build's report where its trigger puts it (R233, R242; log 5). -/
def stopProgram (p : Params) : List CtlItem :=
  [itemSeqStop] ++ optionProgram (p.reportAt .beforeStopAnswer) ++ [.rsp codeRspStop 0#8] ++ optionProgram (p.reportAt .afterStopAnswer) ++
    [itemDecClear]

/-- CMD_STOP (R233): SEQ_STOP, the STOP response, then DEC_CLEAR (R230). A nonempty Data field is ignored (R243). -/
def execCmdStop (s : State) : Host.Outcome State Fault Refusal :=
  .next (s.runProgram (stopProgram Config.params))

/-- Steps (2) to (5) of R234: start, clear, wait if the command is SYNC_MOVE, then the MOVE response. -/
def moveProgram (sync : Bool) (n : BitVec 4) : List CtlItem :=
  [itemSeqStart n, itemDecClear] ++ (if sync then [CtlItem.waitComplete] else []) ++ [.rsp codeRspMove 0#8]

/-- The busy answer a move command gets in this state, if any: the engine runs and the build has a `BUSY_POLICY` (R241). -/
def busyAnswer (p : Params) (s : State) : Option BusyAnswer := if s.seq.running then p.busyPolicy else none

/-- A busy answer's frame and the frame's DEC_CLEAR, in the build's order (R230, R241; log 24). -/
def busyProgram (a : BusyAnswer) : List CtlItem :=
  if a.beforeClear then sendProgram a.response.code a.response.data ++ [itemDecClear]
  else [itemDecClear] ++ sendProgram a.response.code a.response.data

/-- A move command that has passed its checks: the moves of R234, or the busy answer instead of a restart; its order
against DEC_CLEAR, which R230 and R241 leave open, is a part of the build's answer (log 24). -/
def acceptMove (p : Params) (sync : Bool) (n : BitVec 4) (s : State) : State :=
  match busyAnswer p s with
  | some a => s.runProgram (busyProgram a)
  | none => s.runProgram (moveProgram sync n)

/-- The checks of a move command (R236): the Data length, the count and the records in that order; the first failing check picks the ERROR byte
and leaves the engine untouched (R238, R239). An unwritten record byte is refused (R12, R165; log 28); a ready frame has none. -/
def checkMove (p : Params) (sync : Bool) (s : State) : State :=
  let d := s.decPlen.toNat
  if d % recSize ≠ 0 then s.runProgram (errorProgram p.badMult.byte)
  else if maxMotors < d / recSize then s.runProgram (errorProgram errInvalidMotorCount)
  else
    match msdRecords s.dec.buf 0 (d / recSize) with
    | .ok _ => acceptMove p sync (BitVec.ofNat 4 (d / recSize)) s
    | .error .refStartInvalid => s.runProgram (errorProgram errMotorParam)
    | .error r => s.refuse r

/-- A move command (R234 to R239), with a busy answer before the checks if the build gives it there (R241; log 24). -/
def handleMove (p : Params) (sync : Bool) (s : State) : State :=
  match busyAnswer p s with
  | some a => if a.beforeChecks then s.runProgram (busyProgram a) else checkMove p sync s
  | none => checkMove p sync s

/-- CMD_SYNC_MOVE (R234). -/
def execCmdSyncMove (s : State) : Host.Outcome State Fault Refusal := .next (handleMove Config.params true s)

/-- CMD_ASYNC_MOVE (R235). -/
def execCmdAsyncMove (s : State) : Host.Outcome State Fault Refusal := .next (handleMove Config.params false s)

/-- An unrecognised Cmd: `ERROR, [INVALID_COMMAND]`, and no engine operation (R237). -/
def unknownCommand (s : State) : State := s.runProgram (errorProgram errInvalidCommand)

end Sys2Proof.Machine
end

