-- ==== Sys2Proof/Machine/PacketDecoder.lean ====
section
/-! DEFINITION. RX_BYTE and DEC_CLEAR (40_packet_decoder.md). -/

namespace Sys2Proof.Machine

/-- HARD_RESET: the state, every scalar and every written mark; `dec_done` is left as it is (R129). -/
def Decoder.hardReset (d : Decoder) : Decoder :=
  { d with state := .waitStx, len := 0#16, xor := 0#8, cmd := 0#8, cnt := 0#8, buf := [] }

/-- RX_BYTE in WaitStx (R122). -/
def Decoder.rxStx (b : Byte) (d : Decoder) : Decoder :=
  if b = stx then { d with cnt := 1#8, state := .waitLenHigh } else d

/-- RX_BYTE in WaitLenHigh (R123). -/
def Decoder.rxLenHigh (b : Byte) (d : Decoder) : Decoder :=
  { d with len := b.setWidth 16 <<< 8, xor := b, cnt := 2#8, state := .waitLenLow }

/-- RX_BYTE in WaitLenLow: assemble the Length, then check it (R124). -/
def Decoder.rxLenLow (b : Byte) (d : Decoder) : Decoder :=
  let l := d.len ||| b.setWidth 16
  if l.toNat < lenMin ∨ lenMax < l.toNat then d.hardReset
  else { d with len := l, xor := d.xor ^^^ b, cnt := 3#8, state := .waitCmd }

/-- RX_BYTE in WaitCmd (R125). -/
def Decoder.rxCmd (b : Byte) (d : Decoder) : Decoder :=
  { d with cmd := b, xor := d.xor ^^^ b, cnt := 4#8,
           state := if d.len.toNat = lenMin then .waitXor else .waitData }

/-- RX_BYTE in WaitData: the byte goes to index `dec_cnt - 4`, which is in 0..250 in every reachable state (R126). -/
def Decoder.rxData (b : Byte) (d : Decoder) : Except Fault Decoder :=
  let i := (d.cnt - 4#8).toNat
  let n := d.cnt + 1#8
  if i < payloadMax then
    .ok { d with buf := Mem.write d.buf i b, xor := d.xor ^^^ b, cnt := n,
                 state := if n.setWidth 16 = d.len - 1#16 then .waitXor else .waitData }
  else .error .decBufIndex

/-- RX_BYTE in WaitXor (R127). -/
def Decoder.rxXor (b : Byte) (d : Decoder) : Decoder :=
  if b = d.xor then { d with state := .ready, frameDone := true } else d.hardReset

/-- RX_BYTE by decoder state, after `dec_done <- 0`; a byte in Ready is discarded (R121, R128, R131). -/
def Decoder.rxByte (b : Byte) (d : Decoder) : Except Fault Decoder :=
  let d0 : Decoder := { d with frameDone := false }
  match d.state with
  | .waitStx => .ok (d0.rxStx b)
  | .waitLenHigh => .ok (d0.rxLenHigh b)
  | .waitLenLow => .ok (d0.rxLenLow b)
  | .waitCmd => .ok (d0.rxCmd b)
  | .waitData => d0.rxData b
  | .waitXor => .ok (d0.rxXor b)
  | .ready => .ok d0

/-- RX_BYTE (R120 to R131). -/
def execRxByte (b : Byte) (s : State) : Host.Outcome State Fault Refusal :=
  match s.dec.rxByte b with
  | .ok d => .next (s.setDec d)
  | .error f => .fault f

/-- DEC_CLEAR: `dec_done <- 0` and the hard reset, in every decoder state (R134). -/
def execDecClear (s : State) : Host.Outcome State Fault Refusal :=
  .next (s.clearDone.setDec s.clearDone.dec.hardReset)

end Sys2Proof.Machine
end

