-- ==== Sys2Proof/Machine/PacketEncoder.lean ====
section
/-! DEFINITION. TXB_CLEAR, TXB_PUSH, ENC_FRAME and NOP (41_packet_encoder.md). Each clears `dec_done` (R28). -/

namespace Sys2Proof.Machine

/-- NOP: only `dec_done <- 0` (R154). -/
def execNop (s : State) : Host.Outcome State Fault Refusal := .next s.clearDone

/-- TXB_CLEAR: `txb_len <- 0`; the bytes of `txb` are left as they are (R151). -/
def execTxbClear (s : State) : Host.Outcome State Fault Refusal :=
  .next (s.clearDone.setEnc { s.enc with txbLen := 0#8 })

/-- TXB_PUSH: refused at 251 bytes, else the byte goes to `txb[txb_len]` (R152). A `txb_len` above 251 is out of its range (R29) and reached by
no run. -/
def execTxbPush (b : Byte) (s : State) : Host.Outcome State Fault Refusal :=
  if s.enc.txbLen.toNat = payloadMax then .next (s.refuse .refTxbFull)
  else if s.enc.txbLen.toNat < payloadMax then
    .next (s.clearDone.setEnc { txb := Mem.write s.enc.txb s.enc.txbLen.toNat b, txbLen := s.enc.txbLen + 1#8 })
  else .fault .txbIndex

/-- ENC_FRAME: one frame with Cmd `c` and the queued bytes as its Data goes to the host stream; the buffer is kept (R153). -/
def execEncFrame (c : Byte) (s : State) : Host.Outcome State Fault Refusal :=
  match Mem.readSpan s.enc.txb 0 s.enc.txbLen.toNat with
  | some data => .next (s.clearDone.emit ((frameBytes (frameLength s.enc.txbLen) c data).map Event.host))
  | none => .fault .txbUnwritten

end Sys2Proof.Machine
end

