-- ==== Sys2Proof/Machine/Reserved.lean ====
section
/-! DEFINITION. The three RESERVED rows: an operation word with `opc` 0x9 or more is refused with `REF_RESERVED_OP`, which changes nothing but
the refusal mark (30_encoding.md R99, 00_scope.md R14). -/

namespace Sys2Proof.Machine

/-- RESERVED, opc 0x9 (R99). -/
def execReserved9 (_w : OpWord) (s : State) : Host.Outcome State Fault Refusal := .next (s.refuse .refReservedOp)

/-- RESERVED, opc 0xA or 0xB (R99). -/
def execReservedAB (_w : OpWord) (s : State) : Host.Outcome State Fault Refusal := .next (s.refuse .refReservedOp)

/-- RESERVED, opc 0xC to 0xF (R99). -/
def execReservedCF (_w : OpWord) (s : State) : Host.Outcome State Fault Refusal := .next (s.refuse .refReservedOp)

end Sys2Proof.Machine
end

