-- ==== Sys2Proof/Machine/Responses.lean ====
section
/-! DEFINITION. The responses: each puts its `SEND` (30_encoding.md R103) at the head of the controller's program
(44_command_contract.md R231 to R235, R240; log 16). -/

namespace Sys2Proof.Machine

/-- RSP_VERSION: `SEND 0x81, FW_VERSION_PAYLOAD` (R231). -/
def execRspVersion (s : State) : Host.Outcome State Fault Refusal :=
  .next (s.runProgram (sendProgram codeRspVersion Config.fwVersionPayload))

/-- RSP_STATUS: `SEND 0x82, STATUS_PAYLOAD_LAYOUT(active, completed, raw status snapshot)`; the snapshot is the electrical levels of the
status lines at this moment (R232). -/
def execRspStatus (s : State) : Host.Outcome State Fault Refusal :=
  .next ((s.runProgram (sendProgram codeRspStatus
    (Config.statusPayload s.seq.active s.seq.completed (statusLevels Config.params (Config.busyLevels s.draws))))).drew true)

/-- RSP_STOP: `SEND 0x83, [0x00]` (R233). -/
def execRspStop (s : State) : Host.Outcome State Fault Refusal :=
  .next (s.runProgram (sendProgram codeRspStop [resultSuccess]))

/-- RSP_MOVE: `SEND 0x90, [0x00]` (R234, R235). -/
def execRspMove (s : State) : Host.Outcome State Fault Refusal :=
  .next (s.runProgram (sendProgram codeRspMove [resultSuccess]))

/-- RSP_ERROR: `SEND 0xFF, [error byte]` (R240). -/
def execRspError (e : Byte) (s : State) : Host.Outcome State Fault Refusal :=
  .next (s.runProgram (sendProgram codeRspError [e]))

end Sys2Proof.Machine
end

