-- ==== Sys2Proof/Machine/Sequencer.lean ====
section
/-! DEFINITION. SEQ_START, SEQ_TICK and SEQ_STOP (43_sequencer.md). The engine's functions take the open parameters and what the environment
shows as arguments; the meanings supply Config's. Each operation that is not refused clears `dec_done` (R28). -/

namespace Sys2Proof.Machine

/-! ## SEQ_START (R180 to R182) -/

/-- The records SEQ_START accepts: the count check, then the record checks in index order (R180, R181). -/
def startRecords (buf : Mem) (n : BitVec 4) : Except RefReason (List MotorSetting) :=
  if maxMotors < n.toNat then .error .refStartCount else msdRecords buf 0 n.toNat

/-- `settings[k] <- r[k]` for each record; the entries from the count on keep what they held (R41, R182). -/
def latchRecords (old : Vector MotorSetting 10) (rs : List MotorSetting) : Vector MotorSetting 10 :=
  Vector.ofFn (fun i => (rs[i.val]?).getD old[i])

/-- The union of the records' motor bits (R182). -/
def recordMask (rs : List MotorSetting) : Mask := rs.foldl (fun a r => a ||| motorBit r.number.toNat) 0#16

/-- The engine's part of SEQ_START, whatever state it is in (R182, R185). -/
def Engine.start (n : BitVec 4) (rs : List MotorSetting) (e : Engine) : Engine :=
  { state := .checkingRx
    running := true
    active := recordMask rs
    completed := 0#16
    pending := 0#16
    motorCount := n
    sendIdx := 0#4
    tickCounter := 0#32
    deb := Vector.replicate 10 0#16
    settings := latchRecords e.settings rs
    key := e.key }

/-- SEQ_START: the checks, the start, and the CheckingRx entry drain (R180 to R182). -/
def execSeqStart (n : BitVec 4) (s : State) : Host.Outcome State Fault Refusal :=
  match startRecords s.dec.buf n with
  | .error r => .next (s.refuse r)
  | .ok rs =>
    .next (((s.clearDone.setSeq (s.seq.start n rs)).emit (drainEvents Config.params (Config.mbRxBytes s.draws))).drew true)

/-! ## SEQ_TICK (R187 to R198) -/

/-- `ENTER_COMPLETE` (R196). -/
def Engine.enterComplete (e : Engine) : Engine := { e with state := .complete, running := false }

/-- The state part of `SEND_ONE`: the key line ends deasserted and the motor is pending (R192). -/
def Engine.sendOne (i : Fin 10) (e : Engine) : Engine :=
  { e with key := e.key.set i false, pending := e.pending ||| motorBit (i.val + 1) }

/-- The events of `SEND_ONE`: the frame between the key line's edges (R192). -/
def sendEvents (p : Params) (i : Fin 10) (r : MotorSetting) : List Event :=
  Event.key (i.val + 1) true :: ((mbusFrame p.mbCfgCmd r).map Event.mbus ++ [Event.key (i.val + 1) false])

/-- The Sending exit, on the tick at whose end every motor has been sent (R191, R193). -/
def Engine.leaveSending (e : Engine) : Engine :=
  if e.motorCount ≤ e.sendIdx then { e with state := .waitingStatus, tickCounter := 0#32 } else e

/-- SEQ_TICK in Sending: at most one motor is sent, then the exit test (R191). -/
def Engine.tickSending (p : Params) (e : Engine) : Except Fault (Engine × List Event) :=
  if e.sendIdx < e.motorCount then
    match e.settings[e.sendIdx.toNat]? with
    | none => .error .settingsIndex
    | some r =>
      match motorIndex r with
      | none => .error .keyIndex
      | some i => .ok (Engine.leaveSending { e.sendOne i with sendIdx := e.sendIdx + 1#4 }, sendEvents p i r)
  else .ok (e.leaveSending, [])

/-- One motor's part of a WaitingStatus tick: a pending motor's line is sampled, its counter rises or restarts, and it is promoted when the
counter reaches the threshold (R194). -/
def Engine.sampleMotor (p : Params) (busy : Lines) (e : Engine) (i : Fin 10) : Engine :=
  if e.pending &&& motorBit (i.val + 1) ≠ 0#16 then
    if busy[i] then { e with deb := e.deb.set i 0#16 }
    else
      let n := e.deb[i] + 1#16
      if p.debounceTicks ≤ n.toNat then
        { e with deb := e.deb.set i n, completed := e.completed ||| motorBit (i.val + 1),
                 pending := e.pending &&& ~~~motorBit (i.val + 1) }
      else { e with deb := e.deb.set i n }
  else e

/-- Every motor's part, in ascending motor number (R194). -/
def Engine.sampleAll (p : Params) (busy : Lines) (e : Engine) : Engine :=
  motorIndexes.foldl (Engine.sampleMotor p busy) e

/-- The safety timeout: every pending motor is recorded as completed (R197). -/
def Engine.forceComplete (e : Engine) : Engine :=
  Engine.enterComplete { e with completed := e.completed ||| e.pending, pending := 0#16 }

/-- The exits of a WaitingStatus tick, after the samples (R194, R197). -/
def Engine.waitingExit (p : Params) (e : Engine) : Engine :=
  if e.pending = 0#16 then e.enterComplete
  else if p.safetyTimeoutTicks < e.tickCounter.toNat then e.forceComplete
  else e

/-- SEQ_TICK in WaitingStatus: count the tick, sample, then the two exits (R194, R197). -/
def Engine.tickWaiting (p : Params) (busy : Lines) (e : Engine) : Engine :=
  Engine.waitingExit p (Engine.sampleAll p busy { e with tickCounter := e.tickCounter + 1#32 })

/-- SEQ_TICK of an engine, given the open parameters, the status levels and the bytes on the motor-bus receive stream (R187 to R198). -/
def Engine.tick (p : Params) (busy : Lines) (rx : List Byte) (e : Engine) : Except Fault (Engine × List Event) :=
  if e.running then
    match e.state with
    | .idle => .ok (e, [])
    | .checkingRx => .ok ({ e with state := .sending }, drainEvents p rx)
    | .sending => e.tickSending p
    | .waitingStatus => .ok (e.tickWaiting p busy, [])
    | .complete => .ok (e, [])
  else .ok (e, [])

/-- Whether a tick of this engine draws from the environment: the CheckingRx drain or the WaitingStatus samples (R184, R194). -/
def Engine.drawsInput (e : Engine) : Bool :=
  e.running && (decide (e.state = .checkingRx) || decide (e.state = .waitingStatus))

/-- SEQ_TICK (R187). -/
def execSeqTick (s : State) : Host.Outcome State Fault Refusal :=
  match s.seq.tick Config.params (Config.busyLevels s.draws) (Config.mbRxBytes s.draws) with
  | .ok (e, evs) => .next (((s.clearDone.setSeq e).emit evs).drew s.seq.drawsInput)
  | .error f => .fault f

/-! ## SEQ_STOP (R201) -/

/-- The engine's part of SEQ_STOP (R201, R202 (d)). -/
def Engine.stop (e : Engine) : Engine :=
  { e with completed := e.active, pending := 0#16, key := Vector.replicate 10 false, state := .idle, running := false }

/-- The key lines SEQ_STOP deasserts, an event for each that was asserted; none is between operations (R201, R202 (a)). -/
def Engine.stopEvents (e : Engine) : List Event :=
  (motorIndexes.filter (fun i => e.key[i])).map (fun i => Event.key (i.val + 1) false)

/-- SEQ_STOP, in every engine state (R201). -/
def execSeqStop (s : State) : Host.Outcome State Fault Refusal :=
  .next ((s.clearDone.setSeq s.seq.stop).emit s.seq.stopEvents)

end Sys2Proof.Machine
end

