-- ==== Sys2Proof/Machine/Dispatch.lean ====
section
/-! DEFINITION. One arm for each constructor of Instr, each a direct call of its meaning. -/

namespace Sys2Proof.Machine

def exec (i : Instr) (s : State) : Host.Outcome State Fault Refusal :=
  match i with
  -- operation words (30_encoding.md R97)
  | .nop => Sys2Proof.Machine.execNop s
  | .rxByte b => Sys2Proof.Machine.execRxByte b s
  | .decClear => Sys2Proof.Machine.execDecClear s
  | .encFrame c => Sys2Proof.Machine.execEncFrame c s
  | .txbPush b => Sys2Proof.Machine.execTxbPush b s
  | .txbClear => Sys2Proof.Machine.execTxbClear s
  | .seqStart n => Sys2Proof.Machine.execSeqStart n s
  | .seqTick => Sys2Proof.Machine.execSeqTick s
  | .seqStop => Sys2Proof.Machine.execSeqStop s
  -- reserved operation words (R99)
  | .reserved9 w => Sys2Proof.Machine.execReserved9 w s
  | .reservedAB w => Sys2Proof.Machine.execReservedAB w s
  | .reservedCF w => Sys2Proof.Machine.execReservedCF w s
  -- host commands (44_command_contract.md)
  | .cmdVersion => Sys2Proof.Machine.execCmdVersion s
  | .cmdStatus => Sys2Proof.Machine.execCmdStatus s
  | .cmdStop => Sys2Proof.Machine.execCmdStop s
  | .cmdSyncMove => Sys2Proof.Machine.execCmdSyncMove s
  | .cmdAsyncMove => Sys2Proof.Machine.execCmdAsyncMove s
  -- responses (R92)
  | .rspVersion => Sys2Proof.Machine.execRspVersion s
  | .rspStatus => Sys2Proof.Machine.execRspStatus s
  | .rspStop => Sys2Proof.Machine.execRspStop s
  | .rspMove => Sys2Proof.Machine.execRspMove s
  | .rspError e => Sys2Proof.Machine.execRspError e s

end Sys2Proof.Machine
end

