-- ==== Sys2Proof/Machine/Fetch.lean ====
section
/-! DEFINITION. What a step takes next: an operation word from the command port, the controller's turn, an emergency-stop event, or the reset
input (00_scope.md R5, R6;
44_command_contract.md R230, R234, R303; 70_reset_and_hazards.md R290), and how a code is placed there. -/

namespace Sys2Proof.Machine

/-- What a step finds to do. -/
inductive Fetched where
  /-- No instruction is taken; the machine goes on as this state. -/
  | noOp (t : State)
  /-- This code is decoded and executed from this state. -/
  | run (c : Code) (t : State)
  /-- The run carries the refusal mark and stops. -/
  | stopped (r : RefReason)
deriving DecidableEq, Repr

/-- The controller's turn. A free controller dispatches once per accepted frame: while `dec_state = Ready` it selects the handler by `dec_cmd`
(R230); otherwise it finds nothing to do. A controller with a program issues its next item, or goes on waiting (R234 (4), R303). -/
def controllerTurn (s : State) : Fetched :=
  match s.ctl with
  | [] => if s.dec.state = .ready then .run (.cmd s.dec.cmd) s else .noOp s
  | .op w :: rest => .run (.opw w) (s.setCtl rest)
  | .rsp c e :: rest => .run (.rsp c e) (s.setCtl rest)
  | .waitComplete :: rest => if s.allComplete then .noOp (s.setCtl rest) else .noOp s

/-- What the next arrival gives a step to do. With no arrival the block waits (R292). A run that carries the refusal mark stops, but for
the reset input (R12, R14, R290). -/
def fetch (s : State) : Fetched :=
  match s.port with
  | [] =>
    match s.refused with
    | some r => .stopped r
    | none => .noOp s
  | .resetInput :: rest => .noOp (s.resetInput rest)
  | .stopEvent :: rest =>
    match s.refused with
    | some r => .stopped r
    | none => .noOp ((s.setPort rest).queueReport Config.params)
  | .word w :: rest =>
    match s.refused with
    | some r => .stopped r
    | none => .run (.opw w) (s.setPort rest)
  | .controller :: rest =>
    match s.refused with
    | some r => .stopped r
    | none => controllerTurn (s.setPort rest)

/-- What a rejected code does: a nonzero field is refused by the block (R98), an unrecognised Cmd is answered by the controller (R237), and a
response code outside R92 has no meaning. -/
def rejected (r : Reject) (s : State) : Host.Outcome State Fault Refusal :=
  match r with
  | .nonzeroField => .next (s.refuse .refNonzeroField)
  | .unknownCommand _ => .next (unknownCommand s)
  | .unknownResponse c => .refused (.unknownResponse c)

/-- The decoder as an accepted frame with Cmd `c` and no Data leaves it (R135): Length 5, its checksum, and `dec_done` still 1. -/
def acceptedFrame (c : Byte) : Decoder :=
  { state := .ready, len := 5#16, xor := frameXor 0#8 5#8 c [], cmd := c, cnt := 4#8, buf := [], frameDone := true }

/-- The state in which the next step takes the given code: an operation word is the next arrival; a command is an accepted frame that a free
controller dispatches in its turn, which is the next arrival; a response is the controller's next program item, its turn the next
arrival. The run carries no refusal (log 15). -/
def placeCode (s : State) (c : Code) : State :=
  match c with
  | .opw w => { s with port := .word w :: s.port, refused := none }
  | .cmd c => { s with port := .controller :: s.port, ctl := [], dec := acceptedFrame c, refused := none }
  | .rsp c e => { s with port := .controller :: s.port, ctl := .rsp c e :: s.ctl, refused := none }

end Sys2Proof.Machine
end

