-- ==== Sys2Proof/Machine/Step.lean ====
section
/-! DEFINITION. One step of the machine: one arrival is taken and applied whole (00_scope.md R5, 20_memory.md R70, R72). -/

namespace Sys2Proof.Machine

/-- Take the next arrival; decode and execute what it gives, if anything. -/
def step (s : State) : Host.Outcome State Fault Refusal :=
  match fetch s with
  | .noOp t => .next t
  | .stopped r => .refused (.runRefused r)
  | .run c t =>
    match decode c with
    | .ok i => exec i t
    | .error r => rejected r t

/-- `s` with a row's instruction placed where step takes its next instruction. -/
def State.withFetchWord (s : State) (nbits w : Nat) : State :=
  match codeOfTable nbits w with
  | some c => placeCode s c
  | none => s

end Sys2Proof.Machine
end

