-- ==== Sys2Proof/Safety.lean ====
section
/-! DEFINITION. What claims are stated in: the invariants of the reachable states (10_state.md R45, 40_packet_decoder.md R133 and what they need to be
kept by every step), runs of several operations, and what a safe run is (00_scope.md R14). -/

namespace Sys2Proof.Machine

/-! ## The stores -/

/-- Both byte stores are in their canonical form. -/
abbrev State.memWf (s : State) : Prop := Mem.wf s.dec.buf = true ∧ Mem.wf s.enc.txb = true

/-- The written indexes are exactly those below `n` (R133). -/
abbrev Mem.writtenBelow (m : Mem) (n : Nat) : Prop := m.map Prod.fst = List.range n

/-- The bytes of a store, in index order. -/
def Mem.bytes (m : Mem) : List Byte := m.map Prod.snd

/-! ## The decoder's invariants (R133) -/

/-- `dec_xor` is the checksum of the frame so far: LenH, LenL, Cmd and the Data received (R82, R133). -/
abbrev Decoder.sumOk (d : Decoder) : Prop := d.xor = frameXor (lenHigh d.len) (lenLow d.len) d.cmd (Mem.bytes d.buf)

/-- What each decoder state says of the other fields (R26, R133). -/
abbrev Decoder.fieldsOk (d : Decoder) : Prop :=
  (d.state = .waitStx → d.len = 0#16 ∧ d.xor = 0#8 ∧ d.cmd = 0#8 ∧ d.cnt = 0#8 ∧ d.buf = []) ∧
  (d.state = .waitLenHigh → d.len = 0#16 ∧ d.xor = 0#8 ∧ d.cmd = 0#8 ∧ d.cnt = 1#8 ∧ d.buf = []) ∧
  (d.state = .waitLenLow → lenLow d.len = 0#8 ∧ d.xor = lenHigh d.len ∧ d.cmd = 0#8 ∧ d.cnt = 2#8 ∧ d.buf = []) ∧
  (d.state = .waitCmd → lenMin ≤ d.len.toNat ∧ d.len.toNat ≤ lenMax ∧ d.xor = lenHigh d.len ^^^ lenLow d.len ∧ d.cmd = 0#8 ∧
    d.cnt = 3#8 ∧ d.buf = []) ∧
  (d.state = .waitData → d.len.toNat ≤ lenMax ∧ 4 ≤ d.cnt.toNat ∧ d.cnt.toNat + 1 < d.len.toNat ∧
    Mem.writtenBelow d.buf (d.cnt.toNat - 4) ∧ d.sumOk) ∧
  (d.state = .waitXor ∨ d.state = .ready → lenMin ≤ d.len.toNat ∧ d.len.toNat ≤ lenMax ∧ d.cnt.toNat + 1 = d.len.toNat ∧
    Mem.writtenBelow d.buf (d.cnt.toNat - 4) ∧ d.sumOk)

/-- The decoder's invariant: its fields fit its state, and `dec_done` is 1 only in Ready (R28, R133). -/
abbrev Decoder.Inv (d : Decoder) : Prop := d.fieldsOk ∧ (d.frameDone = true → d.state = .ready)

/-! ## The encoder's invariants (R29, R30) -/

/-- `txb_len` is in 0..251, `txb` is canonical, and every byte below `txb_len` has been written. -/
abbrev Encoder.Inv (e : Encoder) : Prop :=
  e.txbLen.toNat ≤ payloadMax ∧ Mem.wf e.txb = true ∧ ∀ i, i < e.txbLen.toNat → (Mem.read e.txb i).isSome = true

/-! ## The engine's invariants (R45 and what keeps it) -/

/-- R45: bits 10 to 15 are 0, completed and pending motors are active, and none is both. -/
abbrev Engine.masksOk (e : Engine) : Prop :=
  (e.active ||| e.completed ||| e.pending) &&& 0xFC00#16 = 0#16 ∧ e.completed &&& ~~~e.active = 0#16 ∧
  e.pending &&& ~~~e.active = 0#16 ∧ e.completed &&& e.pending = 0#16

/-- The union of the motor bits of the first `k` latched records. -/
def Engine.latchedMask (e : Engine) (k : Nat) : Mask := recordMask (e.settings.toList.take k)

/-- The latch holds `motorCount ≤ 10` valid records and `active` is the union of their bits (R33, R36, R37, R41, R182). -/
abbrev Engine.latchOk (e : Engine) : Prop :=
  e.motorCount.toNat ≤ maxMotors ∧ e.sendIdx.toNat ≤ e.motorCount.toNat ∧
  (∀ i : Fin 10, i.val < e.motorCount.toNat → msdValid e.settings[i] = true) ∧
  e.active = e.latchedMask e.motorCount.toNat

/-- The counters stay below their thresholds (R38, R39). -/
abbrev Engine.countersOk (p : Params) (e : Engine) : Prop :=
  e.tickCounter.toNat ≤ p.safetyTimeoutTicks + 1 ∧ (∀ i : Fin 10, e.deb[i].toNat ≤ p.debounceTicks) ∧
  (∀ i : Fin 10, e.pending &&& motorBit (i.val + 1) ≠ 0#16 → e.deb[i].toNat < p.debounceTicks)

/-- What each engine state says of the masks, the send index, the counters and `running` (R182, R191, R196, R201). -/
abbrev Engine.phaseOk (p : Params) (e : Engine) : Prop :=
  (e.state = .idle ∨ e.state = .complete → e.running = false ∧ e.completed = e.active ∧ e.pending = 0#16) ∧
  (e.state = .checkingRx → e.running = true ∧ e.completed = 0#16 ∧ e.pending = 0#16 ∧ e.sendIdx = 0#4 ∧
    e.tickCounter = 0#32 ∧ e.deb = Vector.replicate 10 0#16) ∧
  (e.state = .sending → e.running = true ∧ e.completed = 0#16 ∧ e.pending = e.latchedMask e.sendIdx.toNat ∧
    (e.sendIdx.toNat < e.motorCount.toNat ∨ e.motorCount = 0#4) ∧ e.tickCounter = 0#32 ∧ e.deb = Vector.replicate 10 0#16) ∧
  (e.state = .waitingStatus → e.running = true ∧ e.sendIdx = e.motorCount ∧ e.completed ||| e.pending = e.active ∧
    e.tickCounter.toNat ≤ p.safetyTimeoutTicks)

/-- The engine's invariant; between operations every key line is deasserted (R202 (a)). -/
abbrev Engine.Inv (p : Params) (e : Engine) : Prop :=
  e.masksOk ∧ e.latchOk ∧ e.countersOk p ∧ e.phaseOk p ∧ e.key = Vector.replicate 10 false

/-! ## The machine's invariant -/

/-- The invariant of the whole machine. -/
abbrev State.Inv (s : State) : Prop := s.dec.Inv ∧ s.enc.Inv ∧ s.seq.Inv Config.params

/-! ## Runs -/

/-- Several operations in order, each applied whole; the run ends early where one stops. -/
def execAll : List Instr → State → Host.Outcome State Fault Refusal
  | [], s => .next s
  | i :: is, s =>
    match exec i s with
    | .next t => execAll is t
    | .fault f => .fault f
    | .refused r => .refused r

/-- `k` steps of the machine; the run ends early where one stops. -/
def stepN : Nat → State → Host.Outcome State Fault Refusal
  | 0, s => .next s
  | k + 1, s =>
    match step s with
    | .next t => stepN k t
    | .fault f => .fault f
    | .refused r => .refused r

/-- `k` arrivals of an endless sequence, taken one a step in place of the state's own; the run ends early where one stops. -/
def runArrivals (σ : Nat → Arrival) : Nat → State → Host.Outcome State Fault Refusal
  | 0, s => .next s
  | k + 1, s =>
    match runArrivals σ k s with
    | .next t => step (t.setPort [σ k])
    | .fault f => .fault f
    | .refused r => .refused r

/-- The tick source's duty: ticks keep coming, whatever else arrives between them (R298). -/
abbrev TickFair (σ : Nat → Arrival) : Prop := ∀ n, ∃ m, n ≤ m ∧ σ m = .word 0x7000#16

/-- The ticks among the first `k` arrivals. -/
def ticksIn (σ : Nat → Arrival) (k : Nat) : Nat := (List.range k).countP (fun j => decide (σ j = .word 0x7000#16))

/-- The frame of a response that an open parameter may hold, as the host receives it (R80 to R82). -/
def responseFrame : Option Response → List Byte
  | none => []
  | some r => frameBytes (BitVec.ofNat 16 (5 + r.data.length)) r.code r.data

/-- The bytes of a span fed to the decoder, one RX_BYTE each (`FEED`, R103). -/
def feedOps (bs : List Byte) : List Instr := bs.map Instr.rxByte

/-- A SEQ_START the block accepts: the count and every record pass their checks (R180, R181). -/
abbrev startAccepted (buf : Mem) (n : BitVec 4) : Prop :=
  n.toNat ≤ maxMotors ∧ ∀ k, k < n.toNat → ∃ r, msdDecode buf k = some r ∧ msdValid r = true

/-- `k` ticks of an engine, tick `j` seeing the status levels `busy j`, when no tick has a motor to send; a tick that faults leaves the engine as
it is. -/
def Engine.ticksFrom (p : Params) (busy : Nat → Lines) : Nat → Engine → Engine
  | 0, e => e
  | k + 1, e =>
    match (Engine.ticksFrom p busy k e).tick p (busy k) [] with
    | .ok (t, _) => t
    | .error _ => Engine.ticksFrom p busy k e

/-- A safe state: the run that reached it carries no refusal (R14). -/
abbrev State.unrefused (s : State) : Prop := s.refused = none

end Sys2Proof.Machine
end

