-- ==== Sys2Proof/Certificates/Slice0/Obligations.lean ====
section
/-! DEFINITION. The statements for the provers. Each docstring names the rules of spec/ it formalises. -/

open Sys2Proof Sys2Proof.Machine

/-! ## Decoding and encoding -/

/-- R97, R100: the decoder gives back every well-formed instruction from its code. -/
def Obligations.DecodeEncodeAgree : Prop :=
  ∀ i : Instr, i.wellFormed = true → decode (encode i) = .ok i

/-- R98, R100: a code that decodes has one instruction, and that instruction's code is the code itself. -/
def Obligations.EncodeDecodeAgree : Prop :=
  ∀ (c : Code) (i : Instr), decode c = .ok i → i.wellFormed = true ∧ encode i = c

/-- R91, R92, R102: words of the spec and what they decode to. -/
def Obligations.SpecWordsDecode : Prop :=
  decode (.opw 0x0000#16) = .ok .nop ∧ decode (.opw 0x1002#16) = .ok (.rxByte 0x02#8) ∧
  decode (.opw 0x2000#16) = .ok .decClear ∧ decode (.opw 0x3083#16) = .ok (.encFrame 0x83#8) ∧
  decode (.opw 0x4000#16) = .ok (.txbPush 0x00#8) ∧ decode (.opw 0x5000#16) = .ok .txbClear ∧
  decode (.opw 0x6200#16) = .ok (.seqStart 2#4) ∧ decode (.opw 0x7000#16) = .ok .seqTick ∧
  decode (.opw 0x8000#16) = .ok .seqStop ∧ decode (.opw 0x9000#16) = .ok (.reserved9 0x9000#16) ∧
  decode (.cmd 0x10#8) = .ok .cmdSyncMove ∧ decode (.rsp 0xFF#8 0x05#8) = .ok (.rspError 0x05#8)

/-- R100: every operation word decodes to one operation or to one refusal. The reserved opcodes come first, then the `aux` field, then the `byte`
field; a refused word is consumed and changes nothing but the mark, and every other word runs its operation. -/
def Obligations.OperationWordsDecode : Prop :=
  ∀ (w : OpWord) (s : State) (rest : List Arrival) (opc : Nat) (aux : BitVec 4) (b : Byte),
    s.refused = none → s.port = .word w :: rest → opc = (w.extractLsb' 12 4).toNat → aux = w.extractLsb' 8 4 → b = w.extractLsb' 0 8 →
    step s =
      if 9 ≤ opc then .next { s with port := rest, refused := some .refReservedOp }
      else if aux ≠ 0#4 ∧ opc ≠ 6 then .next { s with port := rest, refused := some .refNonzeroField }
      else if b ≠ 0#8 ∧ opc ≠ 1 ∧ opc ≠ 3 ∧ opc ≠ 4 then .next { s with port := rest, refused := some .refNonzeroField }
      else exec (
        if opc = 0 then .nop else if opc = 1 then .rxByte b else if opc = 2 then .decClear else if opc = 3 then .encFrame b
        else if opc = 4 then .txbPush b else if opc = 5 then .txbClear else if opc = 6 then .seqStart aux
        else if opc = 7 then .seqTick else .seqStop) { s with port := rest }

/-- R14, R99: the three RESERVED rows change nothing but the refusal mark. -/
def Obligations.ReservedRowsOnlyMark : Prop :=
  ∀ (w : OpWord) (s : State),
    exec (.reserved9 w) s = .next { s with refused := some .refReservedOp } ∧
    exec (.reservedAB w) s = .next { s with refused := some .refReservedOp } ∧
    exec (.reservedCF w) s = .next { s with refused := some .refReservedOp }

/-! ## The step -/

/-- R5, R230: a step runs the decoded instruction: the word on the command port, the controller's next operation or response, or the handler
that a ready frame's Cmd selects while the controller is free. The item taken is gone from the state the instruction runs on. -/
def Obligations.StepRunsDecodedInstruction : Prop :=
  ∀ (s : State) (i : Instr) (rest : List Arrival), s.refused = none →
    (∀ w, s.port = .word w :: rest → decode (.opw w) = .ok i → step s = exec i { s with port := rest }) ∧
    (∀ w q, s.port = .controller :: rest → s.ctl = .op w :: q → decode (.opw w) = .ok i →
      step s = exec i { s with port := rest, ctl := q }) ∧
    (∀ c e q, s.port = .controller :: rest → s.ctl = .rsp c e :: q → decode (.rsp c e) = .ok i →
      step s = exec i { s with port := rest, ctl := q }) ∧
    (s.port = .controller :: rest → s.ctl = [] → s.dec.state = .ready → decode (.cmd s.dec.cmd) = .ok i →
      step s = exec i { s with port := rest })

/-- R12, R14, R230, R234, R290, R50, R292: the steps that run no instruction. With nothing arriving the block waits; a free controller with no ready
frame does nothing; a waiting controller goes on exactly when `all_complete` is 1; an emergency-stop event queues the build's report, if that is its
trigger (log 5); a run that carries the refusal mark stops (log 1), except at the reset input. The reset input leaves open what R50 leaves
unspecified (`txb`, `settings`: logs 11 and 12); that it frees the controller, keeps what arrives later and keeps the draws fresh is the model's
choice (log 21). -/
def Obligations.StepsWithoutInstruction : Prop :=
  ∀ (s : State) (rest : List Arrival),
    (s.refused = none → s.port = [] → step s = .next s) ∧
    (s.refused = none → s.port = .controller :: rest → s.ctl = [] → s.dec.state ≠ .ready → step s = .next { s with port := rest }) ∧
    (∀ q, s.refused = none → s.port = .controller :: rest → s.ctl = .waitComplete :: q →
      step s = .next (if s.seq.active ≠ 0#16 ∧ s.seq.active &&& s.seq.completed = s.seq.active
        then { s with port := rest, ctl := q } else { s with port := rest })) ∧
    (s.refused = none → s.port = .stopEvent :: rest →
      step s = .next { s with port := rest, ctl := s.ctl ++ optionProgram (Config.params.reportAt .stopEvent) }) ∧
    (∀ r, s.refused = some r → (∀ tl, s.port ≠ .resetInput :: tl) → step s = .refused (.runRefused r)) ∧
    (s.port = .resetInput :: rest → ∃ t, step s = .next t ∧
      t = { State.reset with port := rest, draws := s.draws, enc := { State.reset.enc with txb := t.enc.txb },
                             seq := { State.reset.seq with settings := t.seq.settings } })

/-- R290: the reset input sets every field of the block to its reset value, whatever the state, the refusal mark and the history among them. (The
bytes of `txb` and the latched `settings`, to which the spec gives no reset value, are left open here.) -/
def Obligations.ResetInputResets : Prop :=
  ∀ (s : State) (rest : List Arrival), s.port = .resetInput :: rest →
    ∃ t, step s = .next t ∧
      t.dec = { state := .waitStx, len := 0#16, xor := 0#8, cmd := 0#8, cnt := 0#8, buf := [], frameDone := false } ∧ t.enc.txbLen = 0#8 ∧
      t.seq = { state := .idle, running := false, active := 0#16, completed := 0#16, pending := 0#16, motorCount := 0#4, sendIdx := 0#4,
                tickCounter := 0#32, deb := Vector.replicate 10 0#16, settings := t.seq.settings, key := Vector.replicate 10 false } ∧
      t.decReady = false ∧ t.refused = none ∧ t.hist = []

/-- R50: what reset leaves, for each row of the table that gives a value; no byte of `dec_buf` is readable. -/
def Obligations.ResetValues : Prop :=
  State.reset.dec.state = .waitStx ∧ State.reset.dec.len = 0#16 ∧ State.reset.dec.xor = 0#8 ∧ State.reset.dec.cmd = 0#8 ∧
  State.reset.dec.cnt = 0#8 ∧ (∀ i, Mem.read State.reset.dec.buf i = none) ∧ State.reset.dec.frameDone = false ∧
  State.reset.decReady = false ∧ State.reset.enc.txbLen = 0#8 ∧ State.reset.seq.state = .idle ∧ State.reset.seq.running = false ∧
  State.reset.seq.active = 0#16 ∧ State.reset.seq.completed = 0#16 ∧ State.reset.seq.pending = 0#16 ∧
  State.reset.seq.motorCount = 0#4 ∧ State.reset.seq.sendIdx = 0#4 ∧ State.reset.seq.tickCounter = 0#32 ∧
  (∀ i : Fin 10, State.reset.seq.deb[i] = 0#16) ∧ (∀ i : Fin 10, State.reset.seq.key[i] = false) ∧
  State.reset.refused = none ∧ State.reset.hist = []

/-! ## Invariants -/

/-- The reset state meets the machine's invariant and its stores are in canonical form. -/
def Obligations.ResetMeetsInvariant : Prop := State.reset.Inv ∧ State.reset.memWf

/-- R45, R133, R38, R39, R30: every step, from every state that meets the invariant, gives a state that meets it. -/
def Obligations.StepKeepsInvariant : Prop :=
  ∀ s t : State, s.Inv → step s = .next t → t.Inv

/-- R60: every step keeps both byte stores in their canonical form. -/
def Obligations.StepKeepsMemoryForm : Prop :=
  ∀ s t : State, s.memWf → step s = .next t → t.memWf

/-- R45: the mask invariants hold after every step from a state that meets the invariant. -/
def Obligations.MaskInvariants : Prop :=
  ∀ s t : State, s.Inv → step s = .next t →
    (t.seq.active ||| t.seq.completed ||| t.seq.pending) &&& 0xFC00#16 = 0#16 ∧ t.seq.completed &&& ~~~t.seq.active = 0#16 ∧
    t.seq.pending &&& ~~~t.seq.active = 0#16 ∧ t.seq.completed &&& t.seq.pending = 0#16

/-- R133: the decoder invariants hold after every step from a state that meets the invariant. -/
def Obligations.DecoderInvariants : Prop :=
  ∀ s t : State, s.Inv → step s = .next t →
    (t.dec.state = .waitStx → t.dec.len = 0#16 ∧ t.dec.xor = 0#8 ∧ t.dec.cmd = 0#8 ∧ t.dec.cnt = 0#8 ∧
      ∀ i, Mem.read t.dec.buf i = none) ∧
    (t.dec.state = .waitData ∨ t.dec.state = .waitXor → 5 ≤ t.dec.len.toNat ∧ t.dec.len.toNat ≤ 256 ∧
      ∀ i, (Mem.read t.dec.buf i).isSome = true ↔ i < t.dec.cnt.toNat - 4) ∧
    (t.dec.state = .waitData → ∃ data : List Byte, data.length = t.dec.cnt.toNat - 4 ∧ (∀ i, Mem.read t.dec.buf i = data[i]?) ∧
      t.dec.xor = data.foldl (fun a b => a ^^^ b) (t.dec.len.extractLsb' 8 8 ^^^ t.dec.len.extractLsb' 0 8 ^^^ t.dec.cmd))

/-! ## RX_BYTE and DEC_CLEAR -/

/-- R122: RX_BYTE in WaitStx. -/
def Obligations.RxWaitStx : Prop :=
  ∀ (b : Byte) (s : State), s.dec.state = .waitStx →
    exec (.rxByte b) s = .next { s with dec :=
      if b = 0x02#8 then { s.dec with cnt := 1#8, state := .waitLenHigh, frameDone := false } else { s.dec with frameDone := false } } ∧
    (s.dec.Inv → s.dec.len = 0#16 ∧ s.dec.xor = 0#8 ∧ s.dec.cmd = 0#8 ∧ ∀ i, Mem.read s.dec.buf i = none)

/-- R123: RX_BYTE in WaitLenHigh. -/
def Obligations.RxWaitLenHigh : Prop :=
  ∀ (b : Byte) (s : State), s.dec.state = .waitLenHigh →
    exec (.rxByte b) s = .next { s with dec :=
      { s.dec with len := b.setWidth 16 <<< 8, xor := b, cnt := 2#8, state := .waitLenLow, frameDone := false } }

/-- R124, R129: RX_BYTE in WaitLenLow; a Length outside 5..256 is the hard reset. -/
def Obligations.RxWaitLenLow : Prop :=
  ∀ (b : Byte) (s : State), s.dec.state = .waitLenLow →
    ((s.dec.len ||| b.setWidth 16).toNat < 5 ∨ 256 < (s.dec.len ||| b.setWidth 16).toNat →
      exec (.rxByte b) s = .next { s with dec :=
        { state := .waitStx, len := 0#16, xor := 0#8, cmd := 0#8, cnt := 0#8, buf := [], frameDone := false } }) ∧
    (5 ≤ (s.dec.len ||| b.setWidth 16).toNat → (s.dec.len ||| b.setWidth 16).toNat ≤ 256 →
      exec (.rxByte b) s = .next { s with dec :=
        { s.dec with len := s.dec.len ||| b.setWidth 16, xor := s.dec.xor ^^^ b, cnt := 3#8, state := .waitCmd, frameDone := false } })

/-- R125: RX_BYTE in WaitCmd. -/
def Obligations.RxWaitCmd : Prop :=
  ∀ (b : Byte) (s : State), s.dec.state = .waitCmd →
    exec (.rxByte b) s = .next { s with dec :=
      { s.dec with cmd := b, xor := s.dec.xor ^^^ b, cnt := 4#8, frameDone := false,
                   state := if s.dec.len = 5#16 then .waitXor else .waitData } }

/-- R126: RX_BYTE in WaitData: Data byte number `k` goes to index `k - 1`, `dec_cnt` becomes `4 + k`, and no other byte changes. -/
def Obligations.RxWaitData : Prop :=
  ∀ (b : Byte) (s : State), s.dec.Inv → s.dec.state = .waitData →
    6 ≤ s.dec.len.toNat ∧ s.dec.cnt.toNat - 4 ≤ s.dec.len.toNat - 6 ∧ s.dec.len.toNat - 6 ≤ 250 ∧
    ∃ d : Decoder, exec (.rxByte b) s = .next { s with dec := d } ∧
      d = { s.dec with buf := d.buf, xor := s.dec.xor ^^^ b, cnt := s.dec.cnt + 1#8, frameDone := false,
                       state := if s.dec.cnt.toNat + 1 = s.dec.len.toNat - 1 then .waitXor else .waitData } ∧
      (∀ k, s.dec.cnt.toNat = 3 + k → d.cnt.toNat = 4 + k ∧ Mem.read d.buf (k - 1) = some b ∧
        ∀ a, a ≠ k - 1 → Mem.read d.buf a = Mem.read s.dec.buf a)

/-- R127: RX_BYTE in WaitXor; a match leaves `dec_cnt` at `dec_len - 1`, a mismatch is the hard reset. -/
def Obligations.RxWaitXor : Prop :=
  ∀ (b : Byte) (s : State), s.dec.state = .waitXor →
    (b = s.dec.xor → exec (.rxByte b) s = .next { s with dec := { s.dec with state := .ready, frameDone := true } }) ∧
    (b ≠ s.dec.xor → exec (.rxByte b) s = .next { s with dec :=
      { state := .waitStx, len := 0#16, xor := 0#8, cmd := 0#8, cnt := 0#8, buf := [], frameDone := false } }) ∧
    (s.dec.Inv → s.dec.cnt.toNat = s.dec.len.toNat - 1)

/-- R128: RX_BYTE in Ready discards the byte; `dec_done` is 0 and `dec_ready` stays 1. -/
def Obligations.RxReadyDiscards : Prop :=
  ∀ (b : Byte) (s : State), s.dec.state = .ready →
    ∃ t, exec (.rxByte b) s = .next t ∧ t = { s with dec := { s.dec with frameDone := false } } ∧ t.decReady = true

/-- R121: RX_BYTE always completes, writes nothing but the decoder, and ends with `dec_done` 1 exactly on the WaitXor match. -/
def Obligations.RxByteCompletes : Prop :=
  ∀ (b : Byte) (s : State), s.dec.Inv →
    ∃ d : Decoder, exec (.rxByte b) s = .next { s with dec := d } ∧ (d.frameDone = true ↔ s.dec.state = .waitXor ∧ b = s.dec.xor)

/-- R138, first half: a legal frame fed from WaitStx is accepted on its last byte, and on no earlier one, with its Cmd and Data as sent. -/
def Obligations.LegalFrameAccepted : Prop :=
  ∀ (c : Byte) (data : List Byte) (s : State), data.length ≤ 251 → s.dec.Inv → s.dec.state = .waitStx →
    (∃ t, execAll (feedOps (frameBytes (BitVec.ofNat 16 (5 + data.length)) c data)) s = .next t ∧ t = { s with dec := t.dec } ∧
      t.dec.state = .ready ∧ t.dec.frameDone = true ∧ t.dec.cmd = c ∧ t.decPlen.toNat = data.length ∧
      ∀ i, Mem.read t.dec.buf i = data[i]?) ∧
    (∀ k, k < data.length + 5 →
      ∃ u, execAll (feedOps ((frameBytes (BitVec.ofNat 16 (5 + data.length)) c data).take k)) s = .next u ∧
        u.dec.frameDone = false ∧ u.dec.state ≠ .ready)

/-- R138, second half: bytes fed from WaitStx that end with `dec_done` 1, the decoder having left WaitStx on the first byte and been neither in
WaitStx nor in Ready since, are a legal frame. -/
def Obligations.OnlyLegalFramesAccepted : Prop :=
  ∀ (bs : List Byte) (s t : State), s.dec.Inv → s.dec.state = .waitStx →
    (∀ k u, 0 < k → k < bs.length → execAll (feedOps (bs.take k)) s = .next u → u.dec.state ≠ .waitStx ∧ u.dec.state ≠ .ready) →
    execAll (feedOps bs) s = .next t → t.dec.frameDone = true →
    ∃ (c : Byte) (data : List Byte), data.length ≤ 251 ∧ bs = frameBytes (BitVec.ofNat 16 (5 + data.length)) c data

/-- R136: a legal frame with one bit of its Cmd, of a Data byte or of its Xor byte flipped ends in WaitStx and is never reported. -/
def Obligations.BitErrorRejected : Prop :=
  ∀ (c : Byte) (data : List Byte) (s : State) (j k : Nat) (x : Byte), data.length ≤ 251 → s.dec.Inv → s.dec.state = .waitStx →
    3 ≤ j → (frameBytes (BitVec.ofNat 16 (5 + data.length)) c data)[j]? = some x → k < 8 →
    (∃ t, execAll (feedOps ((frameBytes (BitVec.ofNat 16 (5 + data.length)) c data).set j (x ^^^ (1#8 <<< k)))) s = .next t ∧
      t.dec.state = .waitStx) ∧
    (∀ n u, execAll (feedOps (((frameBytes (BitVec.ofNat 16 (5 + data.length)) c data).set j (x ^^^ (1#8 <<< k))).take n)) s = .next u →
      u.dec.frameDone = false)

/-- R134: DEC_CLEAR resets the decoder in every state and writes nothing else; after it no byte of `dec_buf` is readable; in WaitStx it changes
nothing, and out of Ready it is the only way. -/
def Obligations.DecClearResets : Prop :=
  decode (.opw 0x2000#16) = .ok .decClear ∧
  (∀ s : State, ∃ t, exec .decClear s = .next t ∧
    t = { s with dec := { state := .waitStx, len := 0#16, xor := 0#8, cmd := 0#8, cnt := 0#8, buf := [], frameDone := false } } ∧
    t.decReady = false ∧ (∀ i, Mem.read t.dec.buf i = none) ∧ (s.dec.Inv → s.dec.state = .waitStx → t = s)) ∧
  (∀ (i : Instr) (s t : State), s.dec.state = .ready → i ≠ .decClear → exec i s = .next t → t.dec.state = .ready)

/-- R135: while a frame is ready, no instruction but DEC_CLEAR changes the decoder (`dec_done` apart): the frame's Cmd, length and Data stay, and
every Data byte is readable. -/
def Obligations.ReadyFrameHeld : Prop :=
  ∀ (i : Instr) (s t : State), s.dec.state = .ready → i ≠ .decClear → exec i s = .next t →
    t.dec = { s.dec with frameDone := t.dec.frameDone } ∧ t.decReady = true ∧
    (s.dec.Inv → t.decPlen.toNat = s.dec.len.toNat - 5 ∧ ∀ k, k < t.decPlen.toNat → (Mem.read t.dec.buf k).isSome = true)

/-- R28, R44, R121: after an operation that is not refused, `dec_done` is 1 exactly when it was the RX_BYTE that matched the checksum. (That a refused
operation leaves it, and that the other operations clear it although their own rules list no such flag, is the model's reading: logs 2 and 3.) -/
def Obligations.DoneFollowsLastOperation : Prop :=
  ∀ (i : Instr) (w : OpWord) (s t : State), encode i = .opw w → s.refused = none → exec i s = .next t → t.refused = none →
    (t.dec.frameDone = true ↔ ∃ b, i = .rxByte b ∧ s.dec.state = .waitXor ∧ b = s.dec.xor)

/-! ## The encoder -/

/-- R154: NOP writes `dec_done <- 0` and nothing else. -/
def Obligations.NopClearsDone : Prop :=
  decode (.opw 0x0000#16) = .ok .nop ∧
  ∀ s : State, exec .nop s = .next { s with dec := { s.dec with frameDone := false } }

/-- R151: TXB_CLEAR empties the transmit buffer and leaves its bytes as they are; it writes nothing else (`dec_done` apart). -/
def Obligations.TxbClearEmpties : Prop :=
  decode (.opw 0x5000#16) = .ok .txbClear ∧
  ∀ s : State, ∃ d : Bool, exec .txbClear s =
    .next { s with dec := { s.dec with frameDone := d }, enc := { s.enc with txbLen := 0#8 } }

/-- R152: TXB_PUSH appends one byte, or is refused with REF_TXB_FULL when 251 bytes are queued; it writes nothing else (`dec_done` apart). -/
def Obligations.TxbPushAppends : Prop :=
  ∀ (b : Byte) (s : State),
    decode (.opw (0x4000#16 ||| b.setWidth 16)) = .ok (.txbPush b) ∧
    (s.enc.txbLen.toNat = 251 → exec (.txbPush b) s = .next { s with refused := some .refTxbFull }) ∧
    (s.enc.txbLen.toNat < 251 → ∃ t, exec (.txbPush b) s = .next t ∧
      t = { s with dec := { s.dec with frameDone := t.dec.frameDone }, enc := t.enc } ∧
      t.enc.txbLen.toNat = s.enc.txbLen.toNat + 1 ∧ Mem.read t.enc.txb s.enc.txbLen.toNat = some b ∧
      ∀ a, a ≠ s.enc.txbLen.toNat → Mem.read t.enc.txb a = Mem.read s.enc.txb a)

/-- R153: ENC_FRAME emits STX, the Length, `c`, the queued bytes and their checksum on the host stream, in that order, and writes nothing else
(`dec_done` apart). -/
def Obligations.EncFrameEmits : Prop :=
  ∀ (c : Byte) (s : State), decode (.opw (0x3000#16 ||| c.setWidth 16)) = .ok (.encFrame c) ∧
    (s.enc.Inv → ∃ (lenH lenL : Byte) (data : List Byte) (d : Bool), lenH.toNat * 256 + lenL.toNat = 5 + s.enc.txbLen.toNat ∧
      data.length = s.enc.txbLen.toNat ∧ (∀ i, i < s.enc.txbLen.toNat → Mem.read s.enc.txb i = data[i]?) ∧
      exec (.encFrame c) s = .next { s with dec := { s.dec with frameDone := d }, hist := s.hist ++
        (([0x02#8, lenH, lenL, c] ++ data ++ [data.foldl (fun a b => a ^^^ b) (lenH ^^^ lenL ^^^ c)]).map Event.host) })

/-- R155: the bytes ENC_FRAME emits, fed to the decoder in WaitStx, are accepted with the code and the payload they were made from. -/
def Obligations.EncodedFrameDecodes : Prop :=
  ∀ (c : Byte) (s : State), s.enc.Inv → s.dec.Inv → s.dec.state = .waitStx →
    ∃ (bs : List Byte) (t u : State), exec (.encFrame c) s = .next t ∧ t.hist = s.hist ++ bs.map Event.host ∧
      execAll (feedOps bs) t = .next u ∧ u.dec.state = .ready ∧ u.dec.frameDone = true ∧ u.dec.cmd = c ∧ u.decPlen = s.enc.txbLen ∧
      ∀ i, i < s.enc.txbLen.toNat → Mem.read u.dec.buf i = Mem.read s.enc.txb i

/-! ## Motor settings -/

/-- R165, R65, R86: record `k` lies at `dec_buf[16k .. 16k+15]`; each of its fields is four bytes with the lowest offset least significant, `steps` is
read as two's complement, and a record with an unwritten byte has no value. -/
def Obligations.RecordDecoding : Prop :=
  ∀ (buf : Mem) (k : Nat),
    (∀ b : Nat → Byte, (∀ i, i < 16 → Mem.read buf (16 * k + i) = some (b i)) →
      ∃ r, msdDecode buf k = some r ∧
        r.number.toNat = (b 0).toNat + 256 * (b 1).toNat + 65536 * (b 2).toNat + 16777216 * (b 3).toNat ∧
        r.acceleration.toNat = (b 4).toNat + 256 * (b 5).toNat + 65536 * (b 6).toNat + 16777216 * (b 7).toNat ∧
        r.maxSpeed.toNat = (b 8).toNat + 256 * (b 9).toNat + 65536 * (b 10).toNat + 16777216 * (b 11).toNat ∧
        r.steps.toNat = (b 12).toNat + 256 * (b 13).toNat + 65536 * (b 14).toNat + 16777216 * (b 15).toNat ∧
        r.stepsInt = (if r.steps.toNat < 2147483648 then (r.steps.toNat : Int) else (r.steps.toNat : Int) - 4294967296)) ∧
    (∀ i, i < 16 → Mem.read buf (16 * k + i) = none → msdDecode buf k = none)

/-- R167: the validity predicate. -/
def Obligations.RecordValidity : Prop :=
  ∀ r : MotorSetting, msdValid r = true ↔
    (1 ≤ r.number.toNat ∧ r.number.toNat ≤ 10) ∧ r.acceleration ≠ 0#32 ∧ r.maxSpeed ≠ 0#32

/-! ## SEQ_START -/

/-- R180: SEQ_START's word, and the count check. -/
def Obligations.StartCountRefused : Prop :=
  ∀ (n : BitVec 4) (s : State), decode (.opw (0x6000#16 ||| n.setWidth 16 <<< 8)) = .ok (.seqStart n) ∧
    (10 < n.toNat → exec (.seqStart n) s = .next { s with refused := some .refStartCount })

/-- R181: the records are checked in index order, and the first failing check decides the refusal; nothing but the mark changes. -/
def Obligations.StartFirstFailureRefused : Prop :=
  ∀ (n : BitVec 4) (s : State) (k : Nat), n.toNat ≤ 10 → k < n.toNat →
    (∀ j, j < k → ∃ r, msdDecode s.dec.buf j = some r ∧ msdValid r = true) →
    (msdDecode s.dec.buf k = none → exec (.seqStart n) s = .next { s with refused := some .refStartUnwritten }) ∧
    (∀ r, msdDecode s.dec.buf k = some r → msdValid r = false →
      exec (.seqStart n) s = .next { s with refused := some .refStartInvalid })

/-- R182, R185: an accepted SEQ_START, in every engine state: every field of the engine it writes, the drain it ends with, and its frame (`dec_done`
apart). -/
def Obligations.StartInitialises : Prop :=
  ∀ (n : BitVec 4) (s : State) (r : Nat → MotorSetting), n.toNat ≤ 10 →
    (∀ k, k < n.toNat → msdDecode s.dec.buf k = some (r k) ∧ msdValid (r k) = true) →
    ∃ t, exec (.seqStart n) s = .next t ∧
      t = { s with dec := { s.dec with frameDone := t.dec.frameDone }, seq := t.seq, draws := s.draws + 1,
                   hist := s.hist ++ ((Config.mbRxBytes s.draws).take Config.params.rxDrainMax).map Event.mbrxDrop } ∧
      t.seq.state = .checkingRx ∧ t.seq.running = true ∧ t.seq.completed = 0#16 ∧ t.seq.pending = 0#16 ∧ t.seq.sendIdx = 0#4 ∧
      t.seq.tickCounter = 0#32 ∧ (∀ i : Fin 10, t.seq.deb[i] = 0#16) ∧ t.seq.motorCount = n ∧
      (∀ i : Fin 10, t.seq.settings[i] = if i.val < n.toNat then r i.val else s.seq.settings[i]) ∧
      (∀ j, j < 16 → (t.seq.active.getLsbD j = true ↔ ∃ k, k < n.toNat ∧ (r k).number.toNat = j + 1)) ∧
      t.seq.key = s.seq.key ∧ t.allComplete = false

/-- R301: a SEQ_START of at least one record after the DEC_CLEAR that ends the frame is refused with REF_START_UNWRITTEN. -/
def Obligations.StartAfterClearRefused : Prop :=
  ∀ (n : BitVec 4) (s : State), 1 ≤ n.toNat → n.toNat ≤ 10 →
    ∃ t, exec .decClear s = .next t ∧ exec (.seqStart n) t = .next { t with refused := some .refStartUnwritten }

/-! ## SEQ_TICK -/

/-- R198: SEQ_TICK with `running` 0 does nothing in any engine state (`dec_done` apart), and an engine in Complete is not running. -/
def Obligations.TickNotRunning : Prop :=
  ∀ s : State, (s.seq.running = false → ∃ d : Bool, exec .seqTick s = .next { s with dec := { s.dec with frameDone := d } }) ∧
    (s.seq.Inv Config.params → s.seq.state = .complete → s.seq.running = false)

/-- R189: SEQ_TICK in CheckingRx drains at most RX_DRAIN_MAX bytes of those on the receive stream and moves to Sending (`dec_done` apart). -/
def Obligations.TickCheckingRx : Prop :=
  ∀ s : State, s.seq.running = true → s.seq.state = .checkingRx → ∃ d : Bool,
    exec .seqTick s = .next { s with
      dec := { s.dec with frameDone := d }, seq := { s.seq with state := .sending }, draws := s.draws + 1,
      hist := s.hist ++ ((Config.mbRxBytes s.draws).take Config.params.rxDrainMax).map Event.mbrxDrop }

/-- R191, R192: SEQ_TICK in Sending sends the next record's frame between the edges of its motor's key line and marks the motor pending; on the tick
that leaves nothing to send it enters WaitingStatus with the tick counter 0 (`dec_done` apart). -/
def Obligations.TickSending : Prop :=
  ∀ s : State, s.seq.latchOk → s.seq.running = true → s.seq.state = .sending →
    (s.seq.sendIdx.toNat = s.seq.motorCount.toNat → ∃ d : Bool,
      exec .seqTick s = .next { s with
        dec := { s.dec with frameDone := d }, seq := { s.seq with state := .waitingStatus, tickCounter := 0#32 } }) ∧
    (∀ (h : s.seq.sendIdx.toNat < 10), s.seq.sendIdx.toNat < s.seq.motorCount.toNat →
      ∃ (m : Nat) (r : MotorSetting) (body : List Byte) (d : Bool), r = s.seq.settings[s.seq.sendIdx.toNat] ∧ m = r.number.toNat ∧ 1 ≤ m ∧ m ≤ 10 ∧
        body = [Config.params.mbCfgCmd,
          r.acceleration.extractLsb' 0 8, r.acceleration.extractLsb' 8 8, r.acceleration.extractLsb' 16 8, r.acceleration.extractLsb' 24 8,
          r.maxSpeed.extractLsb' 0 8, r.maxSpeed.extractLsb' 8 8, r.maxSpeed.extractLsb' 16 8, r.maxSpeed.extractLsb' 24 8,
          r.steps.extractLsb' 0 8, r.steps.extractLsb' 8 8, r.steps.extractLsb' 16 8, r.steps.extractLsb' 24 8] ∧
        exec .seqTick s = .next { s with
          dec := { s.dec with frameDone := d },
          seq := { s.seq with
            key := s.seq.key.setIfInBounds (m - 1) false,
            pending := s.seq.pending ||| 1#16 <<< (m - 1),
            sendIdx := s.seq.sendIdx + 1#4,
            state := if s.seq.sendIdx.toNat + 1 = s.seq.motorCount.toNat then .waitingStatus else .sending,
            tickCounter := if s.seq.sendIdx.toNat + 1 = s.seq.motorCount.toNat then 0#32 else s.seq.tickCounter },
          hist := s.hist ++ ([Event.key m true] ++ (body ++ [body.foldl (fun a b => a ^^^ b) 0#8]).map Event.mbus ++ [Event.key m false]) })

/-- R194, R196, R197: SEQ_TICK in WaitingStatus, with the levels the environment shows at this tick. A pending motor that reads busy restarts its
counter; one that does not counts up and is promoted at DEBOUNCE_TICKS; then the exits, an empty pending mask before the timeout (`dec_done` apart). -/
def Obligations.TickWaiting : Prop :=
  ∀ (s : State) (pend promoted : Fin 10 → Prop), s.seq.running = true → s.seq.state = .waitingStatus → s.seq.pending &&& 0xFC00#16 = 0#16 →
    (∀ i, pend i ↔ s.seq.pending.getLsbD i.val = true) →
    (∀ i, promoted i ↔ pend i ∧ (Config.busyLevels s.draws)[i] = false ∧ Config.params.debounceTicks ≤ (s.seq.deb[i] + 1#16).toNat) →
    ∃ (e : Engine) (d : Bool), exec .seqTick s = .next { s with dec := { s.dec with frameDone := d }, seq := e, draws := s.draws + 1 } ∧
      e.active = s.seq.active ∧ e.motorCount = s.seq.motorCount ∧ e.sendIdx = s.seq.sendIdx ∧ e.settings = s.seq.settings ∧
      e.key = s.seq.key ∧ e.tickCounter = s.seq.tickCounter + 1#32 ∧
      (∀ i, pend i → (Config.busyLevels s.draws)[i] = true → e.deb[i] = 0#16) ∧
      (∀ i, pend i → (Config.busyLevels s.draws)[i] = false → e.deb[i] = s.seq.deb[i] + 1#16) ∧
      (∀ i, ¬ pend i → e.deb[i] = s.seq.deb[i]) ∧
      ((∀ i, pend i → promoted i) → e.state = .complete ∧ e.running = false ∧ e.pending = 0#16 ∧
        ∀ i : Fin 10, e.completed.getLsbD i.val = true ↔ s.seq.completed.getLsbD i.val = true ∨ promoted i) ∧
      ((∃ i, pend i ∧ ¬ promoted i) → Config.params.safetyTimeoutTicks < (s.seq.tickCounter + 1#32).toNat →
        e.state = .complete ∧ e.running = false ∧ e.pending = 0#16 ∧
        ∀ i : Fin 10, e.completed.getLsbD i.val = true ↔ s.seq.completed.getLsbD i.val = true ∨ pend i) ∧
      ((∃ i, pend i ∧ ¬ promoted i) → (s.seq.tickCounter + 1#32).toNat ≤ Config.params.safetyTimeoutTicks →
        e.state = .waitingStatus ∧ e.running = true ∧
        (∀ i : Fin 10, e.pending.getLsbD i.val = true ↔ pend i ∧ ¬ promoted i) ∧
        ∀ i : Fin 10, e.completed.getLsbD i.val = true ↔ s.seq.completed.getLsbD i.val = true ∨ promoted i)

/-- R187, R205: SEQ_TICK always completes; it writes only the engine, `dec_done` and the history, and its events are nothing, at most RX_DRAIN_MAX
drops, or one 14-byte frame between two key events. -/
def Obligations.TickCompletesBounded : Prop :=
  ∀ s : State, s.seq.Inv Config.params →
    ∃ (t : State) (evs : List Event), exec .seqTick s = .next t ∧
      t = { s with dec := { s.dec with frameDone := t.dec.frameDone }, seq := t.seq, hist := s.hist ++ evs, draws := t.draws } ∧
      (evs = [] ∨ (∃ bs : List Byte, bs.length ≤ Config.params.rxDrainMax ∧ evs = bs.map Event.mbrxDrop) ∨
        ∃ (m : Nat) (f : List Byte), f.length = 14 ∧ evs = [Event.key m true] ++ f.map Event.mbus ++ [Event.key m false])

/-- R195: a pending motor whose line reads deasserted on DEBOUNCE_TICKS consecutive WaitingStatus ticks is promoted on the last of them and on no
earlier one (its counter starting from 0, and the timeout not reached before). -/
def Obligations.DebouncePromotes : Prop :=
  ∀ (p : Params) (busy : Nat → Lines) (e : Engine) (i : Fin 10), e.Inv p → e.state = .waitingStatus →
    e.pending.getLsbD i.val = true → e.deb[i] = 0#16 → e.tickCounter.toNat + p.debounceTicks ≤ p.safetyTimeoutTicks →
    (∀ j, j < p.debounceTicks → (busy j)[i] = false) →
    (∀ k, k < p.debounceTicks → (e.ticksFrom p busy k).pending.getLsbD i.val = true ∧ (e.ticksFrom p busy k).completed.getLsbD i.val = false) ∧
    (e.ticksFrom p busy p.debounceTicks).completed.getLsbD i.val = true

/-- R204, R298: a SEQ_START accepted in a state that meets the invariant is followed by Complete with every active motor completed within
max(n,1) + 2 + SAFETY_TIMEOUT_TICKS ticks, whatever the status lines do. First with ticks alone; then with any arrivals of all agents between the
ticks, the one assumption on them being the tick source's fairness, as long as no reset, SEQ_START or SEQ_STOP intervenes and no step stops the run
(as a refusal would: log 1). -/
def Obligations.SequenceTerminates : Prop :=
  ∀ (n : BitVec 4) (s t : State), s.Inv → startAccepted s.dec.buf n → exec (.seqStart n) s = .next t →
    (∃ (k : Nat) (u : State), k ≤ max n.toNat 1 + 2 + Config.params.safetyTimeoutTicks ∧
      execAll (List.replicate k .seqTick) t = .next u ∧ u.seq.state = .complete ∧ u.seq.running = false ∧
      u.seq.active = t.seq.active ∧ u.seq.completed = u.seq.active ∧ u.seq.pending = 0#16) ∧
    (∀ σ : Nat → Arrival, TickFair σ → (∀ k, σ k ≠ .resetInput) → (∀ k, ∃ u, runArrivals σ k t = .next u) →
      (∀ k u v w, runArrivals σ k t = .next u → fetch (u.setPort [σ k]) = .run (.opw w) v → w.extractLsb' 12 4 ≠ 0x6#4 ∧ w.extractLsb' 12 4 ≠ 0x8#4) →
      ∃ (k : Nat) (u : State), ticksIn σ k ≤ max n.toNat 1 + 2 + Config.params.safetyTimeoutTicks ∧
        runArrivals σ k t = .next u ∧ u.seq.state = .complete ∧ u.seq.running = false ∧
        u.seq.active = t.seq.active ∧ u.seq.completed = u.seq.active ∧ u.seq.pending = 0#16)

/-! ## SEQ_STOP -/

/-- R201: SEQ_STOP in every engine state; a key line that was asserted gives one event, none gives none; `all_complete` is then 1 exactly when a motor
is active; it writes nothing else (`dec_done` apart). -/
def Obligations.StopAborts : Prop :=
  decode (.opw 0x8000#16) = .ok .seqStop ∧
  ∀ s : State, ∃ (t : State) (evs : List Event), exec .seqStop s = .next t ∧
    t = { s with dec := { s.dec with frameDone := t.dec.frameDone }, hist := s.hist ++ evs,
                 seq := { s.seq with completed := s.seq.active, pending := 0#16, key := Vector.replicate 10 false, state := .idle, running := false } } ∧
    ((∀ i : Fin 10, s.seq.key[i] = false) → evs = []) ∧ evs.Nodup ∧
    (∀ ev, ev ∈ evs ↔ ∃ i : Fin 10, s.seq.key[i] = true ∧ ev = Event.key (i.val + 1) false) ∧
    (t.allComplete = true ↔ s.seq.active ≠ 0#16)

/-- R266: a stop and a tick that contend, in either order. Both orders end Idle, every active motor completed, none pending, not running. They differ in
the events of the tick, if it came first, and in what that tick left in its own counters (`sendIdx`, `tickCounter`, `deb`, the model's draws; `dec_done`
apart), and in nothing else. -/
def Obligations.StopAgainstTick : Prop :=
  ∀ s : State, s.seq.Inv Config.params → s.seq.running = true →
    ∃ (a b c : State) (evs : List Event), exec .seqTick s = .next c ∧ c.hist = s.hist ++ evs ∧
      execAll [.seqStop, .seqTick] s = .next a ∧ execAll [.seqTick, .seqStop] s = .next b ∧
      a = { s with dec := { s.dec with frameDone := a.dec.frameDone },
                   seq := { s.seq with state := .idle, running := false, completed := s.seq.active, pending := 0#16, key := Vector.replicate 10 false } } ∧
      b = { a with dec := { a.dec with frameDone := b.dec.frameDone }, hist := s.hist ++ evs, draws := b.draws,
                   seq := { a.seq with sendIdx := b.seq.sendIdx, tickCounter := b.seq.tickCounter, deb := b.seq.deb } }

/-! ## Whole-machine rules -/

/-- R34: within one command `completed` only gains bits: no instruction but SEQ_START takes one away. -/
def Obligations.CompletedOnlyGains : Prop :=
  ∀ (i : Instr) (s t : State), s.seq.Inv Config.params → (∀ n, i ≠ .seqStart n) → exec i s = .next t →
    s.seq.completed &&& ~~~t.seq.completed = 0#16

/-- R46: only RX_BYTE and DEC_CLEAR write the decoder fields (`dec_done`, which every operation clears, apart); only TXB_PUSH and TXB_CLEAR the encoder
fields; only SEQ_START, SEQ_TICK and SEQ_STOP the engine fields. -/
def Obligations.SingleWriter : Prop :=
  ∀ (i : Instr) (s t : State), exec i s = .next t →
    ((∀ b, i ≠ .rxByte b) → i ≠ .decClear → t.dec = { s.dec with frameDone := t.dec.frameDone } ∧ (t.dec.frameDone = true → s.dec.frameDone = true)) ∧
    ((∀ b, i ≠ .txbPush b) → i ≠ .txbClear → t.enc = s.enc) ∧
    ((∀ n, i ≠ .seqStart n) → i ≠ .seqTick → i ≠ .seqStop → t.seq = s.seq)

/-- R49, R78: no instruction takes an event out of the output history; only ENC_FRAME, SEQ_START, SEQ_TICK and SEQ_STOP append to it. -/
def Obligations.HistoryOnlyGrows : Prop :=
  ∀ (i : Instr) (s t : State), exec i s = .next t →
    (∃ evs, t.hist = s.hist ++ evs) ∧
    ((∀ c, i ≠ .encFrame c) → (∀ n, i ≠ .seqStart n) → i ≠ .seqTick → i ≠ .seqStop → t.hist = s.hist)

/-- R14, R48: an instruction that sets the refusal mark changes nothing else, and no instruction clears the mark. -/
def Obligations.RefusalChangesNothing : Prop :=
  ∀ (i : Instr) (s t : State), exec i s = .next t →
    (t.refused ≠ s.refused → ∃ r, t = { s with refused := some r }) ∧ (s.refused ≠ none → t.refused ≠ none)

/-- R186 (a), R302: a controller that waits for a command with no active motor waits forever: no step but a reset or another SEQ_START word ends the
wait or makes a motor active. (An emergency-stop event may queue a report behind the wait: log 5.) -/
def Obligations.ZeroRecordMoveHangs : Prop :=
  ∀ (s t : State) (q : List CtlItem), s.seq.active = 0#16 → s.ctl = .waitComplete :: q →
    (∀ rest, s.port ≠ .resetInput :: rest) → (∀ w rest, s.port = .word w :: rest → w.extractLsb' 12 4 ≠ 0x6#4) →
    step s = .next t → t.seq.active = 0#16 ∧ ∃ q', t.ctl = .waitComplete :: (q ++ q') ∧ ((∀ rest, s.port ≠ .stopEvent :: rest) → q' = [])

/-! ## The command contract -/

/-- R231, R232, R233, R243: what the controller does for VERSION, STATUS and STOP, whatever Data the frame has: the response, for STOP after SEQ_STOP, and
then DEC_CLEAR (whose place after the response is the model's reading of R230, log 19); nothing else of the state changes. A build whose `ESTOP_REPORT`
the STOP command triggers sends it before or after the response (the model's choice of places, log 5); one without sends none (R242). A report is a
legal response frame of R92 that carries the `EMERGENCY_STOP` byte 0x0B, and as an ERROR response that byte is all its Data (R93, R240). -/
def Obligations.QueryAndStopCommands : Prop :=
  (∀ s : State,
    exec .cmdVersion s = .next { s with ctl := [.rsp 0x81#8 0#8, .op 0x2000#16] ++ s.ctl } ∧
    exec .cmdStatus s = .next { s with ctl := [.rsp 0x82#8 0#8, .op 0x2000#16] ++ s.ctl } ∧
    exec .cmdStop s = .next { s with
      ctl := [.op 0x8000#16] ++ optionProgram (Config.params.reportAt .beforeStopAnswer) ++ [.rsp 0x83#8 0#8] ++
        optionProgram (Config.params.reportAt .afterStopAnswer) ++ [.op 0x2000#16] ++ s.ctl }) ∧
  (∀ (p : Params) (t : ReportTrigger), p.estopReport = none → optionProgram (p.reportAt t) = []) ∧
  (∀ (p : Params) (t : ReportTrigger) (r : Response), p.reportAt t = some r →
    r.data.length ≤ 251 ∧ 0x0B#8 ∈ r.data ∧ isResponseCode r.code = true ∧ (r.code = 0xFF#8 → r.data = [0x0B#8]))

/-- R234, R235, R241: a move command whose Data is `n ≤ 10` valid records issues START n and DEC_CLEAR, then, for SYNC_MOVE, waits for `all_complete`,
and answers with the MOVE response. While the engine runs, a build with a `BUSY_POLICY` sends its answer instead, before or after DEC_CLEAR (an order the
spec leaves open, log 24); a build with none restarts the engine. A busy answer that is an ERROR response has one error value as its Data (R93, R240). -/
def Obligations.MoveAccepted : Prop :=
  (∀ (s : State) (n : BitVec 4) (i : Instr) (wait : List CtlItem), (i = .cmdSyncMove ∧ wait = [.waitComplete]) ∨ (i = .cmdAsyncMove ∧ wait = []) →
    s.dec.state = .ready → s.dec.len.toNat = 5 + 16 * n.toNat → startAccepted s.dec.buf n →
    exec i s = .next { s with
      ctl := (match (if s.seq.running then Config.params.busyPolicy else none) with
          | none => [.op (0x6000#16 ||| n.setWidth 16 <<< 8), .op 0x2000#16] ++ wait ++ [.rsp 0x90#8 0#8]
          | some a =>
            if a.beforeClear then sendProgram a.response.code a.response.data ++ [.op 0x2000#16]
            else [.op 0x2000#16] ++ sendProgram a.response.code a.response.data) ++ s.ctl }) ∧
  (∀ a : BusyAnswer, a.response.data.length ≤ 251 ∧ isResponseCode a.response.code = true ∧
    (a.response.code = 0xFF#8 → ∃ e : Byte, a.response.data = [e] ∧ (e = 0x01#8 ∨ e = 0x02#8 ∨ e = 0x04#8 ∨ e = 0x05#8)))

/-- R236, R238, R239: a move command that fails a check is answered with one ERROR, the first failing check's, and the engine is not started: a
Data length that is no multiple of 16 (with the build's one E_BADMULT_CODE), then a count above 10, then an invalid record. DEC_CLEAR comes after the
response (log 19). A build whose `BUSY_POLICY` answers before the checks sends that answer instead while the engine runs (log 24). -/
def Obligations.MoveRejected : Prop :=
  ∀ (s : State) (i : Instr) (d : Nat) (answer : Byte → List CtlItem), (i = .cmdSyncMove ∨ i = .cmdAsyncMove) →
    (∀ e, answer e =
      match (if s.seq.running then Config.params.busyPolicy else none) with
      | none => [.rsp 0xFF#8 e, .op 0x2000#16]
      | some a => if a.beforeChecks then busyProgram a else [.rsp 0xFF#8 e, .op 0x2000#16]) →
    s.dec.state = .ready → s.dec.len.toNat = 5 + d → d ≤ 251 →
    (Config.params.badMult.byte = 0x02#8 ∨ Config.params.badMult.byte = 0x04#8) ∧
    (d % 16 ≠ 0 → exec i s = .next { s with ctl := answer Config.params.badMult.byte ++ s.ctl }) ∧
    (d % 16 = 0 → 10 < d / 16 → exec i s = .next { s with ctl := answer 0x04#8 ++ s.ctl }) ∧
    (d % 16 = 0 → d / 16 ≤ 10 → ∀ (k : Nat) (r : MotorSetting), k < d / 16 → msdDecode s.dec.buf k = some r → msdValid r = false →
      (∀ j, j < k → ∃ r, msdDecode s.dec.buf j = some r ∧ msdValid r = true) →
      exec i s = .next { s with ctl := answer 0x05#8 ++ s.ctl })

/-- R237: a ready frame whose Cmd is none of the five is answered with ERROR, [INVALID_COMMAND], and no engine operation is issued; DEC_CLEAR comes
after the response (log 19). -/
def Obligations.UnknownCommandAnswered : Prop :=
  ∀ (s : State) (rest : List Arrival), s.refused = none → s.port = .controller :: rest → s.ctl = [] → s.dec.state = .ready →
    s.dec.cmd ≠ 0x01#8 → s.dec.cmd ≠ 0x02#8 → s.dec.cmd ≠ 0x03#8 → s.dec.cmd ≠ 0x10#8 → s.dec.cmd ≠ 0x11#8 →
    step s = .next { s with port := rest, ctl := [.rsp 0xFF#8 0x01#8, .op 0x2000#16] }

/-- R103, R231 to R235, R240: each response is `SEND` of its code and its Data: TXCLR, one PUSH for each byte, ENC. That STATUS reads the masks and the
lines together, when its response runs, is the model's reading (log 23). -/
def Obligations.ResponsesSend : Prop :=
  ∀ (s : State) (send : Byte → List Byte → List CtlItem),
    (∀ c data, send c data = [CtlItem.op 0x5000#16] ++ data.map (fun b => CtlItem.op (0x4000#16 ||| b.setWidth 16)) ++
      [CtlItem.op (0x3000#16 ||| c.setWidth 16)]) →
    (∃ data : List Byte, data.length ≤ 251 ∧ data = Config.fwVersionPayload ∧
      exec .rspVersion s = .next { s with ctl := send 0x81#8 data ++ s.ctl }) ∧
    (∃ (data : List Byte) (levels : Lines), data.length ≤ 251 ∧ data = Config.statusPayload s.seq.active s.seq.completed levels ∧
      (∀ i : Fin 10, levels[i] = ((Config.busyLevels s.draws)[i] == Config.params.statusBusyHigh)) ∧
      exec .rspStatus s = .next { s with ctl := send 0x82#8 data ++ s.ctl, draws := s.draws + 1 }) ∧
    exec .rspStop s = .next { s with ctl := send 0x83#8 [0x00#8] ++ s.ctl } ∧
    exec .rspMove s = .next { s with ctl := send 0x90#8 [0x00#8] ++ s.ctl } ∧
    (∀ e, exec (.rspError e) s = .next { s with ctl := send 0xFF#8 [e] ++ s.ctl })

/-- R233, R230, R103: the whole STOP command, the controller's turns with nothing between them: the engine is stopped, the host gets
`02 00 06 83 00 85`, and the decoder is cleared last (log 19). A build whose `ESTOP_REPORT` the STOP command triggers sends its frame before or after
that response, in turns of their own (log 5); with none there are seven turns and the one frame. -/
def Obligations.StopCommandRuns : Prop :=
  ∀ (s : State) (rest : List Arrival) (before after : Option Response) (turns : Nat),
    before = Config.params.reportAt .beforeStopAnswer → after = Config.params.reportAt .afterStopAnswer →
    turns = 7 + (optionProgram before).length + (optionProgram after).length →
    s.refused = none → s.port = List.replicate turns .controller ++ rest → s.ctl = [] →
    s.dec.state = .ready → s.dec.cmd = 0x03#8 → s.seq.key = Vector.replicate 10 false →
    ∃ t, stepN turns s = .next t ∧
      t.hist = s.hist ++ (responseFrame before ++ [0x02#8, 0x00#8, 0x06#8, 0x83#8, 0x00#8, 0x85#8] ++ responseFrame after).map Event.host ∧
      t.seq = { s.seq with completed := s.seq.active, pending := 0#16, state := .idle, running := false } ∧
      t.dec.state = .waitStx ∧ t.dec.frameDone = false ∧
      t.enc.txbLen.toNat = (match after with | none => 1 | some r => r.data.length) ∧
      t.port = rest ∧ t.ctl = [] ∧ t.refused = none

/-! ## Outputs -/

/-- R22, R28, R31, R40, R42: the derived outputs, the numbers of the two state outputs, and the electrical level of a key line, its logical level when
`KEY_ACTIVE_HIGH` is 1 and the opposite when it is 0. -/
def Obligations.StatusOutputs : Prop :=
  ∀ s : State,
    (s.allComplete = true ↔ s.seq.active ≠ 0#16 ∧ s.seq.active &&& s.seq.completed = s.seq.active) ∧
    (s.decReady = true ↔ s.dec.state = .ready) ∧
    (s.dec.state = .ready → 5 ≤ s.dec.len.toNat → s.dec.len.toNat ≤ 256 → s.decPlen.toNat = s.dec.len.toNat - 5) ∧
    [DecState.waitStx, .waitLenHigh, .waitLenLow, .waitCmd, .waitData, .waitXor, .ready].map (fun d => (decStateCode d).toNat) = [0, 1, 2, 3, 4, 5, 6] ∧
    [SeqState.idle, .checkingRx, .sending, .waitingStatus, .complete].map (fun d => (seqStateCode d).toNat) = [0, 1, 2, 3, 4] ∧
    (∀ (p : Params) (i : Fin 10), keyLevel p s.seq i = true ↔ (s.seq.key[i] = p.keyActiveHigh))
end

