-- ==== Sys2Proof/Laws/Config.lean ====
section
/-! SUPPORT. What the frames of the open parameters BUSY_POLICY and ESTOP_REPORT can be (00_scope.md R10, 30_encoding.md R92, R93). -/

namespace Sys2Proof

/-- Each code of a plain response is one of R92's, and not ERROR's. -/
theorem PlainCode.byte_spec (c : PlainCode) : isResponseCode c.byte = true ∧ c.byte ≠ codeRspError := by cases c <;> decide

/-- A report is a legal response that carries the `EMERGENCY_STOP` byte; an ERROR response carries nothing else (R93, R240, R242). -/
theorem ReportFrame.response_spec (f : ReportFrame) : f.response.data.length ≤ payloadMax ∧ errEmergencyStop ∈ f.response.data ∧
    isResponseCode f.response.code = true ∧ (f.response.code = codeRspError → f.response.data = [errEmergencyStop]) := by
  cases f with
  | error => decide
  | plain c lead trail =>
    refine ⟨List.length_take_le _ _, ?_, c.byte_spec.1, fun h => absurd h c.byte_spec.2⟩
    have hle : (lead.take (payloadMax - 1) ++ [errEmergencyStop]).length ≤ payloadMax := by
      simp only [List.length_append, List.length_take, List.length_singleton, payloadMax]; omega
    simp only [Response.data, ReportFrame.response]
    rw [List.take_append, List.take_of_length_le hle]
    exact List.mem_append_left _ (List.mem_append_right _ (List.mem_singleton.mpr rfl))

/-- A busy answer is a legal response; an ERROR response carries one error value that the contract may send (R93, R95, R240). -/
theorem BusyFrame.response_spec (f : BusyFrame) : f.response.data.length ≤ payloadMax ∧ isResponseCode f.response.code = true ∧
    (f.response.code = codeRspError → ∃ v : ErrorValue, f.response.data = [v.byte]) := by
  cases f with
  | error v => exact ⟨by cases v <;> decide, rfl, fun _ => ⟨v, rfl⟩⟩
  | plain c payload => exact ⟨List.length_take_le _ _, c.byte_spec.1, fun h => absurd h c.byte_spec.2⟩

/-- What a build reports at a trigger is the response of its report's frame. -/
theorem reportAt_eq_some {p : Params} {t : ReportTrigger} {r : Response} (h : p.reportAt t = some r) :
    ∃ f : ReportFrame, p.estopReport = some { frame := f, trigger := t } ∧ r = f.response := by
  unfold Params.reportAt at h
  split at h
  · cases h
  · rename_i q hq
    split at h
    · rename_i ht; injection h with h
      exact ⟨q.frame, by rw [hq, ← ht], h.symm⟩
    · cases h

end Sys2Proof
end

