-- ==== Sys2Proof/Laws/Encoding.lean ====
section
/-! SUPPORT. The fields of an operation word (30_encoding.md R96). -/

namespace Sys2Proof

/-- The fields of an operation word built from its fields (R96). -/
@[simp] theorem opcOf_opWord (o a : BitVec 4) (b : Byte) : opcOf (opWord o a b) = o := by
  apply BitVec.eq_of_toNat_eq
  have := o.isLt; have := a.isLt; have := b.isLt
  simp only [opcOf, opWord, BitVec.extractLsb'_toNat, BitVec.toNat_append]
  rw [← Nat.shiftLeft_add_eq_or_of_lt b.isLt, ← Nat.shiftLeft_add_eq_or_of_lt a.isLt]
  simp only [Nat.shiftLeft_eq, Nat.shiftRight_eq_div_pow]; omega

@[simp] theorem auxOf_opWord (o a : BitVec 4) (b : Byte) : auxOf (opWord o a b) = a := by
  apply BitVec.eq_of_toNat_eq
  have := o.isLt; have := a.isLt; have := b.isLt
  simp only [auxOf, opWord, BitVec.extractLsb'_toNat, BitVec.toNat_append]
  rw [← Nat.shiftLeft_add_eq_or_of_lt b.isLt, ← Nat.shiftLeft_add_eq_or_of_lt a.isLt]
  simp only [Nat.shiftLeft_eq, Nat.shiftRight_eq_div_pow]; omega

@[simp] theorem byteOf_opWord (o a : BitVec 4) (b : Byte) : byteOf (opWord o a b) = b := by
  apply BitVec.eq_of_toNat_eq
  have := o.isLt; have := a.isLt; have := b.isLt
  simp only [byteOf, opWord, BitVec.extractLsb'_toNat, BitVec.toNat_append]
  rw [← Nat.shiftLeft_add_eq_or_of_lt b.isLt, ← Nat.shiftLeft_add_eq_or_of_lt a.isLt]
  simp only [Nat.shiftLeft_eq, Nat.shiftRight_eq_div_pow]; omega

/-- An operation word is its three fields (R96). -/
theorem opWord_fields (w : OpWord) : opWord (opcOf w) (auxOf w) (byteOf w) = w := by
  apply BitVec.eq_of_toNat_eq
  have hw := w.isLt
  have := (byteOf w).isLt
  have h2 := (auxOf w).isLt
  simp only [opWord, BitVec.toNat_append]
  rw [← Nat.shiftLeft_add_eq_or_of_lt (byteOf w).isLt, ← Nat.shiftLeft_add_eq_or_of_lt h2]
  simp only [opcOf, auxOf, byteOf, BitVec.extractLsb'_toNat, Nat.shiftLeft_eq, Nat.shiftRight_eq_div_pow]; omega

end Sys2Proof
end

