-- ==== Sys2Proof/Laws/Memory.lean ====
section
/-! SUPPORT. The laws of the byte stores: a read after a write, the canonical form kept, spans, and stores written from index 0 on. -/

namespace Sys2Proof.Machine

@[simp] theorem Mem.read_nil (a : Nat) : Mem.read [] a = none := rfl

/-- A read at the written index gives the byte written. -/
@[simp] theorem Mem.read_write_same (m : Mem) (a : Nat) (b : Byte) : Mem.read (Mem.write m a b) a = some b := by
  induction m with
  | nil => simp [Mem.write, Mem.read]
  | cons c m ih =>
    obtain ⟨c, x⟩ := c
    simp only [Mem.write]
    split
    · simp [Mem.read]
    · split
      · simp [Mem.read]
      · rename_i h; simp [Mem.read, h, ih]

/-- A write leaves every other index as it was. -/
theorem Mem.read_write_other (m : Mem) {a a' : Nat} (b : Byte) (h : a' ≠ a) :
    Mem.read (Mem.write m a b) a' = Mem.read m a' := by
  induction m with
  | nil => simp [Mem.write, Mem.read, h]
  | cons c m ih =>
    obtain ⟨c, x⟩ := c
    simp only [Mem.write]
    split
    · simp [Mem.read, h]
    · split
      · rename_i h2; subst h2; simp [Mem.read, h]
      · simp [Mem.read, ih]

/-- The first index of a store that follows `c` in rising order is above `c`. -/
theorem Mem.rising_cons {x : Host.Cell} {m : Mem} :
    Mem.rising (x :: m) = true ↔ (∀ y ∈ m.head?, x.1 < y.1) ∧ Mem.rising m = true := by
  cases m with
  | nil => simp [Mem.rising]
  | cons y m => simp [Mem.rising]

theorem Mem.head_write (m : Mem) (a : Nat) (b : Byte) (y : Host.Cell) (hy : y ∈ (Mem.write m a b).head?) :
    y.1 = a ∨ ∃ z ∈ m.head?, y.1 = z.1 := by
  cases m with
  | nil => simp [Mem.write] at hy; simp [← hy]
  | cons c m =>
    obtain ⟨c, x⟩ := c
    simp only [Mem.write] at hy
    split at hy
    · simp at hy; simp [← hy]
    · split at hy
      · simp at hy; simp [← hy]
      · simp at hy; simp [← hy]

/-- A write keeps the indexes rising. -/
theorem Mem.rising_write (m : Mem) (a : Nat) (b : Byte) (h : Mem.rising m = true) : Mem.rising (Mem.write m a b) = true := by
  induction m with
  | nil => simp [Mem.write, Mem.rising]
  | cons c m ih =>
    obtain ⟨c, x⟩ := c
    have ⟨h1, h2⟩ := Mem.rising_cons.mp h
    simp only [Mem.write]
    split
    · rename_i hlt
      exact Mem.rising_cons.mpr ⟨by simp [hlt], h⟩
    · split
      · rename_i heq; subst heq
        exact Mem.rising_cons.mpr ⟨h1, h2⟩
      · rename_i hlt hne
        refine Mem.rising_cons.mpr ⟨fun y hy => ?_, ih h2⟩
        rcases Mem.head_write m a b y hy with h | ⟨z, hz, h⟩
        · simp only; omega
        · rw [h]; exact h1 z hz

theorem Mem.all_write (m : Mem) (a : Nat) (b : Byte) (p : Nat → Bool) (h : m.all (fun c => p c.1) = true) (ha : p a = true) :
    (Mem.write m a b).all (fun c => p c.1) = true := by
  induction m with
  | nil => simp [Mem.write, ha]
  | cons c m ih =>
    obtain ⟨c, x⟩ := c
    simp only [List.all_cons, Bool.and_eq_true] at h
    simp only [Mem.write]
    split
    · simp [ha, h.1]; simpa using h.2
    · split
      · simp [ha]; simpa using h.2
      · simp only [List.all_cons, Bool.and_eq_true]; exact ⟨h.1, ih h.2⟩

/-- A write inside the store keeps its canonical form. -/
theorem Mem.wf_write (m : Mem) {a : Nat} (b : Byte) (h : Mem.wf m = true) (ha : a < payloadMax) : Mem.wf (Mem.write m a b) = true := by
  simp only [Mem.wf, Bool.and_eq_true] at h ⊢
  exact ⟨Mem.rising_write m a b h.1, Mem.all_write m a b (fun n => decide (n < payloadMax)) h.2 (by simpa using ha)⟩

theorem Mem.wf_nil : Mem.wf [] = true := rfl

/-! ## Spans -/

/-- A span is readable exactly as the list of its bytes. -/
theorem Mem.readSpan_eq_some (m : Mem) (o n : Nat) (bs : List Byte) :
    Mem.readSpan m o n = some bs ↔ bs.length = n ∧ ∀ i, i < n → Mem.read m (o + i) = bs[i]? := by
  induction n generalizing o bs with
  | zero => simp [Mem.readSpan]
  | succ n ih =>
    simp only [Mem.readSpan]
    constructor
    · intro h
      split at h
      · rename_i b bs' hb hbs
        have := (ih (o + 1) bs').mp hbs
        cases h
        refine ⟨by simp [this.1], fun i hi => ?_⟩
        cases i with
        | zero => simpa using hb
        | succ i => have := this.2 i (by omega); simp only [List.getElem?_cons_succ]; rw [← this]; congr 1; omega
      · cases h
    · rintro ⟨h1, h2⟩
      cases bs with
      | nil => simp at h1
      | cons b bs =>
        have hb := h2 0 (by omega)
        have hbs : Mem.readSpan m (o + 1) n = some bs := (ih (o + 1) bs).mpr
          ⟨by simpa using h1, fun i hi => by have := h2 (i + 1) (by omega); simp only [List.getElem?_cons_succ] at this; rw [← this]; congr 1; omega⟩
        simp only [Nat.add_zero, List.getElem?_cons_zero] at hb
        rw [hb, hbs]

/-- A span whose every index is written is readable. -/
theorem Mem.readSpan_isSome (m : Mem) (o n : Nat) (h : ∀ i, i < n → (Mem.read m (o + i)).isSome = true) :
    ∃ bs, Mem.readSpan m o n = some bs := by
  induction n generalizing o with
  | zero => exact ⟨[], rfl⟩
  | succ n ih =>
    obtain ⟨bs, hbs⟩ := ih (o + 1) (fun i hi => by have := h (i + 1) (by omega); rwa [show o + (i + 1) = o + 1 + i by omega] at this)
    obtain ⟨b, hb⟩ := Option.isSome_iff_exists.mp (h 0 (by omega))
    simp only [Nat.add_zero] at hb
    exact ⟨b :: bs, by simp [Mem.readSpan, hb, hbs]⟩

/-- A span with an unwritten index is not readable. -/
theorem Mem.readSpan_eq_none (m : Mem) (o n i : Nat) (hi : i < n) (h : Mem.read m (o + i) = none) : Mem.readSpan m o n = none := by
  cases hs : Mem.readSpan m o n with
  | none => rfl
  | some bs =>
    have ⟨h1, h2⟩ := (Mem.readSpan_eq_some m o n bs).mp hs
    have := h2 i hi
    rw [h, List.getElem?_eq_getElem (by omega)] at this
    cases this

/-! ## Stores written from index 0 on -/

/-- The store that holds exactly `bs`, from index `o` on. -/
def Mem.ofBytes : Nat → List Byte → Mem
  | _, [] => []
  | o, b :: bs => (o, b) :: Mem.ofBytes (o + 1) bs

theorem Mem.ofBytes_addresses (o : Nat) (bs : List Byte) : (Mem.ofBytes o bs).map Prod.fst = List.range' o bs.length := by
  induction bs generalizing o with
  | nil => rfl
  | cons b bs ih => simp [Mem.ofBytes, ih, List.range'_succ]

@[simp] theorem Mem.bytes_ofBytes (o : Nat) (bs : List Byte) : Mem.bytes (Mem.ofBytes o bs) = bs := by
  induction bs generalizing o with
  | nil => rfl
  | cons b bs ih => simp only [Mem.bytes, Mem.ofBytes, List.map_cons] at ih ⊢; rw [ih]

/-- A store whose written indexes are exactly those below `n` is its bytes laid out from index 0. -/
theorem Mem.eq_ofBytes_of_range' (m : Mem) (o n : Nat) (h : m.map Prod.fst = List.range' o n) : m = Mem.ofBytes o (Mem.bytes m) := by
  induction m generalizing o n with
  | nil => rfl
  | cons c m ih =>
    obtain ⟨c, x⟩ := c
    cases n with
    | zero => simp at h
    | succ n =>
      simp only [List.map_cons, List.range'_succ, List.cons.injEq] at h
      have := ih (o + 1) n h.2
      simp only [Mem.bytes, List.map_cons, Mem.ofBytes] at this ⊢
      rw [h.1, ← this]

theorem Mem.eq_ofBytes {m : Mem} {n : Nat} (h : Mem.writtenBelow m n) : m = Mem.ofBytes 0 (Mem.bytes m) :=
  Mem.eq_ofBytes_of_range' m 0 n (by rw [← List.range_eq_range']; exact h)

theorem Mem.length_bytes {m : Mem} {n : Nat} (h : Mem.writtenBelow m n) : (Mem.bytes m).length = n := by
  have := congrArg List.length h
  simpa [Mem.bytes] using this

theorem Mem.read_ofBytes (o : Nat) (bs : List Byte) (i : Nat) :
    Mem.read (Mem.ofBytes o bs) i = if o ≤ i then bs[i - o]? else none := by
  induction bs generalizing o with
  | nil => simp [Mem.ofBytes]
  | cons b bs ih =>
    simp only [Mem.ofBytes, Mem.read, ih]
    by_cases h1 : i = o
    · simp [h1]
    · by_cases h2 : o ≤ i
      · have h3 : o + 1 ≤ i := by omega
        rw [if_neg h1, if_pos h3, if_pos h2, show i - o = (i - (o + 1)) + 1 by omega, List.getElem?_cons_succ]
      · rw [if_neg h1, if_neg (by omega), if_neg h2]

/-- In such a store the byte at an index is the one at that place of its bytes. -/
theorem Mem.read_of_writtenBelow {m : Mem} {n : Nat} (h : Mem.writtenBelow m n) (i : Nat) : Mem.read m i = (Mem.bytes m)[i]? := by
  conv_lhs => rw [Mem.eq_ofBytes h]
  simp [Mem.read_ofBytes]

theorem Mem.write_ofBytes_end (o : Nat) (bs : List Byte) (b : Byte) :
    Mem.write (Mem.ofBytes o bs) (o + bs.length) b = Mem.ofBytes o (bs ++ [b]) := by
  induction bs generalizing o with
  | nil => simp [Mem.ofBytes, Mem.write]
  | cons c bs ih =>
    have := ih (o + 1)
    simp only [Mem.ofBytes, Mem.write, List.length_cons, List.cons_append]
    rw [if_neg (by omega), if_neg (by omega), show o + (bs.length + 1) = o + 1 + bs.length by omega, this]

/-- Writing the next index appends the byte. -/
theorem Mem.write_next {m : Mem} {n : Nat} (h : Mem.writtenBelow m n) (b : Byte) :
    Mem.writtenBelow (Mem.write m n b) (n + 1) ∧ Mem.bytes (Mem.write m n b) = Mem.bytes m ++ [b] := by
  have hl := Mem.length_bytes h
  have hw : Mem.write m n b = Mem.ofBytes 0 (Mem.bytes m ++ [b]) := by
    have := Mem.write_ofBytes_end 0 (Mem.bytes m) b
    rw [← Mem.eq_ofBytes h, hl, Nat.zero_add] at this
    exact this
  constructor
  · rw [hw, Mem.writtenBelow, Mem.ofBytes_addresses, List.range_eq_range']
    simp [hl]
  · rw [hw, Mem.bytes_ofBytes]

/-- Such a store is canonical if it fits. -/
theorem Mem.wf_of_writtenBelow {m : Mem} {n : Nat} (h : Mem.writtenBelow m n) (hn : n ≤ payloadMax) : Mem.wf m = true := by
  have hrise : ∀ (bs : List Byte) (o : Nat), Mem.rising (Mem.ofBytes o bs) = true := by
    intro bs
    induction bs with
    | nil => intro o; rfl
    | cons b bs ih =>
      intro o
      refine Mem.rising_cons.mpr ⟨?_, ih (o + 1)⟩
      cases bs <;> simp [Mem.ofBytes]
  have hall : ∀ (bs : List Byte) (o : Nat), o + bs.length ≤ payloadMax →
      (Mem.ofBytes o bs).all (fun c => decide (c.1 < payloadMax)) = true := by
    intro bs
    induction bs with
    | nil => intro o _; rfl
    | cons b bs ih =>
      intro o ho
      simp only [List.length_cons] at ho
      simp only [Mem.ofBytes, List.all_cons, Bool.and_eq_true, decide_eq_true_eq]
      exact ⟨by omega, ih (o + 1) (by omega)⟩
  have hl := Mem.length_bytes h
  rw [Mem.eq_ofBytes h]
  simp only [Mem.wf, Bool.and_eq_true]
  exact ⟨hrise _ _, hall _ _ (by omega)⟩

end Sys2Proof.Machine
end

