-- ==== Sys2Proof/Laws/Operands.lean ====
section
/-! SUPPORT. The laws of the operand forms: motor bits and masks, record lists, byte order and checksums. -/

namespace Sys2Proof.Machine

/-! ## Motor bits and masks -/

theorem getLsbD_motorBit (m j : Nat) : (motorBit m).getLsbD j = decide (j = m - 1 ∧ j < 16) := by
  unfold motorBit
  by_cases hj : j < 16
  · by_cases h : j < m - 1
    · simp [hj, h]; omega
    · simp only [BitVec.getLsbD_shiftLeft, hj, h, decide_true, decide_false, Bool.not_false, Bool.true_and, and_true]
      by_cases h2 : j - (m - 1) = 0
      · have : j = m - 1 := by omega
        simp [this]
      · have h3 : ¬ j = m - 1 := by omega
        simp [BitVec.getLsbD_one, h3, h2]
  · simp [hj]

/-- A motor's bit is set in a mask exactly when the mask's AND with the bit is not 0. -/
theorem and_motorBit_ne_zero (a : Mask) (i : Fin 10) : a &&& motorBit (i.val + 1) ≠ 0#16 ↔ a.getLsbD i.val = true := by
  constructor
  · intro h
    by_contra hc
    apply h
    ext j hj
    simp only [BitVec.getElem_and, BitVec.getElem_zero]
    rw [← BitVec.getLsbD_eq_getElem (x := motorBit _), getLsbD_motorBit, ← BitVec.getLsbD_eq_getElem]
    by_cases hji : j = i.val
    · subst hji; simp at hc; simp [hc]
    · simp [hji]
  · intro h hz
    have := congrArg (fun v => BitVec.getLsbD v i.val) hz
    simp [getLsbD_motorBit, h] at this
    omega

theorem foldl_mask_getLsbD (rs : List MotorSetting) (a : Mask) (j : Nat) :
    (rs.foldl (fun a r => a ||| motorBit r.number.toNat) a).getLsbD j =
      (a.getLsbD j || rs.any (fun r => (motorBit r.number.toNat).getLsbD j)) := by
  induction rs generalizing a with
  | nil => simp
  | cons r rs ih => simp [ih, Bool.or_assoc]

/-- A bit of the records' union is set exactly when some record's motor bit sets it. -/
theorem getLsbD_recordMask (rs : List MotorSetting) (j : Nat) :
    (recordMask rs).getLsbD j = rs.any (fun r => (motorBit r.number.toNat).getLsbD j) := by
  simp [recordMask, foldl_mask_getLsbD]

theorem recordMask_append_one (rs : List MotorSetting) (r : MotorSetting) :
    recordMask (rs ++ [r]) = recordMask rs ||| motorBit r.number.toNat := by
  simp [recordMask, List.foldl_append]

theorem msdValid_iff (r : MotorSetting) :
    msdValid r = true ↔ (1 ≤ r.number.toNat ∧ r.number.toNat ≤ 10) ∧ r.acceleration ≠ 0#32 ∧ r.maxSpeed ≠ 0#32 := by
  simp only [msdValid, Bool.and_eq_true, decide_eq_true_eq, and_assoc]
  simp only [maxMotors]

/-- A valid record's motor has a line. -/
theorem motorIndex_of_valid {r : MotorSetting} (h : msdValid r = true) :
    ∃ i : Fin 10, motorIndex r = some i ∧ i.val + 1 = r.number.toNat := by
  have ⟨h1, _⟩ := (msdValid_iff r).mp h
  exact ⟨⟨r.number.toNat - 1, by omega⟩, by simp [motorIndex, h1], by simp only; omega⟩

/-- A union of valid records' bits lies in bits 0 to 9. -/
theorem recordMask_high (rs : List MotorSetting) (h : ∀ r ∈ rs, msdValid r = true) (j : Nat) (hj : 10 ≤ j) :
    (recordMask rs).getLsbD j = false := by
  rw [getLsbD_recordMask, List.any_eq_false]
  intro r hr
  have ⟨h1, _⟩ := (msdValid_iff r).mp (h r hr)
  rw [getLsbD_motorBit]
  simp; omega

/-! ## Record lists -/

/-- The records SEQ_START and the move handlers accept: each decodes and is valid, in index order. -/
theorem msdRecords_eq_ok (buf : Mem) (k n : Nat) (rs : List MotorSetting) :
    msdRecords buf k n = .ok rs ↔
      rs.length = n ∧ ∀ i, i < n → ∃ r, rs[i]? = some r ∧ msdDecode buf (k + i) = some r ∧ msdValid r = true := by
  induction n generalizing k rs with
  | zero => simp [msdRecords]
  | succ n ih =>
    simp only [msdRecords]
    constructor
    · intro h
      split at h
      · cases h
      · rename_i r hr
        split at h
        · rename_i hv
          split at h
          · rename_i rs' hrs
            cases h
            have ⟨h1, h2⟩ := (ih (k + 1) rs').mp hrs
            refine ⟨by simp [h1], fun i hi => ?_⟩
            cases i with
            | zero => exact ⟨r, by simp, by simpa using hr, hv⟩
            | succ i =>
              obtain ⟨r', ha, hb, hc⟩ := h2 i (by omega)
              exact ⟨r', by simpa using ha, by rw [← hb]; congr 1; omega, hc⟩
          · cases h
        · cases h
    · rintro ⟨h1, h2⟩
      cases rs with
      | nil => simp at h1
      | cons r rs =>
        obtain ⟨r', ha, hb, hc⟩ := h2 0 (by omega)
        simp only [List.getElem?_cons_zero, Option.some.injEq, Nat.add_zero] at ha hb
        subst ha
        have := (ih (k + 1) rs).mpr ⟨by simpa using h1, fun i hi => by
          obtain ⟨r', ha, hb, hc⟩ := h2 (i + 1) (by omega)
          exact ⟨r', by simpa using ha, by rw [← hb]; congr 1; omega, hc⟩⟩
        simp [hb, hc, this]

/-- Records that all pass give a list. -/
theorem msdRecords_ok_of_accepted (buf : Mem) (n k : Nat)
    (h : ∀ i, i < n → ∃ r, msdDecode buf (k + i) = some r ∧ msdValid r = true) : ∃ rs, msdRecords buf k n = .ok rs := by
  induction n generalizing k with
  | zero => exact ⟨[], rfl⟩
  | succ n ih =>
    obtain ⟨r, hr, hv⟩ := h 0 (by omega)
    obtain ⟨rs, hrs⟩ := ih (k + 1) (fun i hi => by
      obtain ⟨r, hr, hv⟩ := h (i + 1) (by omega)
      exact ⟨r, by rw [← hr]; congr 1; omega, hv⟩)
    simp only [Nat.add_zero] at hr
    exact ⟨r :: rs, by simp [msdRecords, hr, hv, hrs]⟩

/-- The first failing record decides the refusal. -/
theorem msdRecords_first_failure (buf : Mem) (n k i : Nat) (hi : i < n)
    (hbefore : ∀ j, j < i → ∃ r, msdDecode buf (k + j) = some r ∧ msdValid r = true) :
    (msdDecode buf (k + i) = none → msdRecords buf k n = .error .refStartUnwritten) ∧
    (∀ r, msdDecode buf (k + i) = some r → msdValid r = false → msdRecords buf k n = .error .refStartInvalid) := by
  induction n generalizing k i with
  | zero => omega
  | succ n ih =>
    cases i with
    | zero =>
      simp only [Nat.add_zero, msdRecords]
      exact ⟨fun h => by simp [h], fun r h hv => by simp [h, hv]⟩
    | succ i =>
      obtain ⟨r, hr, hv⟩ := hbefore 0 (by omega)
      simp only [Nat.add_zero] at hr
      have := ih (k + 1) i (by omega) (fun j hj => by
        obtain ⟨r, hr, hv⟩ := hbefore (j + 1) (by omega)
        exact ⟨r, by rw [← hr]; congr 1; omega, hv⟩)
      rw [show k + 1 + i = k + (i + 1) by omega] at this
      exact ⟨fun h => by simp [msdRecords, hr, hv, this.1 h], fun r' h hv' => by simp [msdRecords, hr, hv, this.2 r' h hv']⟩

/-! ## Bytes and checksums -/

theorem toNat_le32 (b0 b1 b2 b3 : Byte) :
    (le32 b0 b1 b2 b3).toNat = b0.toNat + 256 * b1.toNat + 65536 * b2.toNat + 16777216 * b3.toNat := by
  have h0 := b0.isLt; have h1 := b1.isLt; have h2 := b2.isLt; have h3 := b3.isLt
  simp only [le32, BitVec.toNat_append]
  rw [← Nat.shiftLeft_add_eq_or_of_lt h0, ← Nat.shiftLeft_add_eq_or_of_lt h1, ← Nat.shiftLeft_add_eq_or_of_lt h2]
  simp only [Nat.shiftLeft_eq]; omega

@[simp] theorem xorFrom_nil (x : Byte) : xorFrom x [] = x := rfl
@[simp] theorem xorFrom_cons (x b : Byte) (bs : List Byte) : xorFrom x (b :: bs) = xorFrom (x ^^^ b) bs := rfl

theorem xorFrom_append (x : Byte) (as bs : List Byte) : xorFrom x (as ++ bs) = xorFrom (xorFrom x as) bs := by
  simp [xorFrom, List.foldl_append]

/-- A difference in the start value goes through the whole span. -/
theorem xorFrom_xor (x y : Byte) (bs : List Byte) : xorFrom (x ^^^ y) bs = xorFrom x bs ^^^ y := by
  induction bs generalizing x with
  | nil => rfl
  | cons b bs ih =>
    rw [xorFrom_cons, xorFrom_cons, ← ih]
    congr 1
    rw [BitVec.xor_assoc, BitVec.xor_comm y b, ← BitVec.xor_assoc]

/-- A Length from its two bytes: `{LenH, LenL}` (R64). -/
theorem toNat_lenHigh_lenLow (l : BitVec 16) : (lenHigh l).toNat * 256 + (lenLow l).toNat = l.toNat := by
  have := l.isLt
  simp only [lenHigh, lenLow, BitVec.extractLsb'_toNat, Nat.shiftRight_eq_div_pow]
  omega

theorem toNat_frameLength (n : Byte) : (frameLength n).toNat = 5 + n.toNat := by
  have := n.isLt
  simp only [frameLength, BitVec.toNat_add, BitVec.toNat_ofNat, BitVec.toNat_setWidth]
  omega

@[simp] theorem length_frameBytes (l : BitVec 16) (c : Byte) (data : List Byte) : (frameBytes l c data).length = data.length + 5 := by
  simp [frameBytes]

@[simp] theorem length_mbusFrame (cmd : Byte) (r : MotorSetting) : (mbusFrame cmd r).length = 14 := rfl

end Sys2Proof.Machine
end

