-- ==== Sys2Proof/Laws/State.lean ====
section
/-! SUPPORT. For each named update of the state, what each field is after it; for the updates of the decoder and the engine likewise. -/

namespace Sys2Proof.Machine

@[simp] theorem State.setDec_dec (s : State) (d : Decoder) : (s.setDec d).dec = d := rfl
@[simp] theorem State.setDec_enc (s : State) (d : Decoder) : (s.setDec d).enc = s.enc := rfl
@[simp] theorem State.setDec_seq (s : State) (d : Decoder) : (s.setDec d).seq = s.seq := rfl
@[simp] theorem State.setDec_refused (s : State) (d : Decoder) : (s.setDec d).refused = s.refused := rfl
@[simp] theorem State.setDec_hist (s : State) (d : Decoder) : (s.setDec d).hist = s.hist := rfl
@[simp] theorem State.setDec_port (s : State) (d : Decoder) : (s.setDec d).port = s.port := rfl
@[simp] theorem State.setDec_ctl (s : State) (d : Decoder) : (s.setDec d).ctl = s.ctl := rfl
@[simp] theorem State.setDec_draws (s : State) (d : Decoder) : (s.setDec d).draws = s.draws := rfl

@[simp] theorem State.setEnc_dec (s : State) (e : Encoder) : (s.setEnc e).dec = s.dec := rfl
@[simp] theorem State.setEnc_enc (s : State) (e : Encoder) : (s.setEnc e).enc = e := rfl
@[simp] theorem State.setEnc_seq (s : State) (e : Encoder) : (s.setEnc e).seq = s.seq := rfl
@[simp] theorem State.setEnc_refused (s : State) (e : Encoder) : (s.setEnc e).refused = s.refused := rfl
@[simp] theorem State.setEnc_hist (s : State) (e : Encoder) : (s.setEnc e).hist = s.hist := rfl
@[simp] theorem State.setEnc_port (s : State) (e : Encoder) : (s.setEnc e).port = s.port := rfl
@[simp] theorem State.setEnc_ctl (s : State) (e : Encoder) : (s.setEnc e).ctl = s.ctl := rfl
@[simp] theorem State.setEnc_draws (s : State) (e : Encoder) : (s.setEnc e).draws = s.draws := rfl

@[simp] theorem State.setSeq_dec (s : State) (e : Engine) : (s.setSeq e).dec = s.dec := rfl
@[simp] theorem State.setSeq_enc (s : State) (e : Engine) : (s.setSeq e).enc = s.enc := rfl
@[simp] theorem State.setSeq_seq (s : State) (e : Engine) : (s.setSeq e).seq = e := rfl
@[simp] theorem State.setSeq_refused (s : State) (e : Engine) : (s.setSeq e).refused = s.refused := rfl
@[simp] theorem State.setSeq_hist (s : State) (e : Engine) : (s.setSeq e).hist = s.hist := rfl
@[simp] theorem State.setSeq_port (s : State) (e : Engine) : (s.setSeq e).port = s.port := rfl
@[simp] theorem State.setSeq_ctl (s : State) (e : Engine) : (s.setSeq e).ctl = s.ctl := rfl
@[simp] theorem State.setSeq_draws (s : State) (e : Engine) : (s.setSeq e).draws = s.draws := rfl

@[simp] theorem State.setPort_dec (s : State) (p : List Arrival) : (s.setPort p).dec = s.dec := rfl
@[simp] theorem State.setPort_enc (s : State) (p : List Arrival) : (s.setPort p).enc = s.enc := rfl
@[simp] theorem State.setPort_seq (s : State) (p : List Arrival) : (s.setPort p).seq = s.seq := rfl
@[simp] theorem State.setPort_refused (s : State) (p : List Arrival) : (s.setPort p).refused = s.refused := rfl
@[simp] theorem State.setPort_hist (s : State) (p : List Arrival) : (s.setPort p).hist = s.hist := rfl
@[simp] theorem State.setPort_port (s : State) (p : List Arrival) : (s.setPort p).port = p := rfl
@[simp] theorem State.setPort_ctl (s : State) (p : List Arrival) : (s.setPort p).ctl = s.ctl := rfl
@[simp] theorem State.setPort_draws (s : State) (p : List Arrival) : (s.setPort p).draws = s.draws := rfl

@[simp] theorem State.setCtl_dec (s : State) (c : List CtlItem) : (s.setCtl c).dec = s.dec := rfl
@[simp] theorem State.setCtl_enc (s : State) (c : List CtlItem) : (s.setCtl c).enc = s.enc := rfl
@[simp] theorem State.setCtl_seq (s : State) (c : List CtlItem) : (s.setCtl c).seq = s.seq := rfl
@[simp] theorem State.setCtl_refused (s : State) (c : List CtlItem) : (s.setCtl c).refused = s.refused := rfl
@[simp] theorem State.setCtl_hist (s : State) (c : List CtlItem) : (s.setCtl c).hist = s.hist := rfl
@[simp] theorem State.setCtl_port (s : State) (c : List CtlItem) : (s.setCtl c).port = s.port := rfl
@[simp] theorem State.setCtl_ctl (s : State) (c : List CtlItem) : (s.setCtl c).ctl = c := rfl
@[simp] theorem State.setCtl_draws (s : State) (c : List CtlItem) : (s.setCtl c).draws = s.draws := rfl

@[simp] theorem State.clearDone_dec (s : State) : (s.clearDone).dec = { s.dec with frameDone := false } := rfl
@[simp] theorem State.clearDone_enc (s : State) : (s.clearDone).enc = s.enc := rfl
@[simp] theorem State.clearDone_seq (s : State) : (s.clearDone).seq = s.seq := rfl
@[simp] theorem State.clearDone_refused (s : State) : (s.clearDone).refused = s.refused := rfl
@[simp] theorem State.clearDone_hist (s : State) : (s.clearDone).hist = s.hist := rfl
@[simp] theorem State.clearDone_port (s : State) : (s.clearDone).port = s.port := rfl
@[simp] theorem State.clearDone_ctl (s : State) : (s.clearDone).ctl = s.ctl := rfl
@[simp] theorem State.clearDone_draws (s : State) : (s.clearDone).draws = s.draws := rfl

@[simp] theorem State.emit_dec (s : State) (evs : List Event) : (s.emit evs).dec = s.dec := rfl
@[simp] theorem State.emit_enc (s : State) (evs : List Event) : (s.emit evs).enc = s.enc := rfl
@[simp] theorem State.emit_seq (s : State) (evs : List Event) : (s.emit evs).seq = s.seq := rfl
@[simp] theorem State.emit_refused (s : State) (evs : List Event) : (s.emit evs).refused = s.refused := rfl
@[simp] theorem State.emit_hist (s : State) (evs : List Event) : (s.emit evs).hist = s.hist ++ evs := rfl
@[simp] theorem State.emit_port (s : State) (evs : List Event) : (s.emit evs).port = s.port := rfl
@[simp] theorem State.emit_ctl (s : State) (evs : List Event) : (s.emit evs).ctl = s.ctl := rfl
@[simp] theorem State.emit_draws (s : State) (evs : List Event) : (s.emit evs).draws = s.draws := rfl

@[simp] theorem State.drew_dec (s : State) (b : Bool) : (s.drew b).dec = s.dec := rfl
@[simp] theorem State.drew_enc (s : State) (b : Bool) : (s.drew b).enc = s.enc := rfl
@[simp] theorem State.drew_seq (s : State) (b : Bool) : (s.drew b).seq = s.seq := rfl
@[simp] theorem State.drew_refused (s : State) (b : Bool) : (s.drew b).refused = s.refused := rfl
@[simp] theorem State.drew_hist (s : State) (b : Bool) : (s.drew b).hist = s.hist := rfl
@[simp] theorem State.drew_port (s : State) (b : Bool) : (s.drew b).port = s.port := rfl
@[simp] theorem State.drew_ctl (s : State) (b : Bool) : (s.drew b).ctl = s.ctl := rfl
@[simp] theorem State.drew_draws (s : State) (b : Bool) : (s.drew b).draws = if b then s.draws + 1 else s.draws := rfl

@[simp] theorem State.refuse_dec (s : State) (r : RefReason) : (s.refuse r).dec = s.dec := rfl
@[simp] theorem State.refuse_enc (s : State) (r : RefReason) : (s.refuse r).enc = s.enc := rfl
@[simp] theorem State.refuse_seq (s : State) (r : RefReason) : (s.refuse r).seq = s.seq := rfl
@[simp] theorem State.refuse_refused (s : State) (r : RefReason) : (s.refuse r).refused = some r := rfl
@[simp] theorem State.refuse_hist (s : State) (r : RefReason) : (s.refuse r).hist = s.hist := rfl
@[simp] theorem State.refuse_port (s : State) (r : RefReason) : (s.refuse r).port = s.port := rfl
@[simp] theorem State.refuse_ctl (s : State) (r : RefReason) : (s.refuse r).ctl = s.ctl := rfl
@[simp] theorem State.refuse_draws (s : State) (r : RefReason) : (s.refuse r).draws = s.draws := rfl

@[simp] theorem State.runProgram_dec (s : State) (c : List CtlItem) : (s.runProgram c).dec = s.dec := rfl
@[simp] theorem State.runProgram_enc (s : State) (c : List CtlItem) : (s.runProgram c).enc = s.enc := rfl
@[simp] theorem State.runProgram_seq (s : State) (c : List CtlItem) : (s.runProgram c).seq = s.seq := rfl
@[simp] theorem State.runProgram_refused (s : State) (c : List CtlItem) : (s.runProgram c).refused = s.refused := rfl
@[simp] theorem State.runProgram_hist (s : State) (c : List CtlItem) : (s.runProgram c).hist = s.hist := rfl
@[simp] theorem State.runProgram_port (s : State) (c : List CtlItem) : (s.runProgram c).port = s.port := rfl
@[simp] theorem State.runProgram_ctl (s : State) (c : List CtlItem) : (s.runProgram c).ctl = c ++ s.ctl := rfl
@[simp] theorem State.runProgram_draws (s : State) (c : List CtlItem) : (s.runProgram c).draws = s.draws := rfl

@[simp] theorem State.queueReport_dec (s : State) (p : Params) : (s.queueReport p).dec = s.dec := rfl
@[simp] theorem State.queueReport_enc (s : State) (p : Params) : (s.queueReport p).enc = s.enc := rfl
@[simp] theorem State.queueReport_seq (s : State) (p : Params) : (s.queueReport p).seq = s.seq := rfl
@[simp] theorem State.queueReport_refused (s : State) (p : Params) : (s.queueReport p).refused = s.refused := rfl
@[simp] theorem State.queueReport_hist (s : State) (p : Params) : (s.queueReport p).hist = s.hist := rfl
@[simp] theorem State.queueReport_port (s : State) (p : Params) : (s.queueReport p).port = s.port := rfl
@[simp] theorem State.queueReport_ctl (s : State) (p : Params) : (s.queueReport p).ctl = s.ctl ++ optionProgram (p.reportAt .stopEvent) := rfl
@[simp] theorem State.queueReport_draws (s : State) (p : Params) : (s.queueReport p).draws = s.draws := rfl

@[simp] theorem State.resetInput_dec (s : State) (p : List Arrival) : (s.resetInput p).dec = Decoder.reset := rfl
@[simp] theorem State.resetInput_enc (s : State) (p : List Arrival) : (s.resetInput p).enc = Encoder.reset := rfl
@[simp] theorem State.resetInput_seq (s : State) (p : List Arrival) : (s.resetInput p).seq = Engine.reset := rfl
@[simp] theorem State.resetInput_refused (s : State) (p : List Arrival) : (s.resetInput p).refused = none := rfl
@[simp] theorem State.resetInput_hist (s : State) (p : List Arrival) : (s.resetInput p).hist = [] := rfl
@[simp] theorem State.resetInput_port (s : State) (p : List Arrival) : (s.resetInput p).port = p := rfl
@[simp] theorem State.resetInput_ctl (s : State) (p : List Arrival) : (s.resetInput p).ctl = [] := rfl
@[simp] theorem State.resetInput_draws (s : State) (p : List Arrival) : (s.resetInput p).draws = s.draws := rfl

@[simp] theorem Decoder.hardReset_state (d : Decoder) : d.hardReset.state = .waitStx := rfl
@[simp] theorem Decoder.hardReset_len (d : Decoder) : d.hardReset.len = 0#16 := rfl
@[simp] theorem Decoder.hardReset_xor (d : Decoder) : d.hardReset.xor = 0#8 := rfl
@[simp] theorem Decoder.hardReset_cmd (d : Decoder) : d.hardReset.cmd = 0#8 := rfl
@[simp] theorem Decoder.hardReset_cnt (d : Decoder) : d.hardReset.cnt = 0#8 := rfl
@[simp] theorem Decoder.hardReset_buf (d : Decoder) : d.hardReset.buf = [] := rfl
@[simp] theorem Decoder.hardReset_frameDone (d : Decoder) : d.hardReset.frameDone = d.frameDone := rfl

@[simp] theorem Engine.enterComplete_state (e : Engine) : (e.enterComplete).state = .complete := rfl
@[simp] theorem Engine.enterComplete_running (e : Engine) : (e.enterComplete).running = false := rfl
@[simp] theorem Engine.enterComplete_active (e : Engine) : (e.enterComplete).active = e.active := rfl
@[simp] theorem Engine.enterComplete_completed (e : Engine) : (e.enterComplete).completed = e.completed := rfl
@[simp] theorem Engine.enterComplete_pending (e : Engine) : (e.enterComplete).pending = e.pending := rfl
@[simp] theorem Engine.enterComplete_motorCount (e : Engine) : (e.enterComplete).motorCount = e.motorCount := rfl
@[simp] theorem Engine.enterComplete_sendIdx (e : Engine) : (e.enterComplete).sendIdx = e.sendIdx := rfl
@[simp] theorem Engine.enterComplete_tickCounter (e : Engine) : (e.enterComplete).tickCounter = e.tickCounter := rfl
@[simp] theorem Engine.enterComplete_deb (e : Engine) : (e.enterComplete).deb = e.deb := rfl
@[simp] theorem Engine.enterComplete_settings (e : Engine) : (e.enterComplete).settings = e.settings := rfl
@[simp] theorem Engine.enterComplete_key (e : Engine) : (e.enterComplete).key = e.key := rfl

@[simp] theorem Engine.forceComplete_state (e : Engine) : (e.forceComplete).state = .complete := rfl
@[simp] theorem Engine.forceComplete_running (e : Engine) : (e.forceComplete).running = false := rfl
@[simp] theorem Engine.forceComplete_active (e : Engine) : (e.forceComplete).active = e.active := rfl
@[simp] theorem Engine.forceComplete_completed (e : Engine) : (e.forceComplete).completed = e.completed ||| e.pending := rfl
@[simp] theorem Engine.forceComplete_pending (e : Engine) : (e.forceComplete).pending = 0#16 := rfl
@[simp] theorem Engine.forceComplete_motorCount (e : Engine) : (e.forceComplete).motorCount = e.motorCount := rfl
@[simp] theorem Engine.forceComplete_sendIdx (e : Engine) : (e.forceComplete).sendIdx = e.sendIdx := rfl
@[simp] theorem Engine.forceComplete_tickCounter (e : Engine) : (e.forceComplete).tickCounter = e.tickCounter := rfl
@[simp] theorem Engine.forceComplete_deb (e : Engine) : (e.forceComplete).deb = e.deb := rfl
@[simp] theorem Engine.forceComplete_settings (e : Engine) : (e.forceComplete).settings = e.settings := rfl
@[simp] theorem Engine.forceComplete_key (e : Engine) : (e.forceComplete).key = e.key := rfl

@[simp] theorem Engine.sendOne_state (i : Fin 10) (e : Engine) : (e.sendOne i).state = e.state := rfl
@[simp] theorem Engine.sendOne_running (i : Fin 10) (e : Engine) : (e.sendOne i).running = e.running := rfl
@[simp] theorem Engine.sendOne_active (i : Fin 10) (e : Engine) : (e.sendOne i).active = e.active := rfl
@[simp] theorem Engine.sendOne_completed (i : Fin 10) (e : Engine) : (e.sendOne i).completed = e.completed := rfl
@[simp] theorem Engine.sendOne_pending (i : Fin 10) (e : Engine) : (e.sendOne i).pending = e.pending ||| motorBit (i.val + 1) := rfl
@[simp] theorem Engine.sendOne_motorCount (i : Fin 10) (e : Engine) : (e.sendOne i).motorCount = e.motorCount := rfl
@[simp] theorem Engine.sendOne_sendIdx (i : Fin 10) (e : Engine) : (e.sendOne i).sendIdx = e.sendIdx := rfl
@[simp] theorem Engine.sendOne_tickCounter (i : Fin 10) (e : Engine) : (e.sendOne i).tickCounter = e.tickCounter := rfl
@[simp] theorem Engine.sendOne_deb (i : Fin 10) (e : Engine) : (e.sendOne i).deb = e.deb := rfl
@[simp] theorem Engine.sendOne_settings (i : Fin 10) (e : Engine) : (e.sendOne i).settings = e.settings := rfl
@[simp] theorem Engine.sendOne_key (i : Fin 10) (e : Engine) : (e.sendOne i).key = e.key.set i false := rfl

@[simp] theorem Engine.stop_state (e : Engine) : (e.stop).state = .idle := rfl
@[simp] theorem Engine.stop_running (e : Engine) : (e.stop).running = false := rfl
@[simp] theorem Engine.stop_active (e : Engine) : (e.stop).active = e.active := rfl
@[simp] theorem Engine.stop_completed (e : Engine) : (e.stop).completed = e.active := rfl
@[simp] theorem Engine.stop_pending (e : Engine) : (e.stop).pending = 0#16 := rfl
@[simp] theorem Engine.stop_motorCount (e : Engine) : (e.stop).motorCount = e.motorCount := rfl
@[simp] theorem Engine.stop_sendIdx (e : Engine) : (e.stop).sendIdx = e.sendIdx := rfl
@[simp] theorem Engine.stop_tickCounter (e : Engine) : (e.stop).tickCounter = e.tickCounter := rfl
@[simp] theorem Engine.stop_deb (e : Engine) : (e.stop).deb = e.deb := rfl
@[simp] theorem Engine.stop_settings (e : Engine) : (e.stop).settings = e.settings := rfl
@[simp] theorem Engine.stop_key (e : Engine) : (e.stop).key = Vector.replicate 10 false := rfl

@[simp] theorem Engine.start_state (n : BitVec 4) (rs : List MotorSetting) (e : Engine) : (e.start n rs).state = .checkingRx := rfl
@[simp] theorem Engine.start_running (n : BitVec 4) (rs : List MotorSetting) (e : Engine) : (e.start n rs).running = true := rfl
@[simp] theorem Engine.start_active (n : BitVec 4) (rs : List MotorSetting) (e : Engine) : (e.start n rs).active = recordMask rs := rfl
@[simp] theorem Engine.start_completed (n : BitVec 4) (rs : List MotorSetting) (e : Engine) : (e.start n rs).completed = 0#16 := rfl
@[simp] theorem Engine.start_pending (n : BitVec 4) (rs : List MotorSetting) (e : Engine) : (e.start n rs).pending = 0#16 := rfl
@[simp] theorem Engine.start_motorCount (n : BitVec 4) (rs : List MotorSetting) (e : Engine) : (e.start n rs).motorCount = n := rfl
@[simp] theorem Engine.start_sendIdx (n : BitVec 4) (rs : List MotorSetting) (e : Engine) : (e.start n rs).sendIdx = 0#4 := rfl
@[simp] theorem Engine.start_tickCounter (n : BitVec 4) (rs : List MotorSetting) (e : Engine) : (e.start n rs).tickCounter = 0#32 := rfl
@[simp] theorem Engine.start_deb (n : BitVec 4) (rs : List MotorSetting) (e : Engine) : (e.start n rs).deb = Vector.replicate 10 0#16 := rfl
@[simp] theorem Engine.start_settings (n : BitVec 4) (rs : List MotorSetting) (e : Engine) : (e.start n rs).settings = latchRecords e.settings rs := rfl
@[simp] theorem Engine.start_key (n : BitVec 4) (rs : List MotorSetting) (e : Engine) : (e.start n rs).key = e.key := rfl

end Sys2Proof.Machine
end

