-- ==== Sys2Proof/Laws/Step.lean ====
section
/-! SUPPORT. What exec and step can do: one inversion lemma for the meanings, one for the step. -/

namespace Sys2Proof.Machine

/-! ## What each shared operation of the meanings answers -/

/-- RX_BYTE answers the decoder's own step. -/
theorem exec_rxByte_eq (b : Byte) (s : State) :
    exec (.rxByte b) s = match s.dec.rxByte b with
      | .ok d => .next (s.setDec d)
      | .error f => .fault f := rfl

/-- The checks of a move command end in one program of the controller, or in a refusal. -/
theorem checkMove_cases (p : Params) (sync : Bool) (s : State) :
    (∃ c, checkMove p sync s = s.runProgram c) ∨ (∃ r, checkMove p sync s = s.refuse r) := by
  unfold checkMove
  dsimp only
  split
  · exact Or.inl ⟨_, rfl⟩
  · split
    · exact Or.inl ⟨_, rfl⟩
    · split
      · unfold acceptMove
        split <;> exact Or.inl ⟨_, rfl⟩
      · exact Or.inl ⟨_, rfl⟩
      · exact Or.inr ⟨_, rfl⟩

/-- A move handler does one of three things: it starts the move, answers, or records a refusal; only the controller's program and the
mark can change. -/
theorem handleMove_cases (p : Params) (sync : Bool) (s : State) :
    (∃ c, handleMove p sync s = s.runProgram c) ∨ (∃ r, handleMove p sync s = s.refuse r) := by
  have hcheck := checkMove_cases p sync s
  unfold handleMove
  split
  · split
    · exact Or.inl ⟨_, rfl⟩
    · exact hcheck
  · exact hcheck

/-- Everything an instruction that answers a next state can do. -/
theorem exec_cases {i : Instr} {s t : State} (h : exec i s = .next t) :
    (∃ r, t = s.refuse r) ∨
    (∃ c b, (∀ w, encode i ≠ .opw w) ∧ t = (s.runProgram c).drew b) ∨
    (∃ b d, i = .rxByte b ∧ s.dec.rxByte b = .ok d ∧ t = s.setDec d) ∨
    (i = .decClear ∧ t = s.clearDone.setDec s.clearDone.dec.hardReset) ∨
    (i = .nop ∧ t = s.clearDone) ∨
    (∃ c data, i = .encFrame c ∧ Mem.readSpan s.enc.txb 0 s.enc.txbLen.toNat = some data ∧
      t = s.clearDone.emit ((frameBytes (frameLength s.enc.txbLen) c data).map Event.host)) ∨
    (∃ b, i = .txbPush b ∧ s.enc.txbLen.toNat < payloadMax ∧
      t = s.clearDone.setEnc { txb := Mem.write s.enc.txb s.enc.txbLen.toNat b, txbLen := s.enc.txbLen + 1#8 }) ∨
    (i = .txbClear ∧ t = s.clearDone.setEnc { s.enc with txbLen := 0#8 }) ∨
    (∃ n rs, i = .seqStart n ∧ startRecords s.dec.buf n = .ok rs ∧
      t = ((s.clearDone.setSeq (s.seq.start n rs)).emit (drainEvents Config.params (Config.mbRxBytes s.draws))).drew true) ∨
    (∃ e evs, i = .seqTick ∧ s.seq.tick Config.params (Config.busyLevels s.draws) (Config.mbRxBytes s.draws) = .ok (e, evs) ∧
      t = ((s.clearDone.setSeq e).emit evs).drew s.seq.drawsInput) ∨
    (i = .seqStop ∧ t = (s.clearDone.setSeq s.seq.stop).emit s.seq.stopEvents) := by
  have hmove : ∀ sync, (∀ w, encode i ≠ .opw w) → Host.Outcome.next (ρ := Refusal) (φ := Fault) (handleMove Config.params sync s) = .next t →
      (∃ r, t = s.refuse r) ∨ (∃ c b, (∀ w, encode i ≠ .opw w) ∧ t = (s.runProgram c).drew b) := by
    intro sync hw h
    injection h with h
    rcases handleMove_cases Config.params sync s with ⟨c, hc⟩ | ⟨r, hr⟩
    · exact Or.inr ⟨c, false, hw, by rw [← h, hc]; rfl⟩
    · exact Or.inl ⟨r, by rw [← h, hr]⟩
  cases i with
  | nop => simp only [exec, execNop] at h; injection h with h; simp [h]
  | rxByte b =>
    simp only [exec, execRxByte] at h
    split at h
    · rename_i d hd; injection h with h
      exact Or.inr (Or.inr (Or.inl ⟨b, d, rfl, hd, h.symm⟩))
    · cases h
  | decClear => simp only [exec, execDecClear] at h; injection h with h; exact Or.inr (Or.inr (Or.inr (Or.inl ⟨rfl, h.symm⟩)))
  | encFrame c =>
    simp only [exec, execEncFrame] at h
    split at h
    · rename_i data hdata; injection h with h
      exact Or.inr (Or.inr (Or.inr (Or.inr (Or.inr (Or.inl ⟨c, data, rfl, hdata, h.symm⟩)))))
    · cases h
  | txbPush b =>
    simp only [exec, execTxbPush] at h
    split at h
    · injection h with h; exact Or.inl ⟨_, h.symm⟩
    · split at h
      · rename_i hlt; injection h with h
        exact Or.inr (Or.inr (Or.inr (Or.inr (Or.inr (Or.inr (Or.inl ⟨b, rfl, hlt, h.symm⟩))))))
      · cases h
  | txbClear => simp only [exec, execTxbClear] at h; injection h with h; simp [h]
  | seqStart n =>
    simp only [exec, execSeqStart] at h
    split at h
    · injection h with h; exact Or.inl ⟨_, h.symm⟩
    · rename_i rs hrs; injection h with h
      exact Or.inr (Or.inr (Or.inr (Or.inr (Or.inr (Or.inr (Or.inr (Or.inr (Or.inl ⟨n, rs, rfl, hrs, h.symm⟩))))))))
  | seqTick =>
    simp only [exec, execSeqTick] at h
    split at h
    · rename_i e evs he; injection h with h
      exact Or.inr (Or.inr (Or.inr (Or.inr (Or.inr (Or.inr (Or.inr (Or.inr (Or.inr (Or.inl ⟨e, evs, rfl, he, h.symm⟩)))))))))
    · cases h
  | seqStop => simp only [exec, execSeqStop] at h; injection h with h; simp [h]
  | reserved9 w => simp only [exec, execReserved9] at h; injection h with h; exact Or.inl ⟨_, h.symm⟩
  | reservedAB w => simp only [exec, execReservedAB] at h; injection h with h; exact Or.inl ⟨_, h.symm⟩
  | reservedCF w => simp only [exec, execReservedCF] at h; injection h with h; exact Or.inl ⟨_, h.symm⟩
  | cmdVersion => simp only [exec, execCmdVersion] at h; injection h with h; exact Or.inr (Or.inl ⟨_, false, by simp [encode], h.symm⟩)
  | cmdStatus => simp only [exec, execCmdStatus] at h; injection h with h; exact Or.inr (Or.inl ⟨_, false, by simp [encode], h.symm⟩)
  | cmdStop => simp only [exec, execCmdStop] at h; injection h with h; exact Or.inr (Or.inl ⟨_, false, by simp [encode], h.symm⟩)
  | cmdSyncMove =>
    rcases hmove true (by simp [encode]) h with h | h
    · exact Or.inl h
    · exact Or.inr (Or.inl h)
  | cmdAsyncMove =>
    rcases hmove false (by simp [encode]) h with h | h
    · exact Or.inl h
    · exact Or.inr (Or.inl h)
  | rspVersion => simp only [exec, execRspVersion] at h; injection h with h; exact Or.inr (Or.inl ⟨_, false, by simp [encode], h.symm⟩)
  | rspStatus => simp only [exec, execRspStatus] at h; injection h with h; exact Or.inr (Or.inl ⟨_, true, by simp [encode], h.symm⟩)
  | rspStop => simp only [exec, execRspStop] at h; injection h with h; exact Or.inr (Or.inl ⟨_, false, by simp [encode], h.symm⟩)
  | rspMove => simp only [exec, execRspMove] at h; injection h with h; exact Or.inr (Or.inl ⟨_, false, by simp [encode], h.symm⟩)
  | rspError e => simp only [exec, execRspError] at h; injection h with h; exact Or.inr (Or.inl ⟨_, false, by simp [encode], h.symm⟩)

/-! ## The step -/

/-- A step whose code decodes runs the instruction. -/
theorem step_run_ok {s t : State} {c : Code} {i : Instr} (h : fetch s = .run c t) (hd : decode c = .ok i) : step s = exec i t := by
  simp only [step, h, hd]

/-- A step whose code is rejected does what the rejection says. -/
theorem step_run_error {s t : State} {c : Code} {r : Reject} (h : fetch s = .run c t) (hd : decode c = .error r) :
    step s = rejected r t := by
  simp only [step, h, hd]

/-- The state a fetched code runs on differs from the machine's only in the arrivals and the controller's program. -/
theorem fetch_run_frame {s t : State} {c : Code} (h : fetch s = .run c t) : ∃ p q, t = { s with port := p, ctl := q } := by
  unfold fetch at h
  split at h
  · split at h <;> cases h
  · cases h
  · split at h <;> cases h
  · split at h
    · cases h
    · cases h; exact ⟨_, _, rfl⟩
  · split at h
    · cases h
    · unfold controllerTurn at h
      split at h
      · split at h
        · cases h; exact ⟨_, _, rfl⟩
        · cases h
      · cases h; exact ⟨_, _, rfl⟩
      · cases h; exact ⟨_, _, rfl⟩
      · split at h <;> cases h

/-- A step without an instruction resets the machine or changes only the arrivals and the controller's program. -/
theorem fetch_noOp_cases {s t : State} (h : fetch s = .noOp t) :
    (∃ p q, t = { s with port := p, ctl := q }) ∨ (∃ rest, s.port = .resetInput :: rest ∧ t = s.resetInput rest) := by
  unfold fetch at h
  split at h
  · split at h
    · cases h
    · cases h; exact Or.inl ⟨_, _, rfl⟩
  · rename_i rest hp; cases h; exact Or.inr ⟨rest, hp, rfl⟩
  · split at h
    · cases h
    · cases h; exact Or.inl ⟨_, _, rfl⟩
  · split at h <;> cases h
  · split at h
    · cases h
    · unfold controllerTurn at h
      split at h
      · split at h
        · cases h
        · cases h; exact Or.inl ⟨_, _, rfl⟩
      · cases h
      · cases h
      · split at h
        · cases h; exact Or.inl ⟨_, _, rfl⟩
        · cases h; exact Or.inl ⟨_, _, rfl⟩

/-- Everything a step that answers a next state can do: change only the arrivals and the controller's program, reset the machine, record a refusal,
or run one instruction. -/
theorem step_cases {s t : State} (h : step s = .next t) :
    (∃ p q, t = { s with port := p, ctl := q }) ∨
    (∃ rest, s.port = .resetInput :: rest ∧ t = s.resetInput rest) ∨
    (∃ p q r, t = State.refuse { s with port := p, ctl := q } r) ∨
    (∃ p q i, exec i { s with port := p, ctl := q } = .next t) := by
  unfold step at h
  split at h
  · rename_i t' hf
    injection h with h
    subst h
    rcases fetch_noOp_cases hf with h | h
    · exact Or.inl h
    · exact Or.inr (Or.inl h)
  · cases h
  · rename_i c t' hf
    obtain ⟨p, q, rfl⟩ := fetch_run_frame hf
    split at h
    · rename_i i _; exact Or.inr (Or.inr (Or.inr ⟨p, q, i, h⟩))
    · rename_i r _
      unfold rejected at h
      split at h
      · injection h with h; exact Or.inr (Or.inr (Or.inl ⟨p, q, _, h.symm⟩))
      · injection h with h
        exact Or.inl ⟨p, errorProgram errInvalidCommand ++ q, h.symm⟩
      · cases h

end Sys2Proof.Machine
end

