-- ==== Sys2Proof/Laws/Controller.lean ====
section
/-! SUPPORT. What the controller's turns do: one turn, a whole `SEND` (30_encoding.md R103), and a response that an open parameter may hold. -/

namespace Sys2Proof.Machine

/-! ## Steps in sequence -/

/-- A run of `m + n` steps whose first `m` answer a next state goes on from that state. -/
theorem stepN_add {m : Nat} {s t : State} (n : Nat) (h : stepN m s = .next t) : stepN (m + n) s = stepN n t := by
  induction m generalizing s with
  | zero => cases h; rw [Nat.zero_add]
  | succ m ih =>
    rw [Nat.succ_add]
    simp only [stepN] at h ⊢
    split at h
    · exact ih h
    · cases h
    · cases h

/-- One step of a run. -/
theorem stepN_one {s t : State} (h : step s = .next t) : stepN 1 s = .next t := by simp only [stepN, h]

/-! ## One turn -/

/-- The controller's turn issues the operation word at the head of its program. -/
theorem step_controller_op {s : State} {w : OpWord} {i : Instr} {q : List CtlItem} {rest : List Arrival} (hr : s.refused = none)
    (hp : s.port = .controller :: rest) (hc : s.ctl = .op w :: q) (hd : decode (.opw w) = .ok i) :
    step s = exec i ((s.setPort rest).setCtl q) := by
  simp only [step, fetch, hr, hp, controllerTurn, State.setPort_ctl, hc, hd]

/-- The controller's turn runs the response at the head of its program. -/
theorem step_controller_rsp {s : State} {c e : Byte} {i : Instr} {q : List CtlItem} {rest : List Arrival} (hr : s.refused = none)
    (hp : s.port = .controller :: rest) (hc : s.ctl = .rsp c e :: q) (hd : decode (.rsp c e) = .ok i) :
    step s = exec i ((s.setPort rest).setCtl q) := by
  simp only [step, fetch, hr, hp, controllerTurn, State.setPort_ctl, hc, hd]

/-! ## A whole SEND -/

/-- The words of a `SEND` decode to its three operations. -/
theorem decode_sendWords : decode (.opw (opWord 0x5#4 0#4 0#8)) = .ok .txbClear ∧
    (∀ b : Byte, decode (.opw (opWord 0x4#4 0#4 b)) = .ok (.txbPush b)) ∧ (∀ c : Byte, decode (.opw (opWord 0x3#4 0#4 c)) = .ok (.encFrame c)) := by
  decide +revert

/-- Turns that push `data` behind the bytes `sent`, which are queued already. -/
theorem stepN_pushes (data sent : List Byte) (s : State) (rest : List Arrival) (q : List CtlItem) (hr : s.refused = none)
    (hd : s.dec.frameDone = false) (hp : s.port = List.replicate data.length .controller ++ rest)
    (hc : s.ctl = data.map (fun b => CtlItem.op (opWord 0x4#4 0#4 b)) ++ q) (hl : s.enc.txbLen.toNat = sent.length)
    (hb : ∀ i, i < sent.length → Mem.read s.enc.txb i = sent[i]?) (hmax : sent.length + data.length ≤ 251) :
    ∃ e : Encoder, stepN data.length s = .next { s with enc := e, port := rest, ctl := q } ∧ e.txbLen.toNat = (sent ++ data).length ∧
      ∀ i, i < (sent ++ data).length → Mem.read e.txb i = (sent ++ data)[i]? := by
  induction data generalizing sent s with
  | nil =>
    refine ⟨s.enc, ?_, by simpa using hl, by simpa using hb⟩
    simp only [List.length_nil, List.replicate_zero, List.nil_append, List.map_nil] at hp hc
    rw [List.length_nil, stepN, ← hp, ← hc]
  | cons b data ih =>
    simp only [List.length_cons] at hmax
    have hlt : s.enc.txbLen.toNat < payloadMax := by rw [hl, payloadMax]; omega
    have hstep : step s = .next { s with
        enc := { txb := Mem.write s.enc.txb s.enc.txbLen.toNat b, txbLen := s.enc.txbLen + 1#8 },
        port := List.replicate data.length .controller ++ rest, ctl := data.map (fun b => CtlItem.op (opWord 0x4#4 0#4 b)) ++ q } := by
      rw [step_controller_op hr hp hc (decode_sendWords.2.1 b)]
      have hdec : ({ s.dec with frameDone := false } : Decoder) = s.dec := by rw [← hd]
      simp only [exec, execTxbPush, State.setCtl_enc, State.setPort_enc, hlt, Nat.ne_of_lt hlt, if_true, if_false]
      simp only [State.clearDone, State.setEnc, State.setPort, State.setCtl, hdec]
      rfl
    have hcount : (s.enc.txbLen + 1#8).toNat = sent.length + 1 := by rw [BitVec.toNat_add, hl, BitVec.toNat_ofNat]; omega
    obtain ⟨e, h1, h2, h3⟩ := ih (sent ++ [b]) { s with
        enc := { txb := Mem.write s.enc.txb s.enc.txbLen.toNat b, txbLen := s.enc.txbLen + 1#8 },
        port := List.replicate data.length .controller ++ rest, ctl := data.map (fun b => CtlItem.op (opWord 0x4#4 0#4 b)) ++ q } hr hd rfl rfl (by rw [List.length_append]; exact hcount)
      (fun i hi => by
        simp only [List.length_append, List.length_singleton] at hi
        by_cases he : i = sent.length
        · rw [he, ← hl, Mem.read_write_same, hl]; simp
        · have hlt : i < sent.length := by omega
          simp only [List.getElem?_append, hlt, if_true]
          rw [Mem.read_write_other _ _ (by omega)]
          exact hb i hlt)
      (by simp only [List.length_append, List.length_singleton]; omega)
    refine ⟨e, ?_, by simpa using h2, by simpa using h3⟩
    rw [List.length_cons, Nat.add_comm, stepN_add _ (stepN_one hstep)]
    exact h1

/-- A whole `SEND` of a code and at most 251 bytes: the controller's turns put its frame on the host stream, queue its bytes, clear `dec_done` and
write nothing else. -/
theorem stepN_send (c : Byte) (data : List Byte) (s : State) (rest : List Arrival) (q : List CtlItem) (hr : s.refused = none)
    (hp : s.port = List.replicate (sendProgram c data).length .controller ++ rest) (hc : s.ctl = sendProgram c data ++ q)
    (hmax : data.length ≤ 251) :
    ∃ e : Encoder, stepN (sendProgram c data).length s = .next { s with
        dec := { s.dec with frameDone := false }, enc := e, port := rest, ctl := q,
        hist := s.hist ++ (frameBytes (BitVec.ofNat 16 (5 + data.length)) c data).map Event.host } ∧
      e.txbLen.toNat = data.length := by
  have hlen : (sendProgram c data).length = 1 + (data.length + 1) := by simp [sendProgram]; omega
  rw [hlen, Nat.add_comm 1, List.replicate_succ, List.cons_append, List.replicate_succ', List.append_assoc] at hp
  simp only [sendProgram, List.cons_append, List.append_assoc] at hc
  have h1 : step s = .next { s with
      dec := { s.dec with frameDone := false }, enc := { s.enc with txbLen := 0#8 },
      port := List.replicate data.length .controller ++ .controller :: rest,
      ctl := data.map (fun b => CtlItem.op (opWord 0x4#4 0#4 b)) ++ .op (opWord 0x3#4 0#4 c) :: q } := by
    rw [step_controller_op hr hp hc decode_sendWords.1]; rfl
  obtain ⟨e, h2, h3, h4⟩ := stepN_pushes data [] { s with
      dec := { s.dec with frameDone := false }, enc := { s.enc with txbLen := 0#8 },
      port := List.replicate data.length .controller ++ .controller :: rest,
      ctl := data.map (fun b => CtlItem.op (opWord 0x4#4 0#4 b)) ++ .op (opWord 0x3#4 0#4 c) :: q }
    (.controller :: rest) (.op (opWord 0x3#4 0#4 c) :: q) hr rfl rfl rfl rfl (by simp) (by simpa using hmax)
  refine ⟨e, ?_, by simpa using h3⟩
  rw [hlen, stepN_add _ (stepN_one h1), stepN_add _ h2]
  apply stepN_one
  rw [step_controller_op (by exact hr) rfl rfl (decode_sendWords.2.2 c)]
  have hspan : Mem.readSpan e.txb 0 e.txbLen.toNat = some data := by
    rw [h3]; exact (Mem.readSpan_eq_some _ _ _ _).mpr ⟨by simp, fun i hi => by rw [Nat.zero_add]; simpa using h4 i hi⟩
  have hfl : frameLength e.txbLen = BitVec.ofNat 16 (5 + data.length) := by
    apply BitVec.eq_of_toNat_eq
    rw [toNat_frameLength, h3, BitVec.toNat_ofNat, List.nil_append]; omega
  simp only [exec, execEncFrame, State.setCtl_enc, State.setPort_enc, hspan, hfl]
  rfl

/-- A response that an open parameter may hold is sent whole, or takes no turn. -/
theorem stepN_optionProgram (o : Option Response) (s : State) (rest : List Arrival) (q : List CtlItem) (hr : s.refused = none)
    (hd : s.dec.frameDone = false) (hp : s.port = List.replicate (optionProgram o).length .controller ++ rest)
    (hc : s.ctl = optionProgram o ++ q) :
    ∃ e : Encoder, stepN (optionProgram o).length s = .next { s with
        enc := e, port := rest, ctl := q, hist := s.hist ++ (responseFrame o).map Event.host } ∧
      e.txbLen.toNat = (o.map (fun r => r.data.length)).getD s.enc.txbLen.toNat := by
  cases o with
  | none =>
    refine ⟨s.enc, ?_, rfl⟩
    simp only [optionProgram, List.length_nil, List.replicate_zero, List.nil_append] at hp hc
    simp only [optionProgram, List.length_nil, stepN, responseFrame, List.map_nil, List.append_nil, ← hp, ← hc]
  | some r =>
    obtain ⟨e, h1, h2⟩ := stepN_send r.code r.data s rest q hr hp hc (by simp [Response.data, payloadMax])
    refine ⟨e, ?_, h2⟩
    have hdec : ({ s.dec with frameDone := false } : Decoder) = s.dec := by rw [← hd]
    rw [hdec] at h1
    exact h1

/-! ## Move commands -/

/-- An engine that does not run gives a move command no busy answer (R241). -/
theorem busyAnswer_not_running (p : Params) {s : State} (h : s.seq.running = false) : busyAnswer p s = none := by
  simp [busyAnswer, h]

end Sys2Proof.Machine
end

