-- ==== Sys2Proof/Laws/Decoder.lean ====
section
/-! SUPPORT. What the packet decoder's RX_BYTE can do: the invariant kept, and the bytes of a frame one after another. -/

namespace Sys2Proof.Machine

/-! ## The decoder while it receives a frame -/

/-- The decoder that has taken a frame's Length, its Cmd and the Data bytes `ds` so far (R123 to R126). -/
def Decoder.mid (l : BitVec 16) (c : Byte) (ds : List Byte) : Decoder where
  state := if ds.length + 5 = l.toNat then .waitXor else .waitData
  len := l
  xor := frameXor (lenHigh l) (lenLow l) c ds
  cmd := c
  cnt := BitVec.ofNat 8 (4 + ds.length)
  buf := Mem.ofBytes 0 ds
  frameDone := false

/-- The decoder that has taken STX (R122). -/
def Decoder.gotStx : Decoder := { Decoder.reset with cnt := 1#8, state := .waitLenHigh }

/-- The decoder that has taken the high Length byte (R123). -/
def Decoder.gotLenHigh (h : Byte) : Decoder :=
  { Decoder.reset with len := h.setWidth 16 <<< 8, xor := h, cnt := 2#8, state := .waitLenLow }

/-- The decoder that has taken a Length in its range (R124). -/
def Decoder.gotLength (l : BitVec 16) : Decoder :=
  { Decoder.reset with len := l, xor := lenHigh l ^^^ lenLow l, cnt := 3#8, state := .waitCmd }

/-- The decoder that holds an accepted frame (R127, R128). -/
def Decoder.accepted (l : BitVec 16) (c : Byte) (ds : List Byte) (d : Bool) : Decoder :=
  { Decoder.mid l c ds with state := .ready, frameDone := d }

/-- In WaitStx the invariant leaves one decoder, the reset one (R133). -/
theorem Decoder.eq_reset {d : Decoder} (h : d.Inv) (hs : d.state = .waitStx) : d = Decoder.reset := by
  obtain ⟨h1, h2, h3, h4, h5⟩ := h.1.1 hs
  have hd : d.frameDone = false := by
    cases hf : d.frameDone with
    | false => rfl
    | true => rw [h.2 hf] at hs; cases hs
  cases d; simp_all [Decoder.reset]

/-- The hard reset of a decoder whose `dec_done` is 0 is the reset decoder (R129). -/
theorem Decoder.hardReset_eq {d : Decoder} (h : d.frameDone = false) : d.hardReset = Decoder.reset := by
  simp [Decoder.hardReset, Decoder.reset, h]

/-- A Data byte while Data bytes are missing (R126). -/
theorem Decoder.rxByte_mid_data (l : BitVec 16) (c b : Byte) (ds : List Byte) (hlt : ds.length + 5 < l.toNat) (hl : l.toNat ≤ lenMax) :
    (Decoder.mid l c ds).rxByte b = .ok (Decoder.mid l c (ds ++ [b])) := by
  have hmax : l.toNat ≤ 256 := hl
  have hne : ¬ (ds.length + 5 = l.toNat) := by omega
  have hc : (BitVec.ofNat 8 (4 + ds.length)).toNat = 4 + ds.length := by simp; omega
  have hi : (BitVec.ofNat 8 (4 + ds.length) - 4#8).toNat = ds.length := by
    simp only [BitVec.toNat_sub, hc, BitVec.toNat_ofNat]; omega
  have hw : Mem.write (Mem.ofBytes 0 ds) ds.length b = Mem.ofBytes 0 (ds ++ [b]) := by
    have := Mem.write_ofBytes_end 0 ds b; rwa [Nat.zero_add] at this
  have hn : BitVec.ofNat 8 (4 + ds.length) + 1#8 = BitVec.ofNat 8 (4 + (ds ++ [b]).length) := by
    apply BitVec.eq_of_toNat_eq; simp; omega
  have hx : ((BitVec.ofNat 8 (4 + (ds ++ [b]).length)).setWidth 16 = l - 1#16) ↔ (ds ++ [b]).length + 5 = l.toNat := by
    rw [← BitVec.toNat_inj]
    simp only [BitVec.toNat_setWidth, BitVec.toNat_ofNat, BitVec.toNat_sub, List.length_append, List.length_singleton]
    have := l.isLt
    omega
  have hlt' : ds.length < payloadMax := by simp only [payloadMax]; omega
  simp only [Decoder.rxByte, Decoder.mid, hne, if_false, Decoder.rxData, hi, hlt', if_true, hw, hn, hx]
  simp [frameXor, xorFrom_append]

/-- The last byte: the frame is accepted on a match, and the decoder is reset on a mismatch (R127). -/
theorem Decoder.rxByte_mid_xor (l : BitVec 16) (c b : Byte) (ds : List Byte) (h : ds.length + 5 = l.toNat) :
    (Decoder.mid l c ds).rxByte b = .ok (if b = frameXor (lenHigh l) (lenLow l) c ds then Decoder.accepted l c ds true else Decoder.reset) := by
  simp only [Decoder.rxByte, Decoder.mid, Decoder.accepted, h, if_true, Decoder.rxXor]
  split <;> simp [Decoder.hardReset, Decoder.reset]

/-- A byte in Ready is discarded (R128). -/
theorem Decoder.rxByte_accepted (l : BitVec 16) (c b : Byte) (ds : List Byte) (d : Bool) :
    (Decoder.accepted l c ds d).rxByte b = .ok (Decoder.accepted l c ds false) := rfl

/-- The first byte (R122). -/
theorem Decoder.rxByte_reset (b : Byte) :
    Decoder.reset.rxByte b = .ok (if b = stx then Decoder.gotStx else Decoder.reset) := by
  simp only [Decoder.rxByte, Decoder.reset, Decoder.rxStx, Decoder.gotStx]

/-- The high Length byte (R123). -/
theorem Decoder.rxByte_gotStx (b : Byte) : Decoder.gotStx.rxByte b = .ok (Decoder.gotLenHigh b) := rfl

theorem or_length (h l : Byte) : (h.setWidth 16 <<< 8 ||| l.setWidth 16 : BitVec 16) = h ++ l := by
  apply BitVec.eq_of_toNat_eq
  have := h.isLt; have := l.isLt
  simp only [BitVec.toNat_or, BitVec.toNat_shiftLeft, BitVec.toNat_setWidth, BitVec.toNat_append]
  rw [Nat.mod_eq_of_lt (a := h.toNat) (by omega), Nat.mod_eq_of_lt (a := l.toNat) (by omega), Nat.mod_eq_of_lt (by
    rw [Nat.shiftLeft_eq]; omega)]

@[simp] theorem lenHigh_append (h l : Byte) : lenHigh (h ++ l) = h := by
  apply BitVec.eq_of_toNat_eq
  have := h.isLt; have := l.isLt
  simp only [lenHigh, BitVec.extractLsb'_toNat, BitVec.toNat_append]
  rw [← Nat.shiftLeft_add_eq_or_of_lt l.isLt]
  simp only [Nat.shiftLeft_eq, Nat.shiftRight_eq_div_pow]; omega

@[simp] theorem lenLow_append (h l : Byte) : lenLow (h ++ l) = l := by
  apply BitVec.eq_of_toNat_eq
  have := h.isLt; have := l.isLt
  simp only [lenLow, BitVec.extractLsb'_toNat, BitVec.toNat_append]
  rw [← Nat.shiftLeft_add_eq_or_of_lt l.isLt]
  simp only [Nat.shiftLeft_eq, Nat.shiftRight_eq_div_pow]; omega

theorem append_lenHigh_lenLow (l : BitVec 16) : lenHigh l ++ lenLow l = l := by
  apply BitVec.eq_of_toNat_eq
  have := toNat_lenHigh_lenLow l
  simp only [BitVec.toNat_append]
  rw [← Nat.shiftLeft_add_eq_or_of_lt (lenLow l).isLt]
  simp only [Nat.shiftLeft_eq]; omega

/-- The low Length byte, and the Length's range check (R124). -/
theorem Decoder.rxByte_gotLenHigh (h b : Byte) :
    (Decoder.gotLenHigh h).rxByte b =
      .ok (if (h ++ b).toNat < lenMin ∨ lenMax < (h ++ b).toNat then Decoder.reset else Decoder.gotLength (h ++ b)) := by
  simp only [Decoder.rxByte, Decoder.gotLenHigh, Decoder.gotLength, Decoder.rxLenLow, Decoder.reset, or_length, lenHigh_append, lenLow_append]
  split <;> rfl

/-- The Cmd byte (R125). -/
theorem Decoder.rxByte_gotLength (l : BitVec 16) (b : Byte) : (Decoder.gotLength l).rxByte b = .ok (Decoder.mid l b []) := by
  simp only [Decoder.rxByte, Decoder.rxCmd, Decoder.gotLength, Decoder.reset, Decoder.mid, frameXor, List.length_nil,
    Nat.zero_add, xorFrom_nil, Mem.ofBytes]
  simp [lenMin, eq_comm]

/-! ## RX_BYTE keeps the decoder's invariant -/

/-- The decoders that meet the invariant, one form for each stage of a frame. -/
theorem Decoder.inv_iff (d : Decoder) :
    d.Inv ↔ d = Decoder.reset ∨ d = Decoder.gotStx ∨ (∃ h, d = Decoder.gotLenHigh h) ∨
      (∃ l, lenMin ≤ l.toNat ∧ l.toNat ≤ lenMax ∧ d = Decoder.gotLength l) ∨
      (∃ l c ds, ds.length + 5 ≤ l.toNat ∧ l.toNat ≤ lenMax ∧ d = Decoder.mid l c ds) ∨
      (∃ l c ds f, ds.length + 5 = l.toNat ∧ l.toNat ≤ lenMax ∧ d = Decoder.accepted l c ds f) := by
  constructor
  · intro h
    have hf : d.state ≠ .ready → d.frameDone = false := fun hs => by
      cases hd : d.frameDone with
      | false => rfl
      | true => exact absurd (h.2 hd) hs
    obtain ⟨h0, h1, h2, h3, h4, h5⟩ := h.1
    have hext : ∀ t : Decoder, d.state = t.state → d.len = t.len → d.xor = t.xor → d.cmd = t.cmd → d.cnt = t.cnt → d.buf = t.buf →
        d.frameDone = t.frameDone → d = t := by
      intro t; cases d; cases t; simp only [Decoder.mk.injEq]; intro a b c e f g i; exact ⟨a, b, c, e, f, g, i⟩
    have hcnt : 4 ≤ d.cnt.toNat → Mem.writtenBelow d.buf (d.cnt.toNat - 4) → d.cnt = BitVec.ofNat 8 (4 + (Mem.bytes d.buf).length) := by
      intro hc hw
      apply BitVec.eq_of_toNat_eq; have := d.cnt.isLt; simp [Mem.length_bytes hw]; omega
    cases hs : d.state with
    | waitStx => exact Or.inl (Decoder.eq_reset h hs)
    | waitLenHigh =>
      obtain ⟨a1, a2, a3, a4, a5⟩ := h1 hs
      have := hf (by simp [hs])
      right; left; cases d; simp_all [Decoder.gotStx, Decoder.reset]
    | waitLenLow =>
      obtain ⟨a1, a2, a3, a4, a5⟩ := h2 hs
      have := hf (by simp [hs])
      have hlen : d.len = (lenHigh d.len).setWidth 16 <<< 8 := by
        conv_lhs => rw [← append_lenHigh_lenLow d.len, a1, ← or_length]
        simp
      exact Or.inr (Or.inr (Or.inl ⟨lenHigh d.len, hext _ hs hlen a2 a3 a4 a5 this⟩))
    | waitCmd =>
      obtain ⟨a0, a0', a1, a2, a3, a4⟩ := h3 hs
      have := hf (by simp [hs])
      right; right; right; left
      exact ⟨d.len, a0, a0', hext _ hs rfl a1 a2 a3 a4 this⟩
    | waitData =>
      obtain ⟨a1, a2, a3, a4, a5⟩ := h4 hs
      have hfd := hf (by simp [hs])
      have hl := Mem.length_bytes a4
      right; right; right; right; left
      refine ⟨d.len, d.cmd, Mem.bytes d.buf, by omega, a1, ?_⟩
      have hne : ¬ ((Mem.bytes d.buf).length + 5 = d.len.toNat) := by omega
      exact hext _ (by simp [Decoder.mid, hne, hs]) rfl a5 rfl (hcnt a2 a4) (Mem.eq_ofBytes a4) hfd
    | waitXor =>
      obtain ⟨a0, a1, a2, a4, a5⟩ := h5 (Or.inl hs)
      have hfd := hf (by simp [hs])
      have hl := Mem.length_bytes a4
      simp only [lenMin] at a0
      right; right; right; right; left
      refine ⟨d.len, d.cmd, Mem.bytes d.buf, by omega, a1, ?_⟩
      have he : (Mem.bytes d.buf).length + 5 = d.len.toNat := by omega
      exact hext _ (by simp [Decoder.mid, he, hs]) rfl a5 rfl (hcnt (by omega) a4) (Mem.eq_ofBytes a4) hfd
    | ready =>
      obtain ⟨a0, a1, a2, a4, a5⟩ := h5 (Or.inr hs)
      have hl := Mem.length_bytes a4
      simp only [lenMin] at a0
      right; right; right; right; right
      refine ⟨d.len, d.cmd, Mem.bytes d.buf, d.frameDone, by omega, a1, ?_⟩
      exact hext _ hs rfl a5 rfl (hcnt (by omega) a4) (Mem.eq_ofBytes a4) rfl
  · have hmid : ∀ (l : BitVec 16) (c : Byte) (ds : List Byte), ds.length + 5 ≤ l.toNat → l.toNat ≤ lenMax →
        (Decoder.mid l c ds).cnt.toNat = 4 + ds.length ∧ Mem.writtenBelow (Decoder.mid l c ds).buf ds.length ∧ (Decoder.mid l c ds).sumOk := by
      intro l c ds h1 h2
      simp only [lenMax] at h2
      refine ⟨?_, ?_, ?_⟩
      · simp [Decoder.mid]; omega
      · simp only [Decoder.mid, Mem.writtenBelow, Mem.ofBytes_addresses, List.range_eq_range']
      · simp [Decoder.mid, Decoder.sumOk]
    rintro (rfl | rfl | ⟨h, rfl⟩ | ⟨l, h1, h2, rfl⟩ | ⟨l, c, ds, h1, h2, rfl⟩ | ⟨l, c, ds, f, h1, h2, rfl⟩)
    · simp [Decoder.Inv, Decoder.fieldsOk, Decoder.reset]
    · simp [Decoder.Inv, Decoder.fieldsOk, Decoder.reset, Decoder.gotStx]
    · have e : h.setWidth 16 <<< 8 = h ++ 0#8 := by rw [← or_length]; simp
      simp [Decoder.Inv, Decoder.fieldsOk, Decoder.reset, Decoder.gotLenHigh, e]
    · simp [Decoder.Inv, Decoder.fieldsOk, Decoder.reset, Decoder.gotLength, h1, h2]
    · obtain ⟨a1, a2, a3⟩ := hmid l c ds h1 h2
      by_cases he : ds.length + 5 = l.toNat
      · have hs : (Decoder.mid l c ds).state = .waitXor := by simp [Decoder.mid, he]
        refine ⟨⟨?_, ?_, ?_, ?_, ?_, ?_⟩, fun h => by cases h⟩ <;> rw [hs] <;> intro hx <;> try cases hx
        refine ⟨?_, h2, ?_, ?_, a3⟩
        · show 5 ≤ l.toNat; omega
        · rw [a1]; show _ = l.toNat; omega
        · rw [a1, Nat.add_sub_cancel_left]; exact a2
        · cases ‹DecState.waitXor = DecState.ready›
      · have hs : (Decoder.mid l c ds).state = .waitData := by simp [Decoder.mid, he]
        refine ⟨⟨?_, ?_, ?_, ?_, ?_, ?_⟩, fun h => by cases h⟩ <;> rw [hs] <;> intro hx <;> try cases hx
        refine ⟨h2, ?_, ?_, ?_, a3⟩
        · rw [a1]; omega
        · rw [a1]; show _ < l.toNat; omega
        · rw [a1, Nat.add_sub_cancel_left]; exact a2
        all_goals (rename_i hx; cases hx)
    · obtain ⟨a1, a2, a3⟩ := hmid l c ds (by omega) h2
      have hs : (Decoder.accepted l c ds f).state = .ready := rfl
      refine ⟨⟨?_, ?_, ?_, ?_, ?_, ?_⟩, fun h => rfl⟩ <;> rw [hs] <;> intro hx <;> try cases hx
      · rename_i hx; cases hx
      · refine ⟨?_, h2, ?_, ?_, a3⟩
        · show 5 ≤ l.toNat; omega
        · show (Decoder.mid l c ds).cnt.toNat + 1 = l.toNat; rw [a1]; omega
        · show Mem.writtenBelow _ ((Decoder.mid l c ds).cnt.toNat - 4); rw [a1, Nat.add_sub_cancel_left]; exact a2

/-- From a decoder that meets the invariant, RX_BYTE never faults and gives one that meets it (R133). -/
theorem Decoder.rxByte_inv {d : Decoder} (hinv : d.Inv) (b : Byte) : ∃ t, d.rxByte b = .ok t ∧ t.Inv := by
  have hreset : Decoder.reset.Inv := (Decoder.inv_iff _).mpr (Or.inl rfl)
  rcases (Decoder.inv_iff d).mp hinv with rfl | rfl | ⟨h, rfl⟩ | ⟨l, h1, h2, rfl⟩ | ⟨l, c, ds, h1, h2, rfl⟩ | ⟨l, c, ds, f, h1, h2, rfl⟩
  · refine ⟨_, Decoder.rxByte_reset b, ?_⟩
    split
    · exact (Decoder.inv_iff _).mpr (Or.inr (Or.inl rfl))
    · exact hreset
  · exact ⟨_, Decoder.rxByte_gotStx b, (Decoder.inv_iff _).mpr (Or.inr (Or.inr (Or.inl ⟨b, rfl⟩)))⟩
  · refine ⟨_, Decoder.rxByte_gotLenHigh h b, ?_⟩
    split
    · exact hreset
    · exact (Decoder.inv_iff _).mpr (Or.inr (Or.inr (Or.inr (Or.inl ⟨h ++ b, by omega, by omega, rfl⟩))))
  · exact ⟨_, Decoder.rxByte_gotLength l b, (Decoder.inv_iff _).mpr (Or.inr (Or.inr (Or.inr (Or.inr (Or.inl ⟨l, b, [], by simpa [lenMin] using h1, h2, rfl⟩)))))⟩
  · by_cases he : ds.length + 5 = l.toNat
    · refine ⟨_, Decoder.rxByte_mid_xor l c b ds he, ?_⟩
      split
      · exact (Decoder.inv_iff _).mpr (Or.inr (Or.inr (Or.inr (Or.inr (Or.inr ⟨l, c, ds, true, he, h2, rfl⟩)))))
      · exact hreset
    · exact ⟨_, Decoder.rxByte_mid_data l c b ds (by omega) h2,
        (Decoder.inv_iff _).mpr (Or.inr (Or.inr (Or.inr (Or.inr (Or.inl ⟨l, c, ds ++ [b], by simp; omega, h2, rfl⟩)))))⟩
  · exact ⟨_, Decoder.rxByte_accepted l c b ds f,
      (Decoder.inv_iff _).mpr (Or.inr (Or.inr (Or.inr (Or.inr (Or.inr ⟨l, c, ds, false, h1, h2, rfl⟩)))))⟩

/-! ## Bytes one after another -/

/-- A decoder fed a span of bytes. -/
def Decoder.feed : List Byte → Decoder → Except Fault Decoder
  | [], d => .ok d
  | b :: bs, d =>
    match d.rxByte b with
    | .ok t => Decoder.feed bs t
    | .error f => .error f

/-- One RX_BYTE for each byte of a span is that span fed to the decoder; nothing else of the state changes. -/
theorem execAll_feedOps (bs : List Byte) (s : State) :
    execAll (feedOps bs) s = match Decoder.feed bs s.dec with
      | .ok d => .next (s.setDec d)
      | .error f => .fault f := by
  induction bs generalizing s with
  | nil => rfl
  | cons b bs ih =>
    simp only [feedOps, List.map_cons, execAll, exec, execRxByte, Decoder.feed]
    cases s.dec.rxByte b with
    | error f => rfl
    | ok d => exact ih (s.setDec d)

theorem Decoder.feed_append (as bs : List Byte) (d t : Decoder) (h : Decoder.feed as d = .ok t) :
    Decoder.feed (as ++ bs) d = Decoder.feed bs t := by
  induction as generalizing d with
  | nil => cases h; rfl
  | cons a as ih =>
    simp only [Decoder.feed, List.cons_append] at h ⊢
    split at h
    · exact ih _ h
    · cases h

/-- The header of a frame whose Length is in its range (R122 to R125). -/
theorem Decoder.feed_header (l : BitVec 16) (c : Byte) (h1 : lenMin ≤ l.toNat) (h2 : l.toNat ≤ lenMax) :
    Decoder.feed [stx, lenHigh l, lenLow l, c] Decoder.reset = .ok (Decoder.mid l c []) := by
  have hr : ¬ (l.toNat < lenMin ∨ lenMax < l.toNat) := by omega
  simp only [Decoder.feed, Decoder.rxByte_reset, if_true, Decoder.rxByte_gotStx, Decoder.rxByte_gotLenHigh, append_lenHigh_lenLow, hr, if_false,
    Decoder.rxByte_gotLength]

/-- Data bytes that still fit the Length (R126). -/
theorem Decoder.feed_data (l : BitVec 16) (c : Byte) (ds bs : List Byte) (h1 : ds.length + bs.length + 5 ≤ l.toNat) (h2 : l.toNat ≤ lenMax) :
    Decoder.feed bs (Decoder.mid l c ds) = .ok (Decoder.mid l c (ds ++ bs)) := by
  induction bs generalizing ds with
  | nil => simp [Decoder.feed]
  | cons b bs ih =>
    simp only [List.length_cons] at h1
    simp only [Decoder.feed]
    rw [Decoder.rxByte_mid_data l c b ds (by omega) h2]
    simpa using ih (ds ++ [b]) (by simp; omega)

end Sys2Proof.Machine
end

