-- ==== Sys2Proof/Laws/Sequencer.lean ====
section
/-! SUPPORT. What the engine's shared operations can do: the samples of a WaitingStatus tick motor by motor, its exits, and a tick by state. -/

namespace Sys2Proof.Machine

/-- Whether the sample promotes motor `i`: pending, read deasserted, and its counter reaches the threshold (R194). -/
def Engine.promotes (p : Params) (busy : Lines) (e : Engine) (i : Fin 10) : Bool :=
  e.pending.getLsbD i.val && !busy[i] && decide (p.debounceTicks ≤ (e.deb[i] + 1#16).toNat)

/-- Motor `i`'s counter after the sample (R194). -/
def Engine.sampledDeb (busy : Lines) (e : Engine) (i : Fin 10) : BitVec 16 :=
  if e.pending.getLsbD i.val then (if busy[i] then 0#16 else e.deb[i] + 1#16) else e.deb[i]

/-! ## One motor's sample -/

section
variable (p : Params) (busy : Lines) (e : Engine) (i : Fin 10)

theorem Engine.sampleMotor_other :
    (e.sampleMotor p busy i).state = e.state ∧ (e.sampleMotor p busy i).running = e.running ∧ (e.sampleMotor p busy i).active = e.active ∧
    (e.sampleMotor p busy i).motorCount = e.motorCount ∧ (e.sampleMotor p busy i).sendIdx = e.sendIdx ∧
    (e.sampleMotor p busy i).tickCounter = e.tickCounter ∧ (e.sampleMotor p busy i).settings = e.settings ∧
    (e.sampleMotor p busy i).key = e.key := by
  unfold Engine.sampleMotor
  split
  · split
    · simp
    · dsimp only; split <;> simp
  · simp

theorem Engine.sampleMotor_deb (j : Fin 10) :
    (e.sampleMotor p busy i).deb[j] = if j = i then e.sampledDeb busy i else e.deb[j] := by
  have hb := and_motorBit_ne_zero e.pending i
  unfold Engine.sampleMotor Engine.sampledDeb
  by_cases hp : e.pending.getLsbD i.val = true
  · rw [if_pos (hb.mpr hp), if_pos hp]
    by_cases hbusy : busy[i] = true
    · rw [if_pos hbusy]
      by_cases hji : j = i
      · subst hji; simp [hbusy]
      · have : ¬ (i.val = j.val) := fun h => hji (Fin.ext h.symm)
        simp [hji, this]
    · rw [if_neg hbusy]
      by_cases hji : j = i
      · subst hji; dsimp only; split <;> simp_all
      · have : ¬ (i.val = j.val) := fun h => hji (Fin.ext h.symm)
        dsimp only; split <;> simp [this]
  · rw [if_neg (fun h => hp (hb.mp h)), if_neg hp]
    split
    · rename_i h; rw [h]
    · rfl

theorem Engine.sampleMotor_pending (j : Nat) :
    (e.sampleMotor p busy i).pending.getLsbD j = (e.pending.getLsbD j && !(decide (j = i.val) && e.promotes p busy i)) := by
  have hb := and_motorBit_ne_zero e.pending i
  unfold Engine.sampleMotor Engine.promotes
  by_cases hp : e.pending.getLsbD i.val = true
  · rw [if_pos (hb.mpr hp)]
    by_cases hbusy : busy[i] = true
    · rw [if_pos hbusy]; simp [hbusy]
    · rw [if_neg hbusy]
      simp only [Bool.not_eq_true] at hbusy
      dsimp only
      split
      · rename_i h
        simp only [BitVec.getLsbD_and, BitVec.getLsbD_not, getLsbD_motorBit, hp, hbusy, h, decide_true, Nat.add_sub_cancel]
        by_cases hj : j = i.val
        · have : i.val < 16 := by omega
          subst hj; simp [this]
        · by_cases hj16 : j < 16
          · simp [hj, hj16]
          · simp [hj, hj16, BitVec.getLsbD_of_ge e.pending j (by omega)]
      · rename_i h
        rw [decide_eq_false h]; simp
  · rw [if_neg (fun h => hp (hb.mp h))]
    simp [hp]

theorem Engine.sampleMotor_completed (j : Nat) :
    (e.sampleMotor p busy i).completed.getLsbD j = (e.completed.getLsbD j || (decide (j = i.val) && e.promotes p busy i)) := by
  have hb := and_motorBit_ne_zero e.pending i
  unfold Engine.sampleMotor Engine.promotes
  by_cases hp : e.pending.getLsbD i.val = true
  · rw [if_pos (hb.mpr hp)]
    by_cases hbusy : busy[i] = true
    · rw [if_pos hbusy]; simp [hbusy]
    · rw [if_neg hbusy]
      simp only [Bool.not_eq_true] at hbusy
      dsimp only
      split
      · rename_i h
        simp only [BitVec.getLsbD_or, getLsbD_motorBit, hp, hbusy, h, decide_true, Nat.add_sub_cancel]
        by_cases hj : j = i.val
        · have : i.val < 16 := by omega
          subst hj; simp [this]
        · simp [hj]
      · rename_i h
        rw [decide_eq_false h]; simp
  · rw [if_neg (fun h => hp (hb.mp h))]
    simp [hp]

end

/-! ## Every motor's sample: the motors are independent (R195) -/

theorem Engine.foldl_sampleMotor (p : Params) (busy : Lines) (l : List (Fin 10)) (hl : l.Nodup) (e : Engine) :
    let t := l.foldl (Engine.sampleMotor p busy) e
    (t.state = e.state ∧ t.running = e.running ∧ t.active = e.active ∧ t.motorCount = e.motorCount ∧ t.sendIdx = e.sendIdx ∧
      t.tickCounter = e.tickCounter ∧ t.settings = e.settings ∧ t.key = e.key) ∧
    (∀ j : Fin 10, t.deb[j] = if j ∈ l then e.sampledDeb busy j else e.deb[j]) ∧
    (∀ j : Nat, t.pending.getLsbD j = (e.pending.getLsbD j && !decide (∃ i ∈ l, i.val = j ∧ e.promotes p busy i = true))) ∧
    (∀ j : Nat, t.completed.getLsbD j = (e.completed.getLsbD j || decide (∃ i ∈ l, i.val = j ∧ e.promotes p busy i = true))) := by
  induction l generalizing e with
  | nil => simp
  | cons i l ih =>
    have ⟨hi, hl'⟩ := List.nodup_cons.mp hl
    have ⟨h1, h2, h3, h4⟩ := ih hl' (e.sampleMotor p busy i)
    have ho := e.sampleMotor_other p busy i
    -- the other motors look the same after motor `i`'s sample
    have hsame : ∀ j : Fin 10, j ≠ i → (e.sampleMotor p busy i).promotes p busy j = e.promotes p busy j ∧
        (e.sampleMotor p busy i).sampledDeb busy j = e.sampledDeb busy j := by
      intro j hj
      have hv : ¬ (j.val = i.val) := fun h => hj (Fin.ext h)
      have hd := e.sampleMotor_deb p busy i j
      rw [if_neg hj] at hd
      have hp := e.sampleMotor_pending p busy i j.val
      simp only [hv, decide_false, Bool.false_and, Bool.not_false, Bool.and_true] at hp
      simp only [Engine.promotes, Engine.sampledDeb, hd, hp, and_self]
    have hex : ∀ n : Nat, (∃ k ∈ l, k.val = n ∧ (e.sampleMotor p busy i).promotes p busy k = true) ↔
        (∃ k ∈ l, k.val = n ∧ e.promotes p busy k = true) := by
      intro n
      constructor
      · rintro ⟨k, hk, hn, hp⟩
        exact ⟨k, hk, hn, by rwa [(hsame k (fun h => hi (h ▸ hk))).1] at hp⟩
      · rintro ⟨k, hk, hn, hp⟩
        exact ⟨k, hk, hn, by rwa [(hsame k (fun h => hi (h ▸ hk))).1]⟩
    refine ⟨?_, ?_, ?_, ?_⟩
    · simp only [List.foldl_cons]
      obtain ⟨a1, a2, a3, a4, a5, a6, a7, a8⟩ := h1
      obtain ⟨b1, b2, b3, b4, b5, b6, b7, b8⟩ := ho
      exact ⟨a1.trans b1, a2.trans b2, a3.trans b3, a4.trans b4, a5.trans b5, a6.trans b6, a7.trans b7, a8.trans b8⟩
    · intro j
      simp only [List.foldl_cons, List.mem_cons]
      rw [h2 j]
      by_cases hji : j = i
      · subst hji
        rw [if_neg hi, e.sampleMotor_deb p busy j j]
        simp
      · rw [(hsame j hji).2, e.sampleMotor_deb p busy i j, if_neg hji]
        simp [hji]
    · intro n
      simp only [List.foldl_cons]
      rw [h3 n, e.sampleMotor_pending p busy i n]
      simp only [hex, List.exists_mem_cons_iff, Bool.decide_or]
      by_cases hn : i.val = n
      · subst hn; cases e.promotes p busy i <;> simp
      · have : ¬ n = i.val := fun h => hn h.symm
        simp [hn, this]
    · intro n
      simp only [List.foldl_cons]
      rw [h4 n, e.sampleMotor_completed p busy i n]
      simp only [hex, List.exists_mem_cons_iff, Bool.decide_or]
      by_cases hn : i.val = n
      · subst hn; simp [Bool.or_assoc]
      · have : ¬ n = i.val := fun h => hn h.symm
        simp [hn, this]

section
variable (p : Params) (busy : Lines) (e : Engine)

/-- The samples write only the counters and the two masks. -/
theorem Engine.sampleAll_other :
    (e.sampleAll p busy).state = e.state ∧ (e.sampleAll p busy).running = e.running ∧ (e.sampleAll p busy).active = e.active ∧
    (e.sampleAll p busy).motorCount = e.motorCount ∧ (e.sampleAll p busy).sendIdx = e.sendIdx ∧
    (e.sampleAll p busy).tickCounter = e.tickCounter ∧ (e.sampleAll p busy).settings = e.settings ∧ (e.sampleAll p busy).key = e.key :=
  (Engine.foldl_sampleMotor p busy motorIndexes (List.nodup_finRange 10) e).1

/-- Each motor's counter after the samples. -/
theorem Engine.sampleAll_deb (j : Fin 10) : (e.sampleAll p busy).deb[j] = e.sampledDeb busy j := by
  have := (Engine.foldl_sampleMotor p busy motorIndexes (List.nodup_finRange 10) e).2.1 j
  rw [if_pos (by simp [motorIndexes])] at this
  exact this

/-- Each motor's pending bit after the samples. -/
theorem Engine.sampleAll_pending (j : Fin 10) :
    (e.sampleAll p busy).pending.getLsbD j.val = (e.pending.getLsbD j.val && !e.promotes p busy j) := by
  have := (Engine.foldl_sampleMotor p busy motorIndexes (List.nodup_finRange 10) e).2.2.1 j.val
  have hex : (∃ i ∈ motorIndexes, i.val = j.val ∧ e.promotes p busy i = true) ↔ e.promotes p busy j = true :=
    ⟨fun ⟨i, _, h, hp⟩ => by rwa [Fin.ext h] at hp, fun h => ⟨j, by simp [motorIndexes], rfl, h⟩⟩
  simp only [hex, Bool.decide_eq_true] at this
  exact this

/-- Each motor's completed bit after the samples. -/
theorem Engine.sampleAll_completed (j : Fin 10) :
    (e.sampleAll p busy).completed.getLsbD j.val = (e.completed.getLsbD j.val || e.promotes p busy j) := by
  have := (Engine.foldl_sampleMotor p busy motorIndexes (List.nodup_finRange 10) e).2.2.2 j.val
  have hex : (∃ i ∈ motorIndexes, i.val = j.val ∧ e.promotes p busy i = true) ↔ e.promotes p busy j = true :=
    ⟨fun ⟨i, _, h, hp⟩ => by rwa [Fin.ext h] at hp, fun h => ⟨j, by simp [motorIndexes], rfl, h⟩⟩
  simp only [hex, Bool.decide_eq_true] at this
  exact this

/-- Bits 10 to 15 of the masks are not touched by the samples. -/
theorem Engine.sampleAll_high (j : Nat) (hj : 10 ≤ j) :
    (e.sampleAll p busy).pending.getLsbD j = e.pending.getLsbD j ∧ (e.sampleAll p busy).completed.getLsbD j = e.completed.getLsbD j := by
  have h := Engine.foldl_sampleMotor p busy motorIndexes (List.nodup_finRange 10) e
  have hex : ¬ (∃ i ∈ motorIndexes, i.val = j ∧ e.promotes p busy i = true) := by
    rintro ⟨i, _, h, _⟩; omega
  have h3 := h.2.2.1 j
  have h4 := h.2.2.2 j
  simp only [hex, decide_false, Bool.not_false, Bool.and_true, Bool.or_false] at h3 h4
  exact ⟨h3, h4⟩

end

/-! ## A tick by state: everything SEQ_TICK can do to the engine -/

/-- A tick of an engine that is not running does nothing (R198). -/
theorem Engine.tick_not_running (p : Params) (busy : Lines) (rx : List Byte) {e : Engine} (h : e.running = false) :
    e.tick p busy rx = .ok (e, []) := by simp [Engine.tick, h]

theorem Engine.tick_checkingRx (p : Params) (busy : Lines) (rx : List Byte) {e : Engine} (h : e.running = true) (hs : e.state = .checkingRx) :
    e.tick p busy rx = .ok ({ e with state := .sending }, drainEvents p rx) := by simp [Engine.tick, h, hs]

theorem Engine.tick_sending (p : Params) (busy : Lines) (rx : List Byte) {e : Engine} (h : e.running = true) (hs : e.state = .sending) :
    e.tick p busy rx = e.tickSending p := by simp [Engine.tick, h, hs]

theorem Engine.tick_waitingStatus (p : Params) (busy : Lines) (rx : List Byte) {e : Engine} (h : e.running = true)
    (hs : e.state = .waitingStatus) : e.tick p busy rx = .ok (e.tickWaiting p busy, []) := by simp [Engine.tick, h, hs]

/-- The Sending tick with nothing left to send (R191). -/
theorem Engine.tickSending_none (p : Params) {e : Engine} (h : e.motorCount ≤ e.sendIdx) :
    e.tickSending p = .ok ({ e with state := .waitingStatus, tickCounter := 0#32 }, []) := by
  have : ¬ e.sendIdx < e.motorCount := by simpa using h
  simp [Engine.tickSending, this, Engine.leaveSending, h]

/-- The Sending tick that sends record `r` to motor `i + 1` (R191, R192). -/
theorem Engine.tickSending_some (p : Params) {e : Engine} {r : MotorSetting} {i : Fin 10} (h : e.sendIdx < e.motorCount)
    (hr : e.settings[e.sendIdx.toNat]? = some r) (hi : motorIndex r = some i) :
    e.tickSending p = .ok (Engine.leaveSending { e.sendOne i with sendIdx := e.sendIdx + 1#4 }, sendEvents p i r) := by
  simp [Engine.tickSending, h, hr, hi]

/-- Everything one tick can do: nothing, the drain, one frame or the Sending exit, the samples, or a fault for a record that has no line. -/
theorem Engine.tick_cases (p : Params) (busy : Lines) (rx : List Byte) (e t : Engine) (evs : List Event) (h : e.tick p busy rx = .ok (t, evs)) :
    (t = e ∧ evs = [] ∧ (e.running = false ∨ e.state = .idle ∨ e.state = .complete)) ∨
    (e.running = true ∧ e.state = .checkingRx ∧ t = { e with state := .sending } ∧ evs = drainEvents p rx) ∨
    (e.running = true ∧ e.state = .sending ∧ e.motorCount ≤ e.sendIdx ∧ evs = [] ∧
      t = { e with state := .waitingStatus, tickCounter := 0#32 }) ∨
    (e.running = true ∧ e.state = .sending ∧ e.sendIdx < e.motorCount ∧ ∃ r i, e.settings[e.sendIdx.toNat]? = some r ∧ motorIndex r = some i ∧
      t = Engine.leaveSending { e.sendOne i with sendIdx := e.sendIdx + 1#4 } ∧ evs = sendEvents p i r) ∨
    (e.running = true ∧ e.state = .waitingStatus ∧ t = e.tickWaiting p busy ∧ evs = []) := by
  by_cases hr : e.running = true
  · cases hs : e.state with
    | idle => simp [Engine.tick, hr, hs] at h; left; exact ⟨h.1.symm, h.2, by simp⟩
    | complete => simp [Engine.tick, hr, hs] at h; left; exact ⟨h.1.symm, h.2, by simp⟩
    | checkingRx =>
      rw [Engine.tick_checkingRx p busy rx hr hs] at h; cases h
      right; left; exact ⟨hr, rfl, rfl, rfl⟩
    | waitingStatus =>
      rw [Engine.tick_waitingStatus p busy rx hr hs] at h; cases h
      right; right; right; right; exact ⟨hr, rfl, rfl, rfl⟩
    | sending =>
      rw [Engine.tick_sending p busy rx hr hs] at h
      by_cases hlt : e.sendIdx < e.motorCount
      · right; right; right; left
        simp only [Engine.tickSending, hlt, if_true] at h
        split at h
        · cases h
        · rename_i r hr'
          split at h
          · cases h
          · rename_i i hi
            cases h
            exact ⟨hr, rfl, hlt, r, i, hr', hi, rfl, rfl⟩
      · have hge : e.motorCount ≤ e.sendIdx := by simpa using hlt
        rw [Engine.tickSending_none p hge] at h; cases h
        right; right; left; exact ⟨hr, rfl, hge, rfl, rfl⟩
  · simp only [Bool.not_eq_true] at hr
    rw [Engine.tick_not_running p busy rx hr] at h; cases h
    left; exact ⟨rfl, rfl, Or.inl hr⟩

/-- The exits of a WaitingStatus tick (R194, R197). -/
theorem Engine.waitingExit_cases (p : Params) (e : Engine) :
    (e.pending = 0#16 ∧ e.waitingExit p = e.enterComplete) ∨
    (e.pending ≠ 0#16 ∧ p.safetyTimeoutTicks < e.tickCounter.toNat ∧ e.waitingExit p = e.forceComplete) ∨
    (e.pending ≠ 0#16 ∧ e.tickCounter.toNat ≤ p.safetyTimeoutTicks ∧ e.waitingExit p = e) := by
  unfold Engine.waitingExit
  by_cases h : e.pending = 0#16
  · left; exact ⟨h, by simp [h]⟩
  · by_cases h2 : p.safetyTimeoutTicks < e.tickCounter.toNat
    · right; left; exact ⟨h, h2, by simp [h, h2]⟩
    · right; right; exact ⟨h, by omega, by simp [h, h2]⟩

end Sys2Proof.Machine
end

