-- ==== Sys2Proof/Laws/Engine.lean ====
section
/-! SUPPORT. The engine's invariant: its masks bit by bit, and that a start, a tick and a stop keep it. -/

namespace Sys2Proof.Machine

/-! ## Masks bit by bit -/

theorem Mask.and_eq_zero (a b : Mask) : a &&& b = 0#16 ↔ ∀ j, a.getLsbD j = true → b.getLsbD j = false := by
  constructor
  · intro h j hj
    have := congrArg (fun v => BitVec.getLsbD v j) h
    simpa [hj] using this
  · intro h
    apply BitVec.eq_of_getLsbD_eq; intro j _
    have := h j
    cases ha : a.getLsbD j <;> simp_all

theorem Mask.and_not_eq_zero (a b : Mask) : a &&& ~~~b = 0#16 ↔ ∀ j, a.getLsbD j = true → b.getLsbD j = true := by
  rw [Mask.and_eq_zero]
  constructor
  · intro h j hj
    have := h j hj
    by_cases h16 : j < 16
    · simpa [BitVec.getLsbD_not, h16] using this
    · rw [BitVec.getLsbD_of_ge _ _ (by omega)] at hj; cases hj
  · intro h j hj
    simp [BitVec.getLsbD_not, h j hj]

theorem Mask.high_eq_zero (a : Mask) : a &&& 0xFC00#16 = 0#16 ↔ ∀ j, 10 ≤ j → a.getLsbD j = false := by
  have hb : ∀ j : Fin 16, (0xFC00#16).getLsbD j.val = decide (10 ≤ j.val) := by decide
  rw [Mask.and_eq_zero]
  constructor
  · intro h j hj
    by_cases h16 : j < 16
    · cases ha : a.getLsbD j with
      | false => rfl
      | true => have := h j ha; rw [hb ⟨j, h16⟩] at this; simp at this; omega
    · exact BitVec.getLsbD_of_ge _ _ (by omega)
  · intro h j hj
    by_cases h16 : j < 16
    · rw [hb ⟨j, h16⟩]
      simp only [decide_eq_false_iff_not]
      intro h10; rw [h j h10] at hj; cases hj
    · exact BitVec.getLsbD_of_ge _ _ (by omega)

/-- R45, bit by bit. -/
theorem Engine.masksOk_iff (e : Engine) :
    e.masksOk ↔ (∀ j, 10 ≤ j → e.active.getLsbD j = false) ∧ (∀ j, e.completed.getLsbD j = true → e.active.getLsbD j = true) ∧
      (∀ j, e.pending.getLsbD j = true → e.active.getLsbD j = true) ∧
      (∀ j, e.completed.getLsbD j = true → e.pending.getLsbD j = false) := by
  unfold Engine.masksOk
  rw [Mask.high_eq_zero, Mask.and_not_eq_zero, Mask.and_not_eq_zero, Mask.and_eq_zero]
  simp only [BitVec.getLsbD_or, Bool.or_eq_false_iff]
  constructor
  · rintro ⟨h1, h2, h3, h4⟩
    exact ⟨fun j hj => (h1 j hj).1.1, h2, h3, h4⟩
  · rintro ⟨h1, h2, h3, h4⟩
    refine ⟨fun j hj => ⟨⟨h1 j hj, ?_⟩, ?_⟩, h2, h3, h4⟩
    · cases hc : e.completed.getLsbD j with
      | false => rfl
      | true => rw [← h2 j hc, h1 j hj]
    · cases hc : e.pending.getLsbD j with
      | false => rfl
      | true => rw [← h3 j hc, h1 j hj]

/-- The bits of fewer latched records are among those of more. -/
theorem Engine.latchedMask_mono (e : Engine) {k n : Nat} (h : k ≤ n) (j : Nat) (hj : (e.latchedMask k).getLsbD j = true) :
    (e.latchedMask n).getLsbD j = true := by
  simp only [Engine.latchedMask, getLsbD_recordMask, List.any_eq_true] at hj ⊢
  obtain ⟨r, hr, hb⟩ := hj
  have : e.settings.toList.take k = (e.settings.toList.take n).take k := by rw [List.take_take, Nat.min_eq_left h]
  rw [this] at hr
  exact ⟨r, List.mem_of_mem_take hr, hb⟩

theorem Engine.latchedMask_zero (e : Engine) : e.latchedMask 0 = 0#16 := rfl

/-- One record more adds its motor's bit. -/
theorem Engine.latchedMask_succ (e : Engine) {k : Nat} (h : k < 10) :
    e.latchedMask (k + 1) = e.latchedMask k ||| motorBit e.settings[k].number.toNat := by
  have ht : e.settings.toList.take (k + 1) = e.settings.toList.take k ++ [e.settings[k]] := by
    rw [List.take_add_one]
    simp [h]
  rw [Engine.latchedMask, ht, recordMask_append_one, Engine.latchedMask]

/-! ## The invariant is kept -/

/-- SEQ_START's engine meets the invariant (R182). -/
theorem Engine.start_inv (p : Params) {buf : Mem} {n : BitVec 4} {rs : List MotorSetting} {e : Engine} (hkey : e.key = Vector.replicate 10 false)
    (h : startRecords buf n = .ok rs) : (e.start n rs).Inv p := by
  unfold startRecords at h
  split at h
  · cases h
  rename_i hn
  have ⟨hlen, hrec⟩ := (msdRecords_eq_ok _ _ _ _).mp h
  have hvalid : ∀ r ∈ rs, msdValid r = true := by
    intro r hr
    obtain ⟨i, hi, rfl⟩ := List.mem_iff_getElem.mp hr
    obtain ⟨r', h1, _, h3⟩ := hrec i (by omega)
    rw [List.getElem?_eq_getElem hi] at h1
    cases h1; exact h3
  have hn10 : n.toNat ≤ 10 := by simpa [maxMotors] using hn
  have hset : ∀ (i : Fin 10) (hi : i.val < n.toNat), (e.start n rs).settings[i] = rs[i.val]'(by omega) ∧ msdValid (e.start n rs).settings[i] = true := by
    intro i hi
    have : (e.start n rs).settings[i] = rs[i.val]'(by omega) := by
      simp [Engine.start, latchRecords, List.getElem?_eq_getElem (show i.val < rs.length by omega)]
    exact ⟨this, by rw [this]; exact hvalid _ (List.getElem_mem _)⟩
  have htake : (e.start n rs).settings.toList.take n.toNat = rs := by
    apply List.ext_getElem
    · simp; omega
    · intro i h1 h2
      have := (hset ⟨i, by omega⟩ (by simp only; omega)).1
      simp only [List.getElem_take, Vector.getElem_toList]
      exact this
  refine ⟨?_, ⟨by simpa [maxMotors, Engine.start] using hn10, by simp [Engine.start], fun i hi => (hset i hi).2, ?_⟩, ⟨?_, ?_, ?_⟩, ?_, hkey⟩
  · rw [Engine.masksOk_iff]
    refine ⟨fun j hj => recordMask_high rs hvalid j hj, ?_, ?_, ?_⟩ <;> intro j hj <;> simp [Engine.start] at hj
  · show recordMask rs = _
    rw [Engine.latchedMask]
    exact congrArg recordMask htake.symm
  · simp [Engine.start]
  · intro i; simp [Engine.start]
  · intro i hi; simp [Engine.start] at hi
  · refine ⟨?_, ?_, ?_, ?_⟩
    · rintro (h | h) <;> cases h
    · intro _; exact ⟨rfl, rfl, rfl, rfl, rfl, rfl⟩
    · intro h; cases h
    · intro h; cases h

/-- SEQ_STOP keeps the engine's invariant (R201). -/
theorem Engine.stop_inv {p : Params} {e : Engine} (h : e.Inv p) : e.stop.Inv p := by
  obtain ⟨h1, h2, h3, h4, h5⟩ := h
  have hm := (Engine.masksOk_iff e).mp h1
  refine ⟨?_, h2, ⟨h3.1, h3.2.1, ?_⟩, ?_, rfl⟩
  · rw [Engine.masksOk_iff]
    exact ⟨hm.1, fun j hj => hj, fun j hj => by simp [Engine.stop] at hj, fun j _ => by simp [Engine.stop]⟩
  · intro i hi; simp [Engine.stop] at hi
  · refine ⟨?_, ?_, ?_, ?_⟩
    · intro _; exact ⟨rfl, rfl, rfl⟩
    · intro h; cases h
    · intro h; cases h
    · intro h; cases h

/-- The samples, and then the exits, of a WaitingStatus tick keep the invariant (R194 to R197). -/
theorem Engine.tickWaiting_inv {p : Params} {e : Engine} (h : e.Inv p) (hs : e.state = .waitingStatus) (busy : Lines) :
    (e.tickWaiting p busy).Inv p := by
  obtain ⟨hmask, hlatch, ⟨hc1, hc2, hc3⟩, ⟨_, _, _, hph⟩, hkey⟩ := h
  obtain ⟨hrun, hsend, hunion, htc⟩ := hph hs
  have hm := (Engine.masksOk_iff e).mp hmask
  have hun : ∀ j, e.active.getLsbD j = (e.completed.getLsbD j || e.pending.getLsbD j) := by
    intro j; rw [← hunion, BitVec.getLsbD_or]
  have htc' : (e.tickCounter + 1#32).toNat = e.tickCounter.toNat + 1 := by
    have := p.safetyTimeout.isLt
    simp only [Params.safetyTimeoutTicks] at htc
    simp; omega
  -- the counted engine and the sampled engine
  obtain ⟨e1, he1⟩ : ∃ e1 : Engine, e1 = { e with tickCounter := e.tickCounter + 1#32 } := ⟨_, rfl⟩
  obtain ⟨e2, he2⟩ : ∃ e2 : Engine, e2 = Engine.sampleAll p busy e1 := ⟨_, rfl⟩
  have ho := Engine.sampleAll_other p busy e1
  have hd := Engine.sampleAll_deb p busy e1
  have hp := Engine.sampleAll_pending p busy e1
  have hc := Engine.sampleAll_completed p busy e1
  have hh := Engine.sampleAll_high p busy e1
  rw [← he2] at ho hd hp hc hh
  obtain ⟨o1, o2, o3, o4, o5, o6, o7, o8⟩ := ho
  have hpc : ∀ j : Nat, (e2.pending.getLsbD j = true → e.pending.getLsbD j = true) ∧
      (e2.completed.getLsbD j = true → e.completed.getLsbD j = true ∨ e.pending.getLsbD j = true) ∧
      (e2.completed.getLsbD j = true → e2.pending.getLsbD j = false) ∧
      ((e2.completed.getLsbD j || e2.pending.getLsbD j) = (e.completed.getLsbD j || e.pending.getLsbD j)) := by
    intro j
    have hd := hm.2.2.2 j
    by_cases hj : j < 10
    · have a := hp ⟨j, hj⟩
      have b := hc ⟨j, hj⟩
      have hpr : Engine.promotes p busy e1 ⟨j, hj⟩ = true → e.pending.getLsbD j = true := by
        intro h; simp only [Engine.promotes, Bool.and_eq_true] at h; rw [he1] at h; exact h.1.1
      rw [he1] at a b
      rw [← he1] at a b
      simp only at a b
      rw [show e1.pending = e.pending by rw [he1]] at a
      rw [show e1.completed = e.completed by rw [he1]] at b
      rw [a, b]
      cases hx : Engine.promotes p busy e1 ⟨j, hj⟩ <;> cases hy : e.pending.getLsbD j <;> cases hz : e.completed.getLsbD j <;> simp_all
    · have := hh j (by omega)
      rw [show e1.pending = e.pending by rw [he1], show e1.completed = e.completed by rw [he1]] at this
      rw [this.1, this.2]
      exact ⟨id, Or.inl, hd, rfl⟩
  have hact : e2.active = e.active := by rw [o3, he1]
  have hsettings : e2.settings = e.settings := by rw [o7, he1]
  have hmc : e2.motorCount = e.motorCount := by rw [o4, he1]
  have hsi : e2.sendIdx = e.sendIdx := by rw [o5, he1]
  have htk : e2.tickCounter = e.tickCounter + 1#32 := by rw [o6, he1]
  -- what holds of the sampled engine and of its exits
  have masks2 : e2.masksOk := by
    rw [Engine.masksOk_iff]
    refine ⟨fun j hj => by rw [hact]; exact hm.1 j hj, fun j hj => ?_, fun j hj => ?_, fun j hj => (hpc j).2.2.1 hj⟩
    · rw [hact, hun]; rcases (hpc j).2.1 hj with h | h <;> simp [h]
    · rw [hact, hun, (hpc j).1 hj]; simp
  have latch2 : e2.latchOk := by
    obtain ⟨l1, l2, l3, l4⟩ := hlatch
    refine ⟨by rw [hmc]; exact l1, by rw [hmc, hsi]; exact l2, fun i hi => ?_, ?_⟩
    · rw [hmc] at hi
      have := l3 i hi
      simpa [hsettings] using this
    · rw [hact, hmc, l4]; simp only [Engine.latchedMask, hsettings]
  have hdeb2 : ∀ i : Fin 10, e2.deb[i].toNat ≤ p.debounceTicks ∧ (e2.pending.getLsbD i.val = true → e2.deb[i].toNat < p.debounceTicks) := by
    intro i
    have hpos : 0 < p.debounceTicks := by simp [Params.debounceTicks]
    have a := hp i
    rw [show e1.pending = e.pending by rw [he1]] at a
    have hd3 := hc3 i
    rw [and_motorBit_ne_zero] at hd3
    have hmax : p.debounceTicks ≤ 65535 := by
      have := p.debounceLessOne.isLt
      simp only [Params.debounceTicks]; omega
    rw [hd i, Engine.sampledDeb, show e1.pending = e.pending by rw [he1], show e1.deb = e.deb by rw [he1]]
    by_cases hpend : e.pending.getLsbD i.val = true
    · have hlt := hd3 hpend
      rw [if_pos hpend]
      have hs1 : (e.deb[i] + 1#16).toNat = e.deb[i].toNat + 1 := by
        rw [BitVec.toNat_add, BitVec.toNat_ofNat]; omega
      by_cases hb : busy[i] = true
      · rw [if_pos hb]; simp; omega
      · rw [if_neg hb, hs1]
        refine ⟨by omega, fun h2 => ?_⟩
        rw [a, hpend] at h2
        simp only [Engine.promotes, show e1.pending = e.pending by rw [he1], show e1.deb = e.deb by rw [he1], hpend, hs1] at h2
        simp at hb
        simp [hb] at h2
        exact h2
    · rw [if_neg hpend]
      refine ⟨hc2 i, fun h2 => ?_⟩
      rw [a] at h2; simp [hpend] at h2
  have hkey2 : e2.key = Vector.replicate 10 false := by rw [o8, he1]; exact hkey
  have hall : ∀ t : Engine, t.active = e2.active → t.settings = e2.settings → t.motorCount = e2.motorCount → t.sendIdx = e2.sendIdx →
      t.latchOk := by
    intro t a b c d
    obtain ⟨l1, l2, l3, l4⟩ := latch2
    refine ⟨by rw [c]; exact l1, by rw [c, d]; exact l2, fun i hi => ?_, ?_⟩
    · rw [c] at hi
      have := l3 i hi
      simpa [b] using this
    · rw [a, c, l4]; simp only [Engine.latchedMask, b]
  rw [Engine.tickWaiting, ← he1, ← he2]
  rcases Engine.waitingExit_cases p e2 with ⟨hz, h⟩ | ⟨hz, hto, h⟩ | ⟨hz, hto, h⟩ <;> rw [h]
  · have hcomp : e2.completed = e2.active := by
      apply BitVec.eq_of_getLsbD_eq; intro j _
      have := (hpc j).2.2.2
      rw [hact, hun, ← this, hz]; simp
    refine ⟨masks2, latch2, ⟨?_, fun i => (hdeb2 i).1, fun i hi => (hdeb2 i).2 ((and_motorBit_ne_zero _ i).mp hi)⟩, ⟨?_, ?_, ?_, ?_⟩, hkey2⟩
    · show e2.tickCounter.toNat ≤ _; rw [htk, htc']; omega
    · intro _; exact ⟨rfl, hcomp, hz⟩
    · intro h; cases h
    · intro h; cases h
    · intro h; cases h
  · have hcomp : e2.completed ||| e2.pending = e2.active := by
      apply BitVec.eq_of_getLsbD_eq; intro j _
      rw [hact, hun, ← (hpc j).2.2.2, BitVec.getLsbD_or]
    refine ⟨?_, hall _ rfl rfl rfl rfl, ⟨?_, fun i => (hdeb2 i).1, fun i hi => ?_⟩, ⟨?_, ?_, ?_, ?_⟩, hkey2⟩
    · rw [Engine.masksOk_iff]
      refine ⟨fun j hj => by show e2.active.getLsbD j = false; rw [hact]; exact hm.1 j hj, fun j hj => ?_, fun j hj => ?_, fun j _ => ?_⟩
      · change (e2.completed ||| e2.pending).getLsbD j = true at hj; rw [hcomp] at hj; exact hj
      · change (0#16).getLsbD j = true at hj; simp at hj
      · show (0#16).getLsbD j = false; simp
    · show e2.tickCounter.toNat ≤ _; rw [htk, htc']; omega
    · change 0#16 &&& _ ≠ 0#16 at hi; simp at hi
    · intro _; exact ⟨rfl, hcomp, rfl⟩
    · intro h; cases h
    · intro h; cases h
    · intro h; cases h
  · have hst : e2.state = .waitingStatus := by rw [o1, he1]; exact hs
    refine ⟨masks2, latch2, ⟨by omega, fun i => (hdeb2 i).1, fun i hi => (hdeb2 i).2 ((and_motorBit_ne_zero _ i).mp hi)⟩, ⟨?_, ?_, ?_, ?_⟩, hkey2⟩
    · intro h; rw [hst] at h; rcases h with h | h <;> cases h
    · intro h; rw [hst] at h; cases h
    · intro h; rw [hst] at h; cases h
    · intro _
      refine ⟨by rw [o2, he1]; exact hrun, by rw [hsi, hmc]; exact hsend, ?_, hto⟩
      apply BitVec.eq_of_getLsbD_eq; intro j _
      rw [hact, hun, ← (hpc j).2.2.2, BitVec.getLsbD_or]

/-- A tick of an engine that meets the invariant never faults and gives one that meets it. -/
theorem Engine.tick_inv {p : Params} {e : Engine} (h : e.Inv p) (busy : Lines) (rx : List Byte) :
    ∃ t evs, e.tick p busy rx = .ok (t, evs) ∧ t.Inv p := by
  by_cases hr : e.running = true
  swap
  · exact ⟨e, [], Engine.tick_not_running p busy rx (by simpa using hr), h⟩
  obtain ⟨hmask, hlatch, hcount, hphase, hkey⟩ := id h
  obtain ⟨l1, l2, l3, l4⟩ := id hlatch
  cases hs : e.state with
  | idle => rw [(hphase.1 (Or.inl hs)).1] at hr; cases hr
  | complete => rw [(hphase.1 (Or.inr hs)).1] at hr; cases hr
  | waitingStatus => exact ⟨_, _, Engine.tick_waitingStatus p busy rx hr hs, Engine.tickWaiting_inv h hs busy⟩
  | checkingRx =>
    obtain ⟨_, a2, a3, a4, a5, a6⟩ := hphase.2.1 hs
    refine ⟨_, _, Engine.tick_checkingRx p busy rx hr hs, hmask, hlatch, hcount, ⟨?_, ?_, ?_, ?_⟩, hkey⟩
    · rintro (h | h) <;> cases h
    · intro h; cases h
    · intro _
      refine ⟨hr, a2, ?_, ?_, a5, a6⟩
      · show e.pending = e.latchedMask e.sendIdx.toNat
        rw [a3, a4]; rfl
      · show e.sendIdx.toNat < e.motorCount.toNat ∨ e.motorCount = 0#4
        rw [a4]
        by_cases hz : e.motorCount = 0#4
        · exact Or.inr hz
        · left
          have : e.motorCount.toNat ≠ 0 := fun hc => hz (BitVec.eq_of_toNat_eq (by simpa using hc))
          simp; omega
    · intro h; cases h
  | sending =>
    obtain ⟨_, a2, a3, a4, a5, a6⟩ := hphase.2.2.1 hs
    by_cases hlt : e.sendIdx < e.motorCount
    · have hlt' : e.sendIdx.toNat < e.motorCount.toNat := hlt
      have h10 : e.sendIdx.toNat < 10 := by simp only [maxMotors] at l1; omega
      have hv := l3 ⟨_, h10⟩ hlt'
      obtain ⟨i, hi, hin⟩ := motorIndex_of_valid hv
      simp only [Fin.getElem_fin] at hi hin
      have hsend := Engine.tickSending_some p hlt (Vector.getElem?_eq_getElem h10) hi
      have hidx : (e.sendIdx + 1#4).toNat = e.sendIdx.toNat + 1 := by simp; omega
      have hpend : e.pending ||| motorBit (i.val + 1) = e.latchedMask (e.sendIdx.toNat + 1) := by
        rw [Engine.latchedMask_succ e h10, a3, hin]
      have hdeb0 : ∀ j : Fin 10, e.deb[j] = 0#16 := by intro j; rw [a6]; simp
      have hkey' : e.key.set i.val false = Vector.replicate 10 false := by
        rw [hkey]; apply Vector.ext; intro j hj; simp
      have hpos : 0 < p.debounceTicks := by simp [Params.debounceTicks]
      have hmask' : ∀ t : Engine, t.active = e.active → t.completed = e.completed → t.pending = e.latchedMask (e.sendIdx.toNat + 1) → t.masksOk := by
        intro t b1 b2 b3
        have hm := (Engine.masksOk_iff e).mp hmask
        rw [Engine.masksOk_iff]
        refine ⟨fun j hj => by rw [b1]; exact hm.1 j hj, fun j hj => ?_, fun j hj => ?_, fun j hj => ?_⟩
        · rw [b2, a2] at hj; simp at hj
        · rw [b1, l4]; rw [b3] at hj; exact e.latchedMask_mono (by omega) j hj
        · rw [b2, a2] at hj; simp at hj
      have hcnt : ∀ t : Engine, t.tickCounter = 0#32 → t.deb = e.deb → t.countersOk p := by
        intro t b1 b2
        refine ⟨by rw [b1]; simp, fun j => ?_, fun j _ => ?_⟩
        · have := hdeb0 j; rw [← b2] at this; rw [this]; simp
        · have := hdeb0 j; rw [← b2] at this; rw [this]; simpa using hpos
      refine ⟨_, _, (Engine.tick_sending p busy rx hr hs).trans hsend, ?_⟩
      unfold Engine.leaveSending
      split
      · rename_i hle
        have heq : e.sendIdx.toNat + 1 = e.motorCount.toNat := by
          have : e.motorCount.toNat ≤ (e.sendIdx + 1#4).toNat := hle
          omega
        refine ⟨hmask' _ rfl rfl hpend, ⟨l1, ?_, l3, l4⟩, hcnt _ rfl rfl, ⟨?_, ?_, ?_, ?_⟩, hkey'⟩
        · show (e.sendIdx + 1#4).toNat ≤ e.motorCount.toNat; omega
        · rintro (h | h) <;> cases h
        · intro h; cases h
        · intro h; cases h
        · intro _
          refine ⟨hr, ?_, ?_, ?_⟩
          · apply BitVec.eq_of_toNat_eq; show (e.sendIdx + 1#4).toNat = e.motorCount.toNat; omega
          · show e.completed ||| (e.pending ||| motorBit (i.val + 1)) = e.active
            rw [a2, hpend, heq, l4]; simp
          · show (0#32).toNat ≤ _; simp
      · rename_i hle
        have hlt2 : e.sendIdx.toNat + 1 < e.motorCount.toNat := by
          have : ¬ e.motorCount.toNat ≤ (e.sendIdx + 1#4).toNat := hle
          omega
        refine ⟨hmask' _ rfl rfl hpend, ⟨l1, ?_, l3, l4⟩, hcnt _ a5 rfl, ⟨?_, ?_, ?_, ?_⟩, hkey'⟩
        · show (e.sendIdx + 1#4).toNat ≤ e.motorCount.toNat; omega
        · intro h; change e.state = _ ∨ e.state = _ at h; rw [hs] at h; rcases h with h | h <;> cases h
        · intro h; change e.state = _ at h; rw [hs] at h; cases h
        · intro _
          refine ⟨hr, a2, ?_, ?_, a5, a6⟩
          · show e.pending ||| motorBit (i.val + 1) = e.latchedMask (e.sendIdx + 1#4).toNat
            rw [hidx, hpend]
          · left; show (e.sendIdx + 1#4).toNat < e.motorCount.toNat; omega
        · intro h; change e.state = _ at h; rw [hs] at h; cases h
    · have hge : e.motorCount ≤ e.sendIdx := by simpa using hlt
      have hz : e.motorCount = 0#4 := by
        rcases a4 with h | h
        · exact absurd h hlt
        · exact h
      have hsi : e.sendIdx = e.motorCount := by
        apply BitVec.eq_of_toNat_eq
        have : e.motorCount.toNat ≤ e.sendIdx.toNat := hge
        omega
      refine ⟨_, _, (Engine.tick_sending p busy rx hr hs).trans (Engine.tickSending_none p hge), hmask, hlatch,
        ⟨by show (0#32).toNat ≤ _; simp, hcount.2.1, hcount.2.2⟩, ⟨?_, ?_, ?_, ?_⟩, hkey⟩
      · rintro (h | h) <;> cases h
      · intro h; cases h
      · intro h; cases h
      · intro _
        refine ⟨hr, hsi, ?_, by show (0#32).toNat ≤ _; simp⟩
        show e.completed ||| e.pending = e.active
        rw [a2, a3, l4, hsi]; simp

end Sys2Proof.Machine
end

