-- ==== Sys2Proof/Laws/PerInstr.lean ====
section
/-! SUPPORT. A family of statements about every instruction as syntax: its code lies in its row of spec/opcode_table.json. -/

namespace Sys2Proof.Laws

/-- A row of the opcode table: the number of its bits, its mask and its match. -/
structure TableRow.Row where
  nbits : Nat
  mask : BitVec 16
  pattern : BitVec 16
deriving DecidableEq, Repr

/-- Each constructor's row of spec/opcode_table.json. -/
def TableRow.row : Instr → TableRow.Row
  | .nop => ⟨16, 0xFFFF#16, 0x0000#16⟩
  | .rxByte _ => ⟨16, 0xFF00#16, 0x1000#16⟩
  | .decClear => ⟨16, 0xFFFF#16, 0x2000#16⟩
  | .encFrame _ => ⟨16, 0xFF00#16, 0x3000#16⟩
  | .txbPush _ => ⟨16, 0xFF00#16, 0x4000#16⟩
  | .txbClear => ⟨16, 0xFFFF#16, 0x5000#16⟩
  | .seqStart _ => ⟨16, 0xF0FF#16, 0x6000#16⟩
  | .seqTick => ⟨16, 0xFFFF#16, 0x7000#16⟩
  | .seqStop => ⟨16, 0xFFFF#16, 0x8000#16⟩
  | .reserved9 _ => ⟨16, 0xF000#16, 0x9000#16⟩
  | .reservedAB _ => ⟨16, 0xE000#16, 0xA000#16⟩
  | .reservedCF _ => ⟨16, 0xC000#16, 0xC000#16⟩
  | .cmdVersion => ⟨8, 0xFF#16, 0x01#16⟩
  | .cmdStatus => ⟨8, 0xFF#16, 0x02#16⟩
  | .cmdStop => ⟨8, 0xFF#16, 0x03#16⟩
  | .cmdSyncMove => ⟨8, 0xFF#16, 0x10#16⟩
  | .cmdAsyncMove => ⟨8, 0xFF#16, 0x11#16⟩
  | .rspVersion => ⟨8, 0xFF#16, 0x81#16⟩
  | .rspStatus => ⟨8, 0xFF#16, 0x82#16⟩
  | .rspStop => ⟨8, 0xFF#16, 0x83#16⟩
  | .rspMove => ⟨8, 0xFF#16, 0x90#16⟩
  | .rspError _ => ⟨8, 0xFF#16, 0xFF#16⟩

/-- The width of a code and the bits the table numbers in it. -/
def TableRow.bits : Code → Nat × BitVec 16
  | .opw w => (16, w)
  | .cmd c => (8, c.setWidth 16)
  | .rsp c _ => (8, c.setWidth 16)

/-- A well-formed instruction's code has its row's width, and its bits match the row under the row's mask. -/
def TableRow.Statement (i : Instr) : Prop :=
  i.wellFormed = true →
    (TableRow.bits (encode i)).1 = (TableRow.row i).nbits ∧
    (TableRow.bits (encode i)).2 &&& (TableRow.row i).mask = (TableRow.row i).pattern

/-- A word whose opcode field is given matches the row that fixes the field's bits in `m`. -/
theorem TableRow.match_of_opcOf (w : OpWord) (m o : BitVec 4) (h : opcOf w &&& m = o) :
    w &&& (m ++ 0#12 : BitVec 16) = (o ++ 0#12 : BitVec 16) := by
  subst h
  apply BitVec.eq_of_getLsbD_eq
  intro i hi
  simp only [BitVec.getLsbD_and, BitVec.getLsbD_append, opcOf, BitVec.getLsbD_extractLsb']
  by_cases h12 : i < 12
  · simp [h12]
  · have h4 : i - 12 < 4 := by omega
    have h3 : 12 + (i - 12) = i := by omega
    simp [h12, h4, h3]

theorem TableRow.nop : TableRow.Statement .nop := by unfold TableRow.Statement; decide
theorem TableRow.rxByte (b : Byte) : TableRow.Statement (.rxByte b) := by
  unfold TableRow.Statement; decide +revert
theorem TableRow.decClear : TableRow.Statement .decClear := by unfold TableRow.Statement; decide
theorem TableRow.encFrame (c : Byte) : TableRow.Statement (.encFrame c) := by
  unfold TableRow.Statement; decide +revert
theorem TableRow.txbPush (b : Byte) : TableRow.Statement (.txbPush b) := by
  unfold TableRow.Statement; decide +revert
theorem TableRow.txbClear : TableRow.Statement .txbClear := by unfold TableRow.Statement; decide
theorem TableRow.seqStart (n : BitVec 4) : TableRow.Statement (.seqStart n) := by
  unfold TableRow.Statement; decide +revert
theorem TableRow.seqTick : TableRow.Statement .seqTick := by unfold TableRow.Statement; decide
theorem TableRow.seqStop : TableRow.Statement .seqStop := by unfold TableRow.Statement; decide
theorem TableRow.reserved9 (w : OpWord) : TableRow.Statement (.reserved9 w) := by
  intro h
  simp only [Instr.wellFormed, beq_iff_eq] at h
  exact ⟨rfl, TableRow.match_of_opcOf w 0xF#4 0x9#4 (by rw [h]; decide)⟩
theorem TableRow.reservedAB (w : OpWord) : TableRow.Statement (.reservedAB w) := by
  intro h
  simp only [Instr.wellFormed, Bool.or_eq_true, beq_iff_eq] at h
  exact ⟨rfl, TableRow.match_of_opcOf w 0xE#4 0xA#4 (by rcases h with h | h <;> rw [h] <;> decide)⟩
theorem TableRow.reservedCF (w : OpWord) : TableRow.Statement (.reservedCF w) := by
  intro h
  simp only [Instr.wellFormed, Bool.or_eq_true, beq_iff_eq] at h
  exact ⟨rfl, TableRow.match_of_opcOf w 0xC#4 0xC#4 (by rcases h with ((h | h) | h) | h <;> rw [h] <;> decide)⟩
theorem TableRow.cmdVersion : TableRow.Statement .cmdVersion := by unfold TableRow.Statement; decide
theorem TableRow.cmdStatus : TableRow.Statement .cmdStatus := by unfold TableRow.Statement; decide
theorem TableRow.cmdStop : TableRow.Statement .cmdStop := by unfold TableRow.Statement; decide
theorem TableRow.cmdSyncMove : TableRow.Statement .cmdSyncMove := by unfold TableRow.Statement; decide
theorem TableRow.cmdAsyncMove : TableRow.Statement .cmdAsyncMove := by unfold TableRow.Statement; decide
theorem TableRow.rspVersion : TableRow.Statement .rspVersion := by unfold TableRow.Statement; decide
theorem TableRow.rspStatus : TableRow.Statement .rspStatus := by unfold TableRow.Statement; decide
theorem TableRow.rspStop : TableRow.Statement .rspStop := by unfold TableRow.Statement; decide
theorem TableRow.rspMove : TableRow.Statement .rspMove := by unfold TableRow.Statement; decide
theorem TableRow.rspError (e : Byte) : TableRow.Statement (.rspError e) := by
  unfold TableRow.Statement; decide +revert

end Sys2Proof.Laws
end

