-- ==== Sys2Proof/Tests/Slice0.lean ====
section
/-! SUPPORT. Small tests: ill-formed terms refused, each constructor decoded from a word written out from the spec, single steps whose expected results
are the spec's own (95_test_vectors.md), and for each statement with hypotheses a state that meets them. -/

namespace Sys2Proof.Tests

open Sys2Proof.Machine

/-! ## WellFormed: an ill-formed term for each check -/

theorem test_wellFormed_reserved9 : (Instr.reserved9 0x8FFF#16).wellFormed = false ∧ (Instr.reserved9 0xA000#16).wellFormed = false := by decide
theorem test_wellFormed_reservedAB : (Instr.reservedAB 0x9FFF#16).wellFormed = false ∧ (Instr.reservedAB 0xC000#16).wellFormed = false := by decide
theorem test_wellFormed_reservedCF : (Instr.reservedCF 0xBFFF#16).wellFormed = false ∧ (Instr.reservedCF 0x0000#16).wellFormed = false := by decide
theorem test_wellFormed_legal : (Instr.reserved9 0x9FFF#16).wellFormed = true ∧ (Instr.reservedAB 0xBFFF#16).wellFormed = true ∧
    (Instr.reservedCF 0xC000#16).wellFormed = true ∧ (Instr.seqStart 15#4).wellFormed = true := by decide

/-! ## Decoding: each constructor from its encoding, bit by bit (30_encoding.md R91, R92, R97; 95_test_vectors.md 2.1) -/

theorem test_decode_nop : decodeTableWord 16 0b0000000000000000 = some .nop := by decide
theorem test_decode_rxByte : decodeTableWord 16 0b0001000011001110 = some (.rxByte 0xCE#8) := by decide
theorem test_decode_decClear : decodeTableWord 16 0b0010000000000000 = some .decClear := by decide
theorem test_decode_encFrame : decodeTableWord 16 0b0011000010000011 = some (.encFrame 0x83#8) := by decide
theorem test_decode_txbPush : decodeTableWord 16 0b0100000000000101 = some (.txbPush 0x05#8) := by decide
theorem test_decode_txbClear : decodeTableWord 16 0b0101000000000000 = some .txbClear := by decide
theorem test_decode_seqStart : decodeTableWord 16 0b0110101000000000 = some (.seqStart 10#4) := by decide
theorem test_decode_seqTick : decodeTableWord 16 0b0111000000000000 = some .seqTick := by decide
theorem test_decode_seqStop : decodeTableWord 16 0b1000000000000000 = some .seqStop := by decide
theorem test_decode_reserved9 : decodeTableWord 16 0b1001000000000001 = some (.reserved9 0x9001#16) := by decide
theorem test_decode_reservedAB : decodeTableWord 16 0b1010000000000000 = some (.reservedAB 0xA000#16) := by decide
theorem test_decode_reservedCF : decodeTableWord 16 0b1111111111111111 = some (.reservedCF 0xFFFF#16) := by decide
theorem test_decode_cmdVersion : decodeTableWord 8 0b00000001 = some .cmdVersion := by decide
theorem test_decode_cmdStatus : decodeTableWord 8 0b00000010 = some .cmdStatus := by decide
theorem test_decode_cmdStop : decodeTableWord 8 0b00000011 = some .cmdStop := by decide
theorem test_decode_cmdSyncMove : decodeTableWord 8 0b00010000 = some .cmdSyncMove := by decide
theorem test_decode_cmdAsyncMove : decodeTableWord 8 0b00010001 = some .cmdAsyncMove := by decide
theorem test_decode_rspVersion : decodeTableWord 8 0b10000001 = some .rspVersion := by decide
theorem test_decode_rspStatus : decodeTableWord 8 0b10000010 = some .rspStatus := by decide
theorem test_decode_rspStop : decodeTableWord 8 0b10000011 = some .rspStop := by decide
theorem test_decode_rspMove : decodeTableWord 8 0b10010000 = some .rspMove := by decide
theorem test_decode_rspError : decode (.rsp 0b11111111#8 0x05#8) = .ok (.rspError 0x05#8) := by decide

/-- V-O8 to V-O11: words with a nonzero field that must be zero. -/
theorem test_decode_nonzero_fields :
    decode (.opw 0x2001#16) = .error .nonzeroField ∧ decode (.opw 0x7100#16) = .error .nonzeroField ∧
    decode (.opw 0x1102#16) = .error .nonzeroField ∧ decode (.opw 0x6101#16) = .error .nonzeroField := by decide

/-- A Cmd byte outside R91 is unrecognised (P3). -/
theorem test_decode_unknown_command : decode (.cmd 0x20#8) = .error (.unknownCommand 0x20#8) := by decide

/-! ## Helpers -/

/-- The reset state with one operation word on the port. -/
def withWord (w : OpWord) : State := { State.reset with port := [.word w] }

/-- The reset state with another decoder, encoder or engine. -/
def withDec (d : Decoder) : State := { State.reset with dec := d }
def withEnc (e : Encoder) : State := { State.reset with enc := e }
def withSeq (e : Engine) : State := { State.reset with seq := e }

/-- The records `RA`, `RB` and `RC` of 95_test_vectors.md, and `RA`'s bytes. -/
def recA : MotorSetting := { number := 1#32, acceleration := 100#32, maxSpeed := 200#32, steps := -50#32 }
def recB : MotorSetting := { number := 3#32, acceleration := 1000#32, maxSpeed := 500#32, steps := 200#32 }
def recC : MotorSetting := { number := 5#32, acceleration := 10#32, maxSpeed := 20#32, steps := -1#32 }
def bytesA : List Byte := [0x01#8, 0#8, 0#8, 0#8, 0x64#8, 0#8, 0#8, 0#8, 0xC8#8, 0#8, 0#8, 0#8, 0xCE#8, 0xFF#8, 0xFF#8, 0xFF#8]
/-- `RZ`, whose acceleration is 0. -/
def bytesZ : List Byte := [0x01#8, 0#8, 0#8, 0#8, 0#8, 0#8, 0#8, 0#8, 0x05#8, 0#8, 0#8, 0#8, 0x05#8, 0#8, 0#8, 0#8]

/-- The vectors' parameters: three ticks of debounce, 100 of timeout, 32 drained bytes, command byte 0xA5. -/
def params : Params where
  debounceLessOne := 2
  safetyTimeout := 100
  rxDrainLessOne := 31
  mbCfgCmd := 0xA5#8
  keyActiveHigh := true
  statusBusyHigh := true
  tickHzLessOne := 0
  badMult := .invalidPacketLength
  busyPolicy := none
  estopReport := none

/-- No motor reads busy. -/
def quiet : Lines := Vector.replicate 10 false

/-- An encoder that holds one byte. -/
def oneByte : Encoder := { txbLen := 1#8, txb := [(0, 0x05#8)] }

/-- A decoder in Ready with the frame of Cmd `c` and the Data `ds`. -/
def readyDec (c : Byte) (ds : List Byte) : Decoder := Decoder.accepted (BitVec.ofNat 16 (5 + ds.length)) c ds true

/-- The engine after `START 3` with `RA, RB, RC` (V-S1), and its stages on the way. -/
def started : Engine := Engine.reset.start 3#4 [recA, recB, recC]
def sending (k : BitVec 4) (m : Mask) : Engine := { started with state := .sending, sendIdx := k, pending := m }
def waiting (d : BitVec 16) (t : BitVec 32) : Engine :=
  { started with state := .waitingStatus, sendIdx := 3#4, pending := 0x0015#16, tickCounter := t,
                 deb := ((started.deb.set 0 d).set 2 d).set 4 d }

/-! ## Single steps, expected results from 95_test_vectors.md -/

/-- V-D1, fifth byte: the checksum matches and the frame is reported. -/
theorem test_rxByte_match : (Decoder.mid 5#16 0x01#8 []).rxByte 0x04#8 = .ok (readyDec 0x01#8 []) := by rfl
/-- V-D6, third byte: Length 257 is rejected. -/
theorem test_rxByte_length_257 : (Decoder.gotLenHigh 0x01#8).rxByte 0x01#8 = .ok Decoder.reset := by rfl
/-- V-D17: DEC_CLEAR in the middle of a frame. -/
theorem test_decClear_midframe : exec .decClear (withDec (Decoder.gotLength 6#16)) = .next State.reset := by rfl
/-- V-D18: NOP ends the pulse of `dec_done` and leaves the frame ready. -/
theorem test_nop_clears_done : exec .nop (withDec (readyDec 0x01#8 [])) = .next (withDec { readyDec 0x01#8 [] with frameDone := false }) := by rfl
/-- V-E3: `SEND 0xFF, [05]` emits `02 00 06 FF 05 FC`. -/
theorem test_encFrame_error : exec (.encFrame 0xFF#8) (withEnc oneByte) =
    .next { withEnc oneByte with hist := [.host 0x02#8, .host 0x00#8, .host 0x06#8, .host 0xFF#8, .host 0x05#8, .host 0xFC#8] } := by rfl
/-- V-E1: with nothing queued, `ENC 0x81` emits `02 00 05 81 84`. -/
theorem test_encFrame_empty : exec (.encFrame 0x81#8) State.reset =
    .next { State.reset with hist := [.host 0x02#8, .host 0x00#8, .host 0x05#8, .host 0x81#8, .host 0x84#8] } := by rfl
/-- V-E9: the 252nd push is refused. -/
theorem test_txbPush_full : exec (.txbPush 0xAA#8) (withEnc { txbLen := 251#8, txb := [] }) =
    .next { withEnc { txbLen := 251#8, txb := [] } with refused := some .refTxbFull } := by rfl
/-- V-E2: the push of `PUSH 0x05` on an empty buffer. -/
theorem test_txbPush_first : exec (.txbPush 0x05#8) State.reset = .next (withEnc oneByte) := by rfl
/-- V-E4: TXCLR empties the buffer. -/
theorem test_txbClear : exec .txbClear (withEnc oneByte) = .next (withEnc { txbLen := 0#8, txb := [(0, 0x05#8)] }) := by rfl
/-- V-M1, with `RA`'s bytes: little-endian fields and negative steps. -/
theorem test_msdDecode : msdDecode (Mem.ofBytes 0 bytesA) 0 = some recA ∧ recA.stepsInt = -50 := by decide
/-- V-M3, V-M7, V-M9: the whole of `number` counts, as an unsigned value. -/
theorem test_msdValid : msdValid { recA with number := 11#32 } = false ∧ msdValid { recA with number := 259#32 } = false ∧
    msdValid { recA with number := 4294967295#32 } = false ∧ msdValid { recA with number := 10#32 } = true := by decide
/-- V-S1: the masks of motors 1, 3 and 5. -/
theorem test_start_active : started.active = 0x0015#16 ∧ started.state = .checkingRx ∧ started.running = true ∧ started.allComplete = false := by decide
/-- V-S11: START 11 is refused for its count. -/
theorem test_seqStart_count : exec (.seqStart 11#4) State.reset = .next { State.reset with refused := some .refStartCount } := by rfl
/-- V-S2, tick 2: motor 1 is sent, `A5 64 00 00 00 C8 00 00 00 CE FF FF FF 38` between its key edges. -/
theorem test_seqTick_sends : (sending 0#4 0#16).tick params quiet [] = .ok (sending 1#4 0x0001#16,
    [.key 1 true, .mbus 0xA5#8, .mbus 0x64#8, .mbus 0#8, .mbus 0#8, .mbus 0#8, .mbus 0xC8#8, .mbus 0#8, .mbus 0#8, .mbus 0#8,
     .mbus 0xCE#8, .mbus 0xFF#8, .mbus 0xFF#8, .mbus 0xFF#8, .mbus 0x38#8, .key 1 false]) := by decide
/-- V-S2, tick 7: the third deasserted sample completes all three motors. -/
theorem test_seqTick_completes : (waiting 2#16 2#32).tick params quiet [] =
    .ok ({ waiting 3#16 3#32 with pending := 0#16, completed := 0x0015#16, state := .complete, running := false }, []) := by decide
/-- V-S5: STOP while waiting completes every active motor and leaves the counters. -/
theorem test_seqStop_waiting : exec .seqStop (withSeq (waiting 3#16 3#32)) =
    .next (withSeq { waiting 3#16 3#32 with completed := 0x0015#16, pending := 0#16, state := .idle, running := false }) := by rfl
/-- V-S6: STOP from reset. -/
theorem test_seqStop_reset : exec .seqStop State.reset = .next State.reset ∧ State.reset.allComplete = false := ⟨rfl, rfl⟩
/-- V-O6: a reserved word, as the first thing after reset. -/
theorem test_step_reserved : step (State.reset.withFetchWord 16 0x9000) = .next { State.reset with refused := some .refReservedOp } := by rfl
/-- P1, the controller's turn: the STOP request selects the STOP handler, whose program in a build with no report is SEQ_STOP, the STOP response
and DEC_CLEAR. -/
theorem test_step_stop_command : (∃ t, step (State.reset.withFetchWord 8 0x03) = .next t ∧ t.ctl = stopProgram Config.params ++ []) ∧
    stopProgram params = [.op 0x8000#16, .rsp 0x83#8 0#8, .op 0x2000#16] := ⟨⟨_, rfl, rfl⟩, rfl⟩
/-- A build's report `SEND 0xFF, [0x0B]` (R242), here: `TXCLR; PUSH 0x0B; ENC 0xFF` after the STOP response, or queued at an event. -/
def stopReport (t : ReportTrigger) : Params := { params with estopReport := some { frame := .error, trigger := t } }
theorem test_stop_report : stopProgram (stopReport .afterStopAnswer) =
      [.op 0x8000#16, .rsp 0x83#8 0#8, .op 0x5000#16, .op 0x400B#16, .op 0x30FF#16, .op 0x2000#16] ∧
    stopProgram (stopReport .stopEvent) = stopProgram params ∧
    ({ State.reset with ctl := [.waitComplete] }.queueReport (stopReport .stopEvent)).ctl =
      [.waitComplete, .op 0x5000#16, .op 0x400B#16, .op 0x30FF#16] := ⟨rfl, rfl, rfl⟩
/-- A report in another response carries the byte too (R93): `SEND 0x83, [0x00, 0x0B]`, and with 251 bytes before it the last byte is still it. -/
theorem test_report_carries_byte :
    ReportFrame.response (.plain .stop [0x00#8] []) = { code := 0x83#8, payload := [0x00#8, 0x0B#8] } ∧
    (ReportFrame.response (.plain .stop (List.replicate 251 0#8) [0#8])).data.getLast? = some 0x0B#8 ∧
    ReportFrame.response .error = { code := 0xFF#8, payload := [0x0B#8] } := by decide
/-- A build that answers `SEND 0x90, [BUSY]` (R94, R241) to a move command while the engine runs, and restarts it in no case. -/
def busyBuild (first : Bool) : Params :=
  { params with busyPolicy := some { frame := .plain .move [0x01#8], beforeChecks := first, beforeClear := true } }
theorem test_busy_answer :
    (handleMove (busyBuild false) true { withDec (readyDec 0x10#8 bytesA) with seq := started }).ctl = [.op 0x5000#16, .op 0x4001#16, .op 0x3090#16, .op 0x2000#16] ∧
    (handleMove (busyBuild false) true { withDec (readyDec 0x10#8 bytesZ) with seq := started }).ctl = [.rsp 0xFF#8 0x05#8, .op 0x2000#16] ∧
    (handleMove (busyBuild true) true { withDec (readyDec 0x10#8 bytesZ) with seq := started }).ctl = [.op 0x5000#16, .op 0x4001#16, .op 0x3090#16, .op 0x2000#16] ∧
    (handleMove (busyBuild true) true (withDec (readyDec 0x10#8 bytesZ))).ctl = [.rsp 0xFF#8 0x05#8, .op 0x2000#16] := ⟨rfl, rfl, rfl, rfl⟩
/-- P4: the move command with an invalid record is answered with MOTOR_PARAM_ERROR. -/
theorem test_syncMove_invalid : ∃ t, exec .cmdSyncMove (withDec (readyDec 0x10#8 bytesZ)) = .next t ∧
    t.ctl = [.rsp 0xFF#8 0x05#8, .op 0x2000#16] := ⟨_, rfl, rfl⟩
/-- P2: the move command with `RA` issues `START 1` (0x6100) and DEC_CLEAR and then waits. -/
theorem test_syncMove_valid : ∃ t, exec .cmdSyncMove (withDec (readyDec 0x10#8 bytesA)) = .next t ∧
    t.ctl = [.op 0x6100#16, .op 0x2000#16, .waitComplete, .rsp 0x90#8 0#8] := ⟨_, rfl, rfl⟩
/-- P5: the asynchronous move answers at once. -/
theorem test_asyncMove_valid : ∃ t, exec .cmdAsyncMove (withDec (readyDec 0x11#8 bytesA)) = .next t ∧
    t.ctl = [.op 0x6100#16, .op 0x2000#16, .rsp 0x90#8 0#8] := ⟨_, rfl, rfl⟩
/-- P1: the STOP response is `TXCLR; PUSH 0x00; ENC 0x83`. -/
theorem test_rspStop : ∃ t, exec .rspStop State.reset = .next t ∧ t.ctl = [.op 0x5000#16, .op 0x4000#16, .op 0x3083#16] := ⟨_, rfl, rfl⟩
/-- P2: the MOVE response is `TXCLR; PUSH 0x00; ENC 0x90`. -/
theorem test_rspMove : ∃ t, exec .rspMove State.reset = .next t ∧ t.ctl = [.op 0x5000#16, .op 0x4000#16, .op 0x3090#16] := ⟨_, rfl, rfl⟩
/-- P3: the ERROR response `TXCLR; PUSH 0x01; ENC 0xFF`. -/
theorem test_rspError : ∃ t, exec (.rspError 0x01#8) State.reset = .next t ∧ t.ctl = [.op 0x5000#16, .op 0x4001#16, .op 0x30FF#16] := ⟨_, rfl, rfl⟩

/-! ## Witnesses: for each statement with hypotheses, states and operands that meet them -/

theorem test_witness_DecodeEncodeAgree : (Instr.reservedCF 0xFFFF#16).wellFormed = true ∧ (Instr.reserved9 0x9000#16).wellFormed = true := by decide
theorem test_witness_EncodeDecodeAgree : decode (.opw 0x6F00#16) = .ok (.seqStart 15#4) ∧ decode (.rsp 0xFF#8 0x0D#8) = .ok (.rspError 0x0D#8) := by decide
/-- A word for each branch: the first and the last reserved opcode; a nonzero `aux` in the last legal opcode, which is no SEQ_START; a nonzero `byte` in
SEQ_START, whose `aux` is free; and a legal word with both its fields at a boundary. -/
theorem test_witness_OperationWordsDecode : (withWord 0x9000#16).refused = none ∧ (withWord 0x9000#16).port = .word 0x9000#16 :: [] ∧
    9 = ((0x9000#16).extractLsb' 12 4).toNat ∧ 15 = ((0xFFFF#16).extractLsb' 12 4).toNat ∧
    8 = ((0x8100#16).extractLsb' 12 4).toNat ∧ 1#4 = (0x8100#16).extractLsb' 8 4 ∧
    6 = ((0x6F01#16).extractLsb' 12 4).toNat ∧ 15#4 = (0x6F01#16).extractLsb' 8 4 ∧ 1#8 = (0x6F01#16).extractLsb' 0 8 ∧
    1 = ((0x10FF#16).extractLsb' 12 4).toNat ∧ 0#4 = (0x10FF#16).extractLsb' 8 4 ∧ 0xFF#8 = (0x10FF#16).extractLsb' 0 8 := by decide

/-- A state whose controller has a program, and its turn next. -/
def withTurn (c : List CtlItem) (d : Decoder) : State := { State.reset with port := [.controller], ctl := c, dec := d }

theorem test_witness_StepRunsDecodedInstruction :
    ((withWord 0x8000#16).refused = none ∧ (withWord 0x8000#16).port = .word 0x8000#16 :: [] ∧ decode (.opw 0x8000#16) = .ok .seqStop) ∧
    ((withTurn [.op 0x2000#16] Decoder.reset).ctl = .op 0x2000#16 :: [] ∧ decode (.opw 0x2000#16) = .ok .decClear) ∧
    ((withTurn [.rsp 0xFF#8 0x05#8] Decoder.reset).ctl = .rsp 0xFF#8 0x05#8 :: [] ∧ decode (.rsp 0xFF#8 0x05#8) = .ok (.rspError 0x05#8)) ∧
    ((withTurn [] (readyDec 0x03#8 [])).ctl = [] ∧ (readyDec 0x03#8 []).state = .ready ∧ decode (.cmd (readyDec 0x03#8 []).cmd) = .ok .cmdStop) := by
  decide
theorem test_witness_StepsWithoutInstruction :
    (State.reset.refused = none ∧ State.reset.port = []) ∧
    ((withTurn [] Decoder.reset).refused = none ∧ (withTurn [] Decoder.reset).port = .controller :: [] ∧ (withTurn [] Decoder.reset).dec.state ≠ .ready) ∧
    ((withTurn [.waitComplete] Decoder.reset).port = .controller :: [] ∧ (withTurn [.waitComplete] Decoder.reset).ctl = .waitComplete :: []) ∧
    ({ withWord 0x8000#16 with refused := some .refTxbFull }.refused = some .refTxbFull ∧ (withWord 0x8000#16).port.head? = some (.word 0x8000#16)) ∧
    { withTurn [.waitComplete] Decoder.reset with port := [.stopEvent, .controller] }.port = .stopEvent :: [.controller] ∧
    { withTurn [.waitComplete] Decoder.reset with port := [.resetInput, .controller] }.port = .resetInput :: [.controller] := by
  decide
/-- Both answers of the wait: an active motor completed, and none active. -/
theorem test_witness_StepsWithoutInstruction_wait :
    (0x0001#16 ≠ 0#16 ∧ 0x0001#16 &&& 0x0001#16 = 0x0001#16) ∧ ¬ (State.reset.seq.active ≠ 0#16) := by decide
theorem test_witness_ResetInputResets : { withTurn [.waitComplete] (readyDec 1#8 []) with port := [.resetInput, .controller], refused := some .refTxbFull }.port =
    .resetInput :: [.controller] := by decide

/-- States that meet the machine's invariant, one at each kind of decoder and engine. -/
theorem inv_of_parts {d : Decoder} {e : Encoder} {q : Engine} {s : State} (hd : d.Inv) (he : e.Inv) (hq : q.Inv Config.params)
    (h1 : s.dec = d) (h2 : s.enc = e) (h3 : s.seq = q) : s.Inv := by subst h1 h2 h3; exact ⟨hd, he, hq⟩

theorem mid_cnt (l : BitVec 16) (c : Byte) (ds : List Byte) : (Decoder.mid l c ds).cnt = BitVec.ofNat 8 (4 + ds.length) := rfl
theorem readyDec_len (c : Byte) (ds : List Byte) : (readyDec c ds).len = BitVec.ofNat 16 (5 + ds.length) := rfl

theorem readyDec_inv (c : Byte) (ds : List Byte) (h : ds.length ≤ 251) : (readyDec c ds).Inv := by
  have hl : (BitVec.ofNat 16 (5 + ds.length)).toNat = 5 + ds.length := by rw [BitVec.toNat_ofNat]; omega
  exact (Decoder.inv_iff _).mpr (Or.inr (Or.inr (Or.inr (Or.inr (Or.inr ⟨_, c, ds, true, by omega, by rw [hl]; show _ ≤ 256; omega, rfl⟩)))))

theorem resetDec_inv : Decoder.reset.Inv := (Decoder.inv_iff _).mpr (Or.inl rfl)

theorem mid_inv (l : BitVec 16) (c : Byte) (ds : List Byte) (h1 : ds.length + 5 ≤ l.toNat) (h2 : l.toNat ≤ 256) : (Decoder.mid l c ds).Inv :=
  (Decoder.inv_iff _).mpr (Or.inr (Or.inr (Or.inr (Or.inr (Or.inl ⟨l, c, ds, h1, h2, rfl⟩)))))

theorem oneByte_inv : oneByte.Inv := by decide

/-- A state with one byte queued and the three-motor engine started, its next word `TICK`. -/
def running : State := { State.reset with enc := oneByte, seq := started, port := [.word 0x7000#16] }

theorem running_inv : running.Inv := inv_of_parts resetDec_inv oneByte_inv (by decide : started.Inv Config.params) rfl rfl rfl

theorem test_witness_StepKeepsInvariant : running.Inv ∧ ∃ t, step running = .next t := ⟨running_inv, _, rfl⟩
theorem test_witness_StepKeepsMemoryForm : running.memWf ∧ ∃ t, step running = .next t := ⟨by decide, _, rfl⟩
theorem test_witness_MaskInvariants : (withWord 0x8000#16).Inv ∧ ∃ t, step (withWord 0x8000#16) = .next t :=
  ⟨inv_of_parts resetDec_inv (by decide : Encoder.reset.Inv) (by decide : Engine.reset.Inv Config.params) rfl rfl rfl, _, rfl⟩

/-- The clauses of DecoderInvariants: a step that leaves WaitStx (DEC_CLEAR), one that leaves WaitData with nothing received (Length 6) and one that
leaves WaitXor with the shortest frame (Length 5). -/
def atCmd (l : BitVec 16) (w : OpWord) : State := { withWord w with dec := Decoder.gotLength l }
theorem test_witness_DecoderInvariants : (atCmd 6#16 0x1010#16).Inv ∧
    (∃ t, step (atCmd 6#16 0x1010#16) = .next t ∧ t.dec.state = .waitData) ∧
    (∃ t, step (atCmd 5#16 0x1010#16) = .next t ∧ t.dec.state = .waitXor) ∧
    (∃ t, step (atCmd 6#16 0x2000#16) = .next t ∧ t.dec.state = .waitStx) :=
  ⟨inv_of_parts ((Decoder.inv_iff _).mpr (Or.inr (Or.inr (Or.inr (Or.inl ⟨6#16, by decide, by decide, rfl⟩)))))
    (by decide : Encoder.reset.Inv) (by decide : Engine.reset.Inv Config.params) rfl rfl rfl, ⟨_, rfl, rfl⟩, ⟨_, rfl, rfl⟩, ⟨_, rfl, rfl⟩⟩

theorem test_witness_RxWaitStx : State.reset.dec.state = .waitStx ∧ State.reset.dec.Inv := ⟨rfl, resetDec_inv⟩
theorem test_witness_RxWaitLenHigh : (withDec Decoder.gotStx).dec.state = .waitLenHigh := rfl
/-- Lengths 4 and 257 are outside the range, 5 and 256 inside it. -/
theorem test_witness_RxWaitLenLow : (withDec (Decoder.gotLenHigh 0x00#8)).dec.state = .waitLenLow ∧
    ((Decoder.gotLenHigh 0x00#8).len ||| (0x04#8).setWidth 16).toNat < 5 ∧ 256 < ((Decoder.gotLenHigh 0x01#8).len ||| (0x01#8).setWidth 16).toNat ∧
    ((Decoder.gotLenHigh 0x00#8).len ||| (0x05#8).setWidth 16).toNat = 5 ∧ ((Decoder.gotLenHigh 0x01#8).len ||| (0x00#8).setWidth 16).toNat = 256 := by decide
theorem test_witness_RxWaitCmd : (withDec (Decoder.gotLength 5#16)).dec.state = .waitCmd ∧ (withDec (Decoder.gotLength 6#16)).dec.len ≠ 5#16 := by decide
theorem test_witness_RxWaitData : (Decoder.mid 6#16 0x10#8 []).Inv ∧ (Decoder.mid 6#16 0x10#8 []).state = .waitData ∧
    (Decoder.mid 6#16 0x10#8 []).cnt.toNat = 3 + 1 ∧ (Decoder.mid 256#16 0x10#8 (List.replicate 250 0#8)).Inv ∧
    (Decoder.mid 256#16 0x10#8 (List.replicate 250 0#8)).cnt.toNat = 3 + 251 :=
  ⟨mid_inv _ _ _ (by decide) (by decide), rfl, rfl, mid_inv _ _ _ (by rw [List.length_replicate]; decide) (by decide), by rw [mid_cnt, List.length_replicate]; decide⟩
theorem test_witness_RxWaitXor : (withDec (Decoder.mid 5#16 0x01#8 [])).dec.state = .waitXor ∧ (Decoder.mid 5#16 0x01#8 []).xor = 0x04#8 ∧
    (Decoder.mid 5#16 0x01#8 []).Inv := ⟨rfl, rfl, mid_inv _ _ _ (by decide) (by decide)⟩
theorem test_witness_RxReadyDiscards : (withDec (readyDec 0x01#8 [])).dec.state = .ready := rfl
theorem test_witness_RxByteCompletes : (Decoder.mid 5#16 0x01#8 []).Inv ∧ (readyDec 0x10#8 bytesA).Inv :=
  ⟨mid_inv _ _ _ (by decide) (by decide), readyDec_inv _ _ (by decide)⟩
theorem test_witness_LegalFrameAccepted : bytesA.length ≤ 251 ∧ (List.replicate 251 0x00#8).length ≤ 251 ∧ State.reset.dec.Inv ∧
    State.reset.dec.state = .waitStx := ⟨by decide, by rw [List.length_replicate], resetDec_inv, rfl⟩
/-- The VERSION request `02 00 05 01 04` of V-D1, fed from reset. -/
theorem test_witness_OnlyLegalFramesAccepted : State.reset.dec.Inv ∧ State.reset.dec.state = .waitStx ∧
    (∀ k u, 0 < k → k < 5 → execAll (feedOps ([0x02#8, 0x00#8, 0x05#8, 0x01#8, 0x04#8].take k)) State.reset = .next u →
      u.dec.state ≠ .waitStx ∧ u.dec.state ≠ .ready) ∧
    ∃ t, execAll (feedOps [0x02#8, 0x00#8, 0x05#8, 0x01#8, 0x04#8]) State.reset = .next t ∧ t.dec.frameDone = true := by
  refine ⟨resetDec_inv, rfl, fun k u h1 h2 h => ?_, _, rfl, rfl⟩
  have : k = 1 ∨ k = 2 ∨ k = 3 ∨ k = 4 := by omega
  rcases this with rfl | rfl | rfl | rfl <;> (injection h with h; subst h; decide)
/-- The first corruptible byte (Cmd, offset 3) and the last one (Xor) of `02 00 06 10 AA BC`. -/
theorem test_witness_BitErrorRejected : ([0xAA#8] : List Byte).length ≤ 251 ∧ State.reset.dec.Inv ∧ State.reset.dec.state = .waitStx ∧
    (frameBytes 6#16 0x10#8 [0xAA#8])[3]? = some 0x10#8 ∧ (frameBytes 6#16 0x10#8 [0xAA#8])[5]? = some 0xBC#8 := ⟨by decide, resetDec_inv, rfl, rfl, rfl⟩
theorem test_witness_TxbPushAppends : (withEnc { txbLen := 251#8, txb := [] }).enc.txbLen.toNat = 251 ∧
    (withEnc { txbLen := 250#8, txb := [] }).enc.txbLen.toNat < 251 := by decide
theorem test_witness_EncFrameEmits : (withEnc oneByte).enc.Inv ∧ (0 : Nat) < (withEnc oneByte).enc.txbLen.toNat := ⟨oneByte_inv, by decide⟩
theorem test_witness_EncodedFrameDecodes : (withEnc oneByte).enc.Inv ∧ (withEnc oneByte).dec.Inv ∧ (withEnc oneByte).dec.state = .waitStx :=
  ⟨oneByte_inv, resetDec_inv, rfl⟩
theorem test_witness_DecClearResets : (State.reset.dec.Inv ∧ State.reset.dec.state = .waitStx) ∧ (withDec (readyDec 0x01#8 [])).dec.state = .ready ∧
    Instr.nop ≠ .decClear ∧ ∃ t, exec .nop (withDec (readyDec 0x01#8 [])) = .next t := ⟨⟨resetDec_inv, rfl⟩, rfl, by simp, _, rfl⟩
/-- The frame that carries `RA`, and the shortest frame, held through a START. -/
theorem test_witness_ReadyFrameHeld : (withDec (readyDec 0x10#8 bytesA)).dec.state = .ready ∧ Instr.seqStart 1#4 ≠ .decClear ∧
    (∃ t, exec (.seqStart 1#4) (withDec (readyDec 0x10#8 bytesA)) = .next t) ∧ (withDec (readyDec 0x10#8 bytesA)).dec.Inv ∧
    (withDec (readyDec 0x01#8 [])).dec.Inv := ⟨rfl, by simp, ⟨_, rfl⟩, readyDec_inv _ _ (by decide), readyDec_inv _ _ (by decide)⟩
/-- The RX_BYTE that matches, and an operation after it. -/
theorem test_witness_DoneFollowsLastOperation : encode (.rxByte 0x04#8) = .opw 0x1004#16 ∧ (withDec (Decoder.mid 5#16 0x01#8 [])).refused = none ∧
    (∃ t, exec (.rxByte 0x04#8) (withDec (Decoder.mid 5#16 0x01#8 [])) = .next t ∧ t.refused = none) ∧
    encode .seqTick = .opw 0x7000#16 ∧ ∃ t, exec .seqTick (withDec (readyDec 0x01#8 [])) = .next t ∧ t.refused = none :=
  ⟨rfl, rfl, ⟨_, rfl, rfl⟩, rfl, _, rfl, rfl⟩
/-- A whole record; and a record with no byte written, and one with only its last byte missing. -/
theorem test_witness_RecordDecoding : (∀ i, i < 16 → Mem.read (Mem.ofBytes 0 bytesA) (16 * 0 + i) = some ((bytesA[i]?).getD 0#8)) ∧
    Mem.read (Mem.ofBytes 0 bytesA) (16 * 1 + 0) = none ∧ Mem.read (Mem.ofBytes 0 (bytesA.take 15)) (16 * 0 + 15) = none := by decide
theorem test_witness_StartAfterClearRefused : 1 ≤ (1#4).toNat ∧ (1#4).toNat ≤ 10 ∧ 1 ≤ (10#4).toNat ∧ (10#4).toNat ≤ 10 := by decide
theorem test_witness_StartCountRefused : 10 < (11#4).toNat ∧ 10 < (15#4).toNat := by decide
/-- Record 1 unwritten after a valid record 0, and record 0 invalid. -/
theorem test_witness_StartFirstFailureRefused : (2#4).toNat ≤ 10 ∧ 1 < (2#4).toNat ∧
    (∀ j, j < 1 → ∃ r, msdDecode (Mem.ofBytes 0 bytesA) j = some r ∧ msdValid r = true) ∧ msdDecode (Mem.ofBytes 0 bytesA) 1 = none ∧
    (∃ r, msdDecode (Mem.ofBytes 0 bytesZ) 0 = some r ∧ msdValid r = false) := by
  refine ⟨by decide, by decide, fun j hj => ?_, rfl, _, rfl, by decide⟩
  have : j = 0 := by omega
  subst this; exact ⟨recA, by decide, by decide⟩
theorem test_witness_StartInitialises : (1#4).toNat ≤ 10 ∧
    (∀ k, k < (1#4).toNat → msdDecode (Mem.ofBytes 0 bytesA) k = some recA ∧ msdValid recA = true) := by decide
/-- An engine at reset, and one in Complete. -/
theorem test_witness_TickNotRunning : State.reset.seq.running = false ∧
    { waiting 0#16 0#32 with pending := 0#16, completed := 0x0015#16, state := .complete, running := false }.Inv Config.params := ⟨rfl, by decide⟩
theorem test_witness_TickCheckingRx : (withSeq started).seq.running = true ∧ (withSeq started).seq.state = .checkingRx := by decide
/-- The first record and the last one to send; and a start with no record, which has nothing to send. -/
theorem test_witness_TickSending : (sending 0#4 0#16).latchOk ∧ (sending 2#4 0x0005#16).latchOk ∧ (sending 2#4 0x0005#16).running = true ∧
    (sending 2#4 0x0005#16).state = .sending ∧ (sending 2#4 0x0005#16).sendIdx.toNat < 10 ∧
    (sending 2#4 0x0005#16).sendIdx.toNat < (sending 2#4 0x0005#16).motorCount.toNat := by decide
theorem test_witness_TickSending_none : { Engine.reset.start 0#4 [] with state := .sending }.latchOk ∧
    { Engine.reset.start 0#4 [] with state := .sending }.running = true ∧
    { Engine.reset.start 0#4 [] with state := .sending }.sendIdx.toNat = { Engine.reset.start 0#4 [] with state := .sending }.motorCount.toNat := by decide
theorem test_witness_TickWaiting : (withSeq (waiting 0#16 0#32)).seq.running = true ∧ (withSeq (waiting 0#16 0#32)).seq.state = .waitingStatus ∧
    (withSeq (waiting 0#16 0#32)).seq.pending &&& 0xFC00#16 = 0#16 ∧ (withSeq (waiting 0#16 0#32)).seq.pending.getLsbD 0 = true ∧
    (withSeq (waiting 0#16 0#32)).seq.pending.getLsbD 1 = false := by decide
theorem test_witness_TickCompletesBounded : (withSeq started).seq.Inv Config.params ∧ (withSeq (sending 0#4 0#16)).seq.Inv Config.params :=
  ⟨by decide, by decide⟩
/-- Motor 1 of V-S2, from its first WaitingStatus tick on. -/
theorem test_witness_DebouncePromotes : (waiting 0#16 0#32).Inv params ∧ (waiting 0#16 0#32).state = .waitingStatus ∧
    (waiting 0#16 0#32).pending.getLsbD (0 : Fin 10).val = true ∧ (waiting 0#16 0#32).deb[(0 : Fin 10)] = 0#16 ∧
    (waiting 0#16 0#32).tickCounter.toNat + params.debounceTicks ≤ params.safetyTimeoutTicks ∧
    (∀ j : Nat, j < params.debounceTicks → ((fun _ => quiet) j : Lines)[(0 : Fin 10)] = false) := by
  refine ⟨by decide, by decide, by decide, by decide, by decide, fun _ _ => by simp [quiet]⟩
/-- No record at all, and one valid record. -/
theorem test_witness_SequenceTerminates : (withDec (readyDec 0x10#8 bytesA)).Inv ∧ startAccepted (Mem.ofBytes 0 bytesA) 1#4 ∧ startAccepted [] 0#4 ∧
    ∃ t, exec (.seqStart 1#4) (withDec (readyDec 0x10#8 bytesA)) = .next t := by
  refine ⟨inv_of_parts (readyDec_inv 0x10#8 bytesA (by decide)) (by decide : Encoder.reset.Inv) (by decide : Engine.reset.Inv Config.params) rfl rfl rfl,
    ⟨by decide, fun k hk => ?_⟩, ⟨by decide, fun k hk => by simp at hk⟩, _, rfl⟩
  have : k = 0 := by simpa using hk
  subst this; exact ⟨recA, by decide, by decide⟩
/-- The run of the fair clause from that start: nothing but ticks arrive. Every prefix of it answers a next state. -/
theorem ticks_run (k : Nat) (t : State) (hi : t.seq.Inv Config.params) (hr : t.refused = none) :
    ∃ u, runArrivals (fun _ => .word 0x7000#16) k t = .next u ∧ u.seq.Inv Config.params ∧ u.refused = none := by
  induction k with
  | zero => exact ⟨t, rfl, hi, hr⟩
  | succ k ih =>
    obtain ⟨u, h1, h2, h3⟩ := ih
    obtain ⟨e, evs, he, hinv⟩ := Engine.tick_inv h2 (Config.busyLevels u.draws) (Config.mbRxBytes u.draws)
    have hd : decode (.opw 0x7000#16) = .ok .seqTick := by decide
    refine ⟨(((u.setPort []).clearDone.setSeq e).emit evs).drew u.seq.drawsInput, ?_, hinv, h3⟩
    simp only [runArrivals, h1, step, fetch, State.setPort, h3, hd, exec, execSeqTick, he]
theorem test_witness_SequenceTerminates_fair : ∃ t, exec (.seqStart 1#4) (withDec (readyDec 0x10#8 bytesA)) = .next t ∧
    ∃ σ : Nat → Arrival, TickFair σ ∧ (∀ k, σ k ≠ .resetInput) ∧ (∀ k, ∃ u, runArrivals σ k t = .next u) ∧
      (∀ k u v w, runArrivals σ k t = .next u → fetch (u.setPort [σ k]) = .run (.opw w) v → w.extractLsb' 12 4 ≠ 0x6#4 ∧ w.extractLsb' 12 4 ≠ 0x8#4) := by
  have hrs : startRecords (withDec (readyDec 0x10#8 bytesA)).dec.buf 1#4 = .ok [recA] := by rfl
  have hi : (Engine.start 1#4 [recA] Engine.reset).Inv Config.params := Engine.start_inv _ rfl hrs
  simp only [exec, execSeqStart, hrs]
  refine ⟨_, rfl, fun _ => .word 0x7000#16, fun n => ⟨n, Nat.le_refl n, rfl⟩, by simp, fun k => ?_, fun k u v w _ h => ?_⟩
  · obtain ⟨u, h, _⟩ := ticks_run k (((State.clearDone (withDec (readyDec 0x10#8 bytesA))).setSeq (Engine.start 1#4 [recA] Engine.reset)).emit
      (drainEvents Config.params (Config.mbRxBytes 0)) |>.drew true) (by rw [State.drew_seq, State.emit_seq, State.setSeq_seq]; exact hi)
      (by rw [State.drew_refused, State.emit_refused]; rfl)
    exact ⟨u, h⟩
  · simp only [fetch, State.setPort_port] at h
    split at h <;> cases h
    decide
/-- Key lines all deasserted (the clause without an event), and one asserted. -/
theorem test_witness_StopAborts : (∀ i : Fin 10, State.reset.seq.key[i] = false) ∧
    { Engine.reset with key := quiet.set 9 true }.key[(9 : Fin 10)] = true := by decide
theorem test_witness_StopAgainstTick : (withSeq (waiting 0#16 0#32)).seq.Inv Config.params ∧ (withSeq (waiting 0#16 0#32)).seq.running = true := by decide
theorem test_witness_CompletedOnlyGains : (withSeq started).seq.Inv Config.params ∧ (∀ n, Instr.seqStop ≠ .seqStart n) ∧
    ∃ t, exec .seqStop (withSeq started) = .next t := ⟨by decide, by simp, _, rfl⟩
theorem test_witness_SingleWriter : ∃ t, exec .seqStop (withSeq started) = .next t ∧ (∀ b, Instr.seqStop ≠ .rxByte b) ∧ Instr.seqStop ≠ .decClear ∧
    (∀ b, Instr.seqStop ≠ .txbPush b) ∧ Instr.seqStop ≠ .txbClear ∧ Instr.nop ≠ .seqTick ∧ Instr.nop ≠ .seqStop := ⟨_, rfl, by simp, by simp, by simp, by simp, by simp, by simp⟩
theorem test_witness_HistoryOnlyGrows : ∃ t, exec (.rxByte 0x02#8) State.reset = .next t ∧ (∀ c, Instr.rxByte 0x02#8 ≠ .encFrame c) := ⟨_, rfl, by simp⟩
theorem test_witness_RefusalChangesNothing : ∃ t, exec (.reserved9 0x9000#16) State.reset = .next t ∧ t.refused ≠ State.reset.refused ∧
    (State.reset.refuse .refTxbFull).refused ≠ none := ⟨_, rfl, by decide, by decide⟩
theorem test_witness_ZeroRecordMoveHangs : (withTurn [.waitComplete] Decoder.reset).seq.active = 0#16 ∧
    (withTurn [.waitComplete] Decoder.reset).ctl = .waitComplete :: [] ∧ (∀ rest, (withTurn [.waitComplete] Decoder.reset).port ≠ .resetInput :: rest) ∧
    (∀ w rest, (withTurn [.waitComplete] Decoder.reset).port = .word w :: rest → w.extractLsb' 12 4 ≠ 0x6#4) ∧
    (∀ rest, (withTurn [.waitComplete] Decoder.reset).port ≠ .stopEvent :: rest) ∧
    ∃ t, step (withTurn [.waitComplete] Decoder.reset) = .next t := ⟨rfl, rfl, by simp [withTurn], by simp [withTurn], by simp [withTurn], _, rfl⟩
theorem test_witness_MoveAccepted : (withDec (readyDec 0x10#8 bytesA)).dec.state = .ready ∧ (withDec (readyDec 0x10#8 bytesA)).dec.len.toNat = 5 + 16 * (1#4).toNat ∧
    startAccepted (withDec (readyDec 0x10#8 bytesA)).dec.buf 1#4 ∧ (withDec (readyDec 0x10#8 bytesA)).seq.running = false ∧
    { withDec (readyDec 0x10#8 bytesA) with seq := started }.seq.running = true ∧ (BusyFrame.error .motorParamError).response.code = 0xFF#8 := by
  refine ⟨rfl, rfl, ⟨by decide, fun k hk => ?_⟩, rfl, rfl, rfl⟩
  have : k = 0 := by simpa using hk
  subst this; exact ⟨recA, by decide, by decide⟩
/-- Each check: 17 Data bytes; 11 records; one record with acceleration 0. -/
theorem test_witness_MoveRejected : (readyDec 0x10#8 (0#8 :: bytesA)).len.toNat = 5 + 17 ∧ (17 : Nat) ≤ 251 ∧ (17 : Nat) % 16 ≠ 0 ∧
    (readyDec 0x11#8 (List.replicate 176 0#8)).len.toNat = 5 + 176 ∧ (176 : Nat) % 16 = 0 ∧ (10 : Nat) < 176 / 16 ∧
    (readyDec 0x10#8 bytesZ).len.toNat = 5 + 16 ∧ (0 : Nat) < 16 / 16 ∧
    ∃ r, msdDecode (readyDec 0x10#8 bytesZ).buf 0 = some r ∧ msdValid r = false := by
  refine ⟨rfl, by decide, by decide, ?_, by decide, by decide, rfl, by decide, _, rfl, by decide⟩
  rw [readyDec_len, List.length_replicate]; decide
/-- The answer of a build, with the engine at rest and running. -/
theorem test_witness_MoveRejected_answer : ∀ s : State, ∃ answer : Byte → List CtlItem, ∀ e, answer e =
    match (if s.seq.running then Config.params.busyPolicy else none) with
    | none => [.rsp 0xFF#8 e, .op 0x2000#16]
    | some a => if a.beforeChecks then busyProgram a else [.rsp 0xFF#8 e, .op 0x2000#16] := fun _ => ⟨_, fun _ => rfl⟩
theorem test_witness_QueryAndStopCommands : params.estopReport = none ∧
    (stopReport .stopEvent).reportAt .stopEvent = some { code := 0xFF#8, payload := [0x0B#8] } := ⟨rfl, rfl⟩
theorem test_witness_UnknownCommandAnswered : (withTurn [] (readyDec 0x20#8 [])).refused = none ∧ (withTurn [] (readyDec 0x20#8 [])).port = .controller :: [] ∧
    (withTurn [] (readyDec 0x20#8 [])).ctl = [] ∧ (readyDec 0x20#8 []).state = .ready ∧ (readyDec 0x20#8 []).cmd = 0x20#8 := by decide
theorem test_witness_ResponsesSend : ∃ send : Byte → List Byte → List CtlItem, ∀ c data, send c data =
    [CtlItem.op 0x5000#16] ++ data.map (fun b => CtlItem.op (0x4000#16 ||| b.setWidth 16)) ++ [CtlItem.op (0x3000#16 ||| c.setWidth 16)] := ⟨_, fun _ _ => rfl⟩
theorem test_witness_StopCommandRuns : ∃ (s : State) (rest : List Arrival) (before after : Option Response) (turns : Nat),
    before = Config.params.reportAt .beforeStopAnswer ∧ after = Config.params.reportAt .afterStopAnswer ∧
    turns = 7 + (optionProgram before).length + (optionProgram after).length ∧ s.refused = none ∧ s.port = List.replicate turns .controller ++ rest ∧
    s.ctl = [] ∧ s.dec.state = .ready ∧ s.dec.cmd = 0x03#8 ∧ s.seq.key = Vector.replicate 10 false :=
  ⟨{ withDec (readyDec 0x03#8 []) with port := List.replicate (7 + (optionProgram (Config.params.reportAt .beforeStopAnswer)).length +
    (optionProgram (Config.params.reportAt .afterStopAnswer)).length) .controller }, [], _, _, _, rfl, rfl, rfl, rfl, (List.append_nil _).symm, rfl, rfl, rfl, rfl⟩
theorem test_witness_StatusOutputs : (readyDec 0x10#8 bytesA).state = .ready ∧ (5 : Nat) ≤ (readyDec 0x10#8 bytesA).len.toNat ∧
    (readyDec 0x10#8 []).len.toNat = 5 ∧ (BitVec.ofNat 16 256).toNat ≤ 256 := by decide

end Sys2Proof.Tests
end

section
/-! PROOFS. The statements of 00_scope.md's family: what a step takes, what a refusal keeps, and the host commands VERSION, STATUS, STOP and the moves. -/

namespace Sys2Proof.Machine

/-! ## What a step takes -/

section Fetch

variable {s : State} {rest : List Arrival}

/-- An operation word on the port of an unmarked run is run (R5). -/
theorem fetch_word {w : OpWord} (hr : s.refused = none) (hp : s.port = .word w :: rest) : fetch s = .run (.opw w) (s.setPort rest) := by
  simp only [fetch, hp, hr]

/-- A controller's turn in an unmarked run (R230). -/
theorem fetch_controller (hr : s.refused = none) (hp : s.port = .controller :: rest) : fetch s = controllerTurn (s.setPort rest) := by
  simp only [fetch, hp, hr]

/-- An emergency-stop event in an unmarked run (R242). -/
theorem fetch_stopEvent (hr : s.refused = none) (hp : s.port = .stopEvent :: rest) :
    fetch s = .noOp ((s.setPort rest).queueReport Config.params) := by
  simp only [fetch, hp, hr]

/-- The block waits while nothing arrives (R292). -/
theorem fetch_nil (hr : s.refused = none) (hp : s.port = []) : fetch s = .noOp s := by
  simp only [fetch, hp, hr]

/-- The reset input is taken in every run, marked or not (R290). -/
theorem fetch_resetInput (hp : s.port = .resetInput :: rest) : fetch s = .noOp (s.resetInput rest) := by
  simp only [fetch, hp]

/-- A marked run stops at whatever arrives, but for the reset input (R12, R14). -/
theorem fetch_marked {r : RefReason} (hr : s.refused = some r) (hp : ∀ tl, s.port ≠ .resetInput :: tl) : fetch s = .stopped r := by
  unfold fetch
  split
  case h_2 tl h => exact absurd h (hp tl)
  all_goals simp only [hr]

/-- A free controller dispatches a ready frame by its Cmd (R230). -/
theorem controllerTurn_ready (hc : s.ctl = []) (hs : s.dec.state = .ready) : controllerTurn s = .run (.cmd s.dec.cmd) s := by
  simp only [controllerTurn, hc, hs, if_true]

/-- A free controller finds nothing to do while no frame is ready (R230). -/
theorem controllerTurn_idle (hc : s.ctl = []) (hs : s.dec.state ≠ .ready) : controllerTurn s = .noOp s := by
  simp only [controllerTurn, hc, hs, if_false]

/-- A waiting controller goes on exactly when `all_complete` is 1 (R234). -/
theorem controllerTurn_wait {q : List CtlItem} (hc : s.ctl = .waitComplete :: q) :
    controllerTurn s = .noOp (if s.allComplete then s.setCtl q else s) := by
  simp only [controllerTurn, hc]
  split <;> rfl

/-- A step that takes no instruction goes on as the fetched state. -/
theorem step_noOp {t : State} (h : fetch s = .noOp t) : step s = .next t := by
  simp only [step, h]

/-- A step of a stopped run is refused. -/
theorem step_stopped {r : RefReason} (h : fetch s = .stopped r) : step s = .refused (.runRefused r) := by
  simp only [step, h]

/-- `all_complete` in the masks' own terms (R40, R203). -/
theorem allComplete_iff (s : State) : s.allComplete = true ↔ s.seq.active ≠ 0#16 ∧ s.seq.active &&& s.seq.completed = s.seq.active := by
  simp only [State.allComplete, Engine.allComplete, Bool.and_eq_true, decide_eq_true_eq]

end Fetch

/-! ## What a refusal keeps -/

/-- An instruction either records a refusal and does nothing else, or leaves the mark as it is (R14, R48). -/
theorem exec_refuse_or_keep {i : Instr} {s t : State} (h : exec i s = .next t) : (∃ r, t = s.refuse r) ∨ t.refused = s.refused := by
  rcases exec_cases h with hr | ⟨c, b, -, rfl⟩ | ⟨b, d, -, -, rfl⟩ | ⟨-, rfl⟩ | ⟨-, rfl⟩ | ⟨c, data, -, -, rfl⟩ | ⟨b, -, -, rfl⟩ |
    ⟨-, rfl⟩ | ⟨n, rs, -, -, rfl⟩ | ⟨e, evs, -, -, rfl⟩ | ⟨-, rfl⟩
  · exact Or.inl hr
  all_goals exact Or.inr rfl

/-! ## The checks of a move command (R236) -/

/-- `dec_plen` of a ready frame counts its Data bytes (R40). -/
theorem decPlen_of_ready {s : State} {d : Nat} (hs : s.dec.state = .ready) (hl : s.dec.len.toNat = 5 + d) (hd : d ≤ 251) :
    s.decPlen.toNat = d := by
  simp only [State.decPlen, hs, if_true, BitVec.toNat_setWidth, BitVec.toNat_sub, hl, BitVec.toNat_ofNat]
  omega

section Checks

variable {p : Params} {sync : Bool} {s : State} {d : Nat}

/-- A Data length that is no multiple of 16 fails the first check (R238). -/
theorem checkMove_badLength (hd : s.decPlen.toNat = d) (hmod : d % 16 ≠ 0) :
    checkMove p sync s = s.runProgram (errorProgram p.badMult.byte) := by
  simp only [checkMove, recSize, hd, hmod, ne_eq, not_false_eq_true, if_true]

/-- More than ten records fail the second check (R239). -/
theorem checkMove_tooMany (hd : s.decPlen.toNat = d) (hmod : d % 16 = 0) (hn : 10 < d / 16) :
    checkMove p sync s = s.runProgram (errorProgram errInvalidMotorCount) := by
  simp only [checkMove, recSize, maxMotors, hd, hmod, hn, ne_eq, not_true, if_true, if_false]

/-- With a good length and count, an invalid record fails the third check (R236). -/
theorem checkMove_invalid (hd : s.decPlen.toNat = d) (hmod : d % 16 = 0) (hn : d / 16 ≤ 10)
    (hrec : msdRecords s.dec.buf 0 (d / 16) = .error .refStartInvalid) : checkMove p sync s = s.runProgram (errorProgram errMotorParam) := by
  have hcount : ¬ 10 < d / 16 := Nat.not_lt.mpr hn
  simp only [checkMove, recSize, maxMotors, hd, hmod, hcount, hrec, ne_eq, not_true, if_false]

/-- A ready frame of `n` accepted records passes every check (R236). -/
theorem checkMove_accepted {n : BitVec 4} (hd : s.decPlen.toNat = 16 * n.toNat) (ha : startAccepted s.dec.buf n) :
    checkMove p sync s = acceptMove p sync n s := by
  obtain ⟨hn, hrec⟩ := ha
  obtain ⟨rs, hrs⟩ := msdRecords_ok_of_accepted s.dec.buf n.toNat 0 (by simpa only [Nat.zero_add] using hrec)
  have hcount : ¬ maxMotors < n.toNat := Nat.not_lt.mpr hn
  have hdiv : 16 * n.toNat / 16 = n.toNat := Nat.mul_div_cancel_left _ (by decide)
  simp only [checkMove, recSize, hd, Nat.mul_mod_right, hdiv, hcount, hrs, ne_eq, not_true, if_false, BitVec.ofNat_toNat, BitVec.setWidth_eq]

end Checks

/-! ## The answers to a move command -/

/-- The word of the item that issues SEQ_START n (R97). -/
theorem itemSeqStart_word (n : BitVec 4) : itemSeqStart n = .op (0x6000#16 ||| n.setWidth 16 <<< 8) := by decide +revert

/-- What the controller does for a move command that fails a check with error byte `e`: the ERROR answer, or the busy answer of a build that gives it
before the checks (R236, R241). -/
def rejectProgram (p : Params) (s : State) (e : Byte) : List CtlItem :=
  match busyAnswer p s with
  | none => errorProgram e
  | some a => if a.beforeChecks then busyProgram a else errorProgram e

/-- A move command that fails a check is answered, and only answered. -/
theorem handleMove_rejected {p : Params} {sync : Bool} {s : State} {e : Byte} (h : checkMove p sync s = s.runProgram (errorProgram e)) :
    handleMove p sync s = s.runProgram (rejectProgram p s e) := by
  unfold handleMove rejectProgram
  rw [h]
  cases busyAnswer p s with
  | none => rfl
  | some a => exact (apply_ite s.runProgram _ _ _).symm

/-- With a busy answer to give, a move command that passes the checks gets it (R241). -/
theorem acceptMove_busy {p : Params} {sync : Bool} {s : State} {n : BitVec 4} {a : BusyAnswer} (h : busyAnswer p s = some a) :
    acceptMove p sync n s = s.runProgram (busyProgram a) := by
  simp only [acceptMove, h]

/-- With none, it starts the engine (R234, R235). -/
theorem acceptMove_start {p : Params} {sync : Bool} {s : State} {n : BitVec 4} (h : busyAnswer p s = none) :
    acceptMove p sync n s = s.runProgram (moveProgram sync n) := by
  simp only [acceptMove, h]

/-- A move command that passes the checks is taken, wherever the build gives its busy answer (R234, R241). -/
theorem handleMove_accepted {p : Params} {sync : Bool} {s : State} {n : BitVec 4} (h : checkMove p sync s = acceptMove p sync n s) :
    handleMove p sync s = acceptMove p sync n s := by
  unfold handleMove
  split
  · rename_i a hb
    rw [h, acceptMove_busy hb, ite_self]
  · exact h

/-- Both move commands run the one handler. -/
theorem exec_move {i : Instr} (hi : i = .cmdSyncMove ∨ i = .cmdAsyncMove) (s : State) :
    ∃ sync, exec i s = .next (handleMove Config.params sync s) := by
  rcases hi with rfl | rfl
  · exact ⟨true, rfl⟩
  · exact ⟨false, rfl⟩

/-- The error values a busy answer may carry (R93, R95). -/
theorem errorValue_byte_cases (v : ErrorValue) : v.byte = 0x01#8 ∨ v.byte = 0x02#8 ∨ v.byte = 0x04#8 ∨ v.byte = 0x05#8 := by
  cases v <;> decide

/-- `E_BADMULT_CODE` has one of its two values (R10, R238). -/
theorem badMultCode_byte_cases (c : BadMultCode) : c.byte = 0x02#8 ∨ c.byte = 0x04#8 := by
  cases c <;> decide

/-! ## The controller's turns for a STOP command -/

/-- SEQ_STOP has no key line to deassert when none is asserted (R201, R202 (a)). -/
theorem Engine.stopEvents_of_deasserted {e : Engine} (h : e.key = Vector.replicate 10 false) : e.stopEvents = [] := by
  have hfilter : motorIndexes.filter (fun i => e.key[i]) = [] := List.filter_eq_nil_iff.mpr (fun i _ => by simp [h])
  rw [Engine.stopEvents, hfilter, List.map_nil]

/-- SEQ_STOP with the key lines deasserted leaves them as they are (R201). -/
theorem Engine.stop_of_deasserted {e : Engine} (h : e.key = Vector.replicate 10 false) :
    e.stop = { e with completed := e.active, pending := 0#16, state := .idle, running := false } := by
  rw [Engine.stop, ← h]

/-- The state in which a STOP command's answers are sent: the engine is stopped, `e` holds the queued bytes, the host has got `sent` since the command
was taken, and `port` and `ctl` are left to arrive and to do. -/
def State.duringStop (s : State) (e : Encoder) (sent : List Byte) (port : List Arrival) (ctl : List CtlItem) : State :=
  { s with dec := { s.dec with frameDone := false }, seq := s.seq.stop, enc := e, hist := s.hist ++ sent.map Event.host, port := port, ctl := ctl }

/-- The frame of the STOP response as the host receives it: length 6, code 0x83, the result byte SUCCESS and the checksum (R233, R80 to R82). -/
def stopFrame : List Byte := [0x02#8, 0x00#8, 0x06#8, 0x83#8, 0x00#8, 0x85#8]

/-- The arrivals of a whole STOP command, cut at its parts. -/
theorem replicate_stopTurns (b a : Nat) (c : Arrival) (rest : List Arrival) :
    List.replicate (7 + b + a) c ++ rest =
      c :: c :: (List.replicate b c ++ (List.replicate 4 c ++ (List.replicate a c ++ c :: rest))) := by
  rw [show 7 + b + a = 2 + (b + (4 + (a + 1))) by omega]
  simp only [List.replicate_add, List.append_assoc]
  rfl

section StopTurns

variable {s : State} (e : Encoder) (sent : List Byte) (port : List Arrival) (ctl : List CtlItem) (hr : s.refused = none)
include hr

/-- The first two turns of a STOP command dispatch it and stop the engine, with no event (R230, R233, R201). -/
theorem stepN_dispatchStop (hp : s.port = .controller :: .controller :: port) (hc : s.ctl = []) (hs : s.dec.state = .ready)
    (hcmd : s.dec.cmd = codeStop) (hkey : s.seq.key = Vector.replicate 10 false) (hprog : stopProgram Config.params = itemSeqStop :: ctl) :
    stepN 2 s = .next (s.duringStop s.enc [] port ctl) := by
  have hfetch : fetch s = .run (.cmd codeStop) (s.setPort (.controller :: port)) := by
    rw [fetch_controller hr hp, ← hcmd]; exact controllerTurn_ready hc hs
  have hdispatch : step s = .next { s with port := .controller :: port, ctl := itemSeqStop :: ctl } := by
    rw [step_run_ok hfetch (show decode (.cmd codeStop) = .ok .cmdStop from rfl)]
    simp only [exec, execCmdStop, State.runProgram, State.setPort, hprog, hc, List.append_nil]
  rw [stepN_add 1 (stepN_one hdispatch)]
  apply stepN_one
  rw [step_controller_op (by exact hr) rfl rfl (show decode (.opw _) = .ok .seqStop from rfl)]
  simp only [exec, execSeqStop, State.setCtl_seq, State.setPort_seq, Engine.stopEvents_of_deasserted hkey]
  rfl

/-- A build's report is sent in turns of its own, or takes none (R242). -/
theorem stepN_duringStop_report (o : Option Response) :
    ∃ e' : Encoder, stepN (optionProgram o).length
        (s.duringStop e sent (List.replicate (optionProgram o).length .controller ++ port) (optionProgram o ++ ctl)) =
          .next (s.duringStop e' (sent ++ responseFrame o) port ctl) ∧
      e'.txbLen.toNat = (o.map (fun r => r.data.length)).getD e.txbLen.toNat := by
  obtain ⟨e', hrun, hlen⟩ := stepN_optionProgram o
    (s.duringStop e sent (List.replicate (optionProgram o).length .controller ++ port) (optionProgram o ++ ctl)) port ctl hr rfl rfl rfl
  refine ⟨e', ?_, hlen⟩
  rw [hrun]
  simp only [State.duringStop, List.map_append, List.append_assoc]

/-- The STOP response takes four turns and sends its one frame (R233, R103). -/
theorem stepN_duringStop_response :
    ∃ e' : Encoder, stepN 4 (s.duringStop e sent (List.replicate 4 .controller ++ port) (.rsp codeRspStop 0#8 :: ctl)) =
        .next (s.duringStop e' (sent ++ stopFrame) port ctl) ∧ e'.txbLen.toNat = 1 := by
  have hstart : step (s.duringStop e sent (List.replicate 4 .controller ++ port) (.rsp codeRspStop 0#8 :: ctl)) =
      .next (s.duringStop e sent (List.replicate 3 .controller ++ port) (sendProgram codeRspStop [resultSuccess] ++ ctl)) := by
    rw [step_controller_rsp (by exact hr) rfl rfl (show decode (.rsp codeRspStop 0#8) = .ok .rspStop from rfl)]; rfl
  obtain ⟨e', hsend, hlen⟩ := stepN_send codeRspStop [resultSuccess]
    (s.duringStop e sent (List.replicate 3 .controller ++ port) (sendProgram codeRspStop [resultSuccess] ++ ctl)) port ctl hr rfl rfl (by decide)
  refine ⟨e', ?_, hlen⟩
  rw [stepN_add 3 (stepN_one hstart)]
  refine hsend.trans ?_
  simp only [State.duringStop, List.map_append, List.append_assoc]
  rfl

/-- The last turn of a STOP command clears the decoder (R134, R230). -/
theorem step_duringStop_decClear :
    step (s.duringStop e sent (.controller :: port) [itemDecClear]) = .next { s.duringStop e sent port [] with dec := Decoder.reset } := by
  rw [step_controller_op (by exact hr) rfl rfl (show decode (.opw _) = .ok .decClear from rfl)]
  rfl

/-- The whole STOP command: the parts of its program one after another, with a build's reports before and after the response (R233, R242). -/
theorem stepN_stopCommand (before after : Option Response)
    (hp : s.port = List.replicate (7 + (optionProgram before).length + (optionProgram after).length) .controller ++ port) (hc : s.ctl = [])
    (hs : s.dec.state = .ready) (hcmd : s.dec.cmd = codeStop) (hkey : s.seq.key = Vector.replicate 10 false)
    (hprog : stopProgram Config.params =
      itemSeqStop :: (optionProgram before ++ .rsp codeRspStop 0#8 :: (optionProgram after ++ [itemDecClear]))) :
    ∃ e : Encoder, stepN (7 + (optionProgram before).length + (optionProgram after).length) s =
        .next { s.duringStop e (responseFrame before ++ stopFrame ++ responseFrame after) port [] with dec := Decoder.reset } ∧
      e.txbLen.toNat = (after.map (fun r => r.data.length)).getD 1 := by
  rw [replicate_stopTurns] at hp
  have hdispatch := stepN_dispatchStop _ _ hr hp hc hs hcmd hkey hprog
  obtain ⟨e1, hbefore, -⟩ := stepN_duringStop_report s.enc []
    (List.replicate 4 .controller ++ (List.replicate (optionProgram after).length .controller ++ .controller :: port))
    (.rsp codeRspStop 0#8 :: (optionProgram after ++ [itemDecClear])) hr before
  obtain ⟨e2, hresponse, hlen2⟩ := stepN_duringStop_response e1 (responseFrame before)
    (List.replicate (optionProgram after).length .controller ++ .controller :: port) (optionProgram after ++ [itemDecClear]) hr
  obtain ⟨e3, hafter, hlen3⟩ := stepN_duringStop_report e2 (responseFrame before ++ stopFrame) (.controller :: port) [itemDecClear] hr after
  have hclear := step_duringStop_decClear e3 (responseFrame before ++ stopFrame ++ responseFrame after) port hr
  refine ⟨e3, ?_, by rw [hlen3, hlen2]⟩
  rw [show ∀ b a, 7 + b + a = 2 + (b + (4 + (a + 1))) by omega]
  rw [stepN_add _ hdispatch, stepN_add _ hbefore, List.nil_append, stepN_add _ hresponse, stepN_add _ hafter, stepN_one hclear]

end StopTurns

end Sys2Proof.Machine

namespace Sys2Proof

open Sys2Proof.Machine

/-! ## The statements -/

/-- Settles O52: an instruction records a refusal and does nothing else, or keeps the mark. -/
theorem refusalChangesNothing : Obligations.RefusalChangesNothing := by
  intro i s t h
  rcases exec_refuse_or_keep h with ⟨r, rfl⟩ | hkeep
  · exact ⟨fun _ => ⟨r, rfl⟩, fun _ => by simp⟩
  · exact ⟨fun hne => absurd hkeep hne, fun hs => by rwa [hkeep]⟩

/-- Settles O55: the frame passes every check, so the handler takes it, and the program taken depends only on the busy answer. -/
theorem moveAccepted : Obligations.MoveAccepted := by
  refine ⟨fun s n i wait hi hs hl ha => ?_, fun a => ?_⟩
  · have hplen : s.decPlen.toNat = 16 * n.toNat := decPlen_of_ready hs hl (by have := n.isLt; omega)
    have hhandle : ∀ sync, handleMove Config.params sync s = acceptMove Config.params sync n s :=
      fun sync => handleMove_accepted (checkMove_accepted hplen ha)
    have hexec : ∃ sync, exec i s = .next (acceptMove Config.params sync n s) ∧ wait = if sync then [.waitComplete] else [] := by
      rcases hi with ⟨rfl, rfl⟩ | ⟨rfl, rfl⟩
      · exact ⟨true, by rw [← hhandle]; rfl, rfl⟩
      · exact ⟨false, by rw [← hhandle]; rfl, rfl⟩
    obtain ⟨sync, hexec, rfl⟩ := hexec
    rw [hexec, show (if s.seq.running then Config.params.busyPolicy else none) = busyAnswer Config.params s from rfl]
    cases hb : busyAnswer Config.params s with
    | none => rw [acceptMove_start hb, moveProgram, itemSeqStart_word]; rfl
    | some a => rw [acceptMove_busy hb]; rfl
  · obtain ⟨hlen, hcode, herr⟩ := a.frame.response_spec
    refine ⟨hlen, hcode, fun h => ?_⟩
    obtain ⟨v, hv⟩ := herr h
    exact ⟨v.byte, hv, errorValue_byte_cases v⟩

/-- Settles O56: whichever check fails first, the handler's answer is that check's, or the busy answer that comes before the checks. -/
theorem moveRejected : Obligations.MoveRejected := by
  intro s i d answer hi hans hs hl hd
  have hplen : s.decPlen.toNat = d := decPlen_of_ready hs hl hd
  obtain ⟨sync, hexec⟩ := exec_move hi s
  have hanswer : ∀ e, checkMove Config.params sync s = s.runProgram (errorProgram e) → exec i s = .next { s with ctl := answer e ++ s.ctl } := by
    intro e he
    rw [hexec, handleMove_rejected he, hans e]
    rfl
  refine ⟨badMultCode_byte_cases _, fun hmod => hanswer _ (checkMove_badLength hplen hmod),
    fun hmod hn => hanswer _ (checkMove_tooMany hplen hmod hn), fun hmod hn k r hk hdec hinv hbefore => hanswer _ (checkMove_invalid hplen hmod hn ?_)⟩
  have hfirst := msdRecords_first_failure s.dec.buf (d / 16) 0 k hk (by simpa only [Nat.zero_add] using hbefore)
  exact hfirst.2 r (by rwa [Nat.zero_add]) hinv

/-- Settles O59: the whole STOP command with the build's own reports in their places. -/
theorem stopCommandRuns : Obligations.StopCommandRuns := by
  rintro s rest before after turns rfl rfl rfl hr hp hc hs hcmd hkey
  have hprog : stopProgram Config.params = itemSeqStop :: (optionProgram (Config.params.reportAt .beforeStopAnswer) ++
      .rsp codeRspStop 0#8 :: (optionProgram (Config.params.reportAt .afterStopAnswer) ++ [itemDecClear])) := by
    simp only [stopProgram, List.append_assoc, List.cons_append, List.nil_append]
  obtain ⟨e, hrun, hlen⟩ := stepN_stopCommand rest hr _ _ hp hc hs hcmd hkey hprog
  refine ⟨_, hrun, rfl, Engine.stop_of_deasserted hkey, rfl, rfl, hlen.trans ?_, rfl, rfl, hr⟩
  cases Config.params.reportAt .afterStopAnswer <;> rfl

/-- Settles O5: each RESERVED row is refused. -/
theorem reservedRowsOnlyMark : Obligations.ReservedRowsOnlyMark :=
  fun _ _ => ⟨rfl, rfl, rfl⟩

/-- Settles O6: a word, a program item and a ready frame's Cmd are each fetched without the item taken. -/
theorem stepRunsDecodedInstruction : Obligations.StepRunsDecodedInstruction := by
  intro s i rest hr
  refine ⟨fun w hp hd => ?_, fun w q hp hc hd => ?_, fun c e q hp hc hd => ?_, fun hp hc hs hd => ?_⟩
  · exact step_run_ok (fetch_word hr hp) hd
  · exact step_controller_op hr hp hc hd
  · exact step_controller_rsp hr hp hc hd
  · have hfetch : fetch s = .run (.cmd s.dec.cmd) (s.setPort rest) := by
      rw [fetch_controller hr hp]; exact controllerTurn_ready hc hs
    exact step_run_ok hfetch hd

/-- Settles O7: what each arrival that brings no instruction is fetched as. -/
theorem stepsWithoutInstruction : Obligations.StepsWithoutInstruction := by
  intro s rest
  refine ⟨fun hr hp => ?_, fun hr hp hc hs => ?_, fun q hr hp hc => ?_, fun hr hp => ?_, fun r hr hp => ?_, fun hp => ?_⟩
  · exact step_noOp (fetch_nil hr hp)
  · exact step_noOp ((fetch_controller hr hp).trans (controllerTurn_idle hc hs))
  · rw [step_noOp ((fetch_controller hr hp).trans (controllerTurn_wait hc))]
    simp only [allComplete_iff]
    rfl
  · exact step_noOp (fetch_stopEvent hr hp)
  · exact step_stopped (fetch_marked hr hp)
  · exact ⟨s.resetInput rest, step_noOp (fetch_resetInput hp), rfl⟩

/-- Settles O54: the three programs, and what a build's report can be. -/
theorem queryAndStopCommands : Obligations.QueryAndStopCommands := by
  refine ⟨fun s => ⟨rfl, rfl, rfl⟩, fun p t hnone => ?_, fun p t r hr => ?_⟩
  · rw [Params.reportAt, hnone]; rfl
  · obtain ⟨f, -, rfl⟩ := reportAt_eq_some hr
    exact f.response_spec

end Sys2Proof
end

section
/-! PROOFS. The statements of 10_state.md's family: which fields an instruction writes, the invariant every step keeps, the reset values and the status
outputs. -/

namespace Sys2Proof.Machine

/-! ## What an instruction writes, field by field (R46) -/

section Writes

variable {i : Instr} {s t : State}

/-- What an instruction does to the decoder: a refused operation and the controller's work leave it, RX_BYTE and DEC_CLEAR write it, every other
operation clears `dec_done` (R28, R46). -/
theorem exec_dec_cases (h : exec i s = .next t) :
    (t.dec = s.dec ∧ (t.refused ≠ none ∨ ∀ w, encode i ≠ .opw w)) ∨
    (t.dec = { s.dec with frameDone := false } ∧ ∀ b, i ≠ .rxByte b) ∨
    (∃ b, i = .rxByte b ∧ s.dec.rxByte b = .ok t.dec) ∨
    (i = .decClear ∧ t.dec = s.clearDone.dec.hardReset) := by
  rcases exec_cases h with ⟨r, rfl⟩ | ⟨c, b, hw, rfl⟩ | ⟨b, d, rfl, hd, rfl⟩ | ⟨rfl, rfl⟩ | ⟨rfl, rfl⟩ | ⟨c, data, rfl, -, rfl⟩ |
    ⟨b, rfl, -, rfl⟩ | ⟨rfl, rfl⟩ | ⟨n, rs, rfl, -, rfl⟩ | ⟨e, evs, rfl, -, rfl⟩ | ⟨rfl, rfl⟩
  · exact Or.inl ⟨rfl, Or.inl (Option.some_ne_none r)⟩
  · exact Or.inl ⟨rfl, Or.inr hw⟩
  · exact Or.inr (Or.inr (Or.inl ⟨b, rfl, hd⟩))
  · exact Or.inr (Or.inr (Or.inr ⟨rfl, rfl⟩))
  all_goals exact Or.inr (Or.inl ⟨rfl, nofun⟩)

/-- What an instruction does to the encoder: only TXB_PUSH and TXB_CLEAR write it (R46). -/
theorem exec_enc_cases (h : exec i s = .next t) :
    t.enc = s.enc ∨
    (∃ b, i = .txbPush b ∧ s.enc.txbLen.toNat < payloadMax ∧
      t.enc = { txb := Mem.write s.enc.txb s.enc.txbLen.toNat b, txbLen := s.enc.txbLen + 1#8 }) ∨
    (i = .txbClear ∧ t.enc = { s.enc with txbLen := 0#8 }) := by
  rcases exec_cases h with ⟨r, rfl⟩ | ⟨c, b, -, rfl⟩ | ⟨b, d, -, -, rfl⟩ | ⟨-, rfl⟩ | ⟨-, rfl⟩ | ⟨c, data, -, -, rfl⟩ |
    ⟨b, rfl, hlt, rfl⟩ | ⟨rfl, rfl⟩ | ⟨n, rs, -, -, rfl⟩ | ⟨e, evs, -, -, rfl⟩ | ⟨-, rfl⟩
  any_goals exact Or.inl rfl
  · exact Or.inr (Or.inl ⟨b, rfl, hlt, rfl⟩)
  · exact Or.inr (Or.inr ⟨rfl, rfl⟩)

/-- What an instruction does to the engine: only SEQ_START, SEQ_TICK and SEQ_STOP write it (R46). -/
theorem exec_seq_cases (h : exec i s = .next t) :
    t.seq = s.seq ∨
    (∃ n rs, i = .seqStart n ∧ startRecords s.dec.buf n = .ok rs ∧ t.seq = s.seq.start n rs) ∨
    (∃ evs, i = .seqTick ∧ s.seq.tick Config.params (Config.busyLevels s.draws) (Config.mbRxBytes s.draws) = .ok (t.seq, evs)) ∨
    (i = .seqStop ∧ t.seq = s.seq.stop) := by
  rcases exec_cases h with ⟨r, rfl⟩ | ⟨c, b, -, rfl⟩ | ⟨b, d, -, -, rfl⟩ | ⟨-, rfl⟩ | ⟨-, rfl⟩ | ⟨c, data, -, -, rfl⟩ |
    ⟨b, -, -, rfl⟩ | ⟨-, rfl⟩ | ⟨n, rs, rfl, hrs, rfl⟩ | ⟨e, evs, rfl, he, rfl⟩ | ⟨rfl, rfl⟩
  any_goals exact Or.inl rfl
  · exact Or.inr (Or.inl ⟨n, rs, rfl, hrs, rfl⟩)
  · exact Or.inr (Or.inr (Or.inl ⟨evs, rfl, he⟩))
  · exact Or.inr (Or.inr (Or.inr ⟨rfl, rfl⟩))

/-- What an instruction does to the output history: only ENC_FRAME, SEQ_START, SEQ_TICK and SEQ_STOP append to it (R49, R78). -/
theorem exec_hist_cases (h : exec i s = .next t) :
    t.hist = s.hist ∨
    (((∃ c, i = .encFrame c) ∨ (∃ n, i = .seqStart n) ∨ i = .seqTick ∨ i = .seqStop) ∧ ∃ evs, t.hist = s.hist ++ evs) := by
  rcases exec_cases h with ⟨r, rfl⟩ | ⟨c, b, -, rfl⟩ | ⟨b, d, -, -, rfl⟩ | ⟨-, rfl⟩ | ⟨-, rfl⟩ | ⟨c, data, rfl, -, rfl⟩ |
    ⟨b, -, -, rfl⟩ | ⟨-, rfl⟩ | ⟨n, rs, rfl, -, rfl⟩ | ⟨e, evs, rfl, -, rfl⟩ | ⟨rfl, rfl⟩
  any_goals exact Or.inl rfl
  · exact Or.inr ⟨Or.inl ⟨c, rfl⟩, _, rfl⟩
  · exact Or.inr ⟨Or.inr (Or.inl ⟨n, rfl⟩), _, rfl⟩
  · exact Or.inr ⟨Or.inr (Or.inr (Or.inl rfl)), _, rfl⟩
  · exact Or.inr ⟨Or.inr (Or.inr (Or.inr rfl)), _, rfl⟩

end Writes

/-! ## The invariant at reset -/

/-- The reset decoder waits for STX with every field 0 (R50, R133). -/
theorem Decoder.reset_inv : Decoder.reset.Inv := (Decoder.inv_iff _).mpr (Or.inl rfl)

/-- Nothing is queued after reset, so no byte of `txb` need be written (R50). -/
theorem Encoder.reset_inv : Encoder.reset.Inv := ⟨Nat.zero_le _, Mem.wf_nil, nofun⟩

/-- The reset engine is Idle with no motor active and every counter 0 (R50). -/
theorem Engine.reset_inv (p : Params) : Engine.reset.Inv p := by
  have hlatch : Engine.reset.latchOk := ⟨Nat.zero_le _, Nat.le_refl _, nofun, rfl⟩
  have hcounters : Engine.reset.countersOk p := by
    refine ⟨Nat.zero_le _, fun i => ?_, fun i hpend => ?_⟩
    · simp [Engine.reset]
    · exact absurd BitVec.zero_and hpend
  have hphase : Engine.reset.phaseOk p := ⟨fun _ => ⟨rfl, rfl, rfl⟩, nofun, nofun, nofun⟩
  exact ⟨by decide, hlatch, hcounters, hphase, rfl⟩

/-- The machine's reset state meets the invariant. -/
theorem State.reset_inv : State.reset.Inv := ⟨Decoder.reset_inv, Encoder.reset_inv, Engine.reset_inv _⟩

/-! ## The invariant is kept -/

/-- Clearing `dec_done` keeps the decoder's invariant: no other field depends on it (R28). -/
theorem Decoder.clearDone_inv {d : Decoder} (h : d.Inv) : Decoder.Inv { d with frameDone := false } := ⟨h.1, nofun⟩

/-- TXB_PUSH below the capacity keeps the encoder's invariant: the one index that becomes queued is the one written (R152). -/
theorem Encoder.push_inv {e : Encoder} (h : e.Inv) (hlt : e.txbLen.toNat < payloadMax) (b : Byte) :
    Encoder.Inv { txb := Mem.write e.txb e.txbLen.toNat b, txbLen := e.txbLen + 1#8 } := by
  obtain ⟨-, hwf, hread⟩ := h
  have hlen : (e.txbLen + 1#8).toNat = e.txbLen.toNat + 1 := by
    simp only [payloadMax] at hlt
    rw [BitVec.toNat_add, BitVec.toNat_ofNat]; omega
  refine ⟨by rw [hlen]; exact hlt, Mem.wf_write _ b hwf hlt, fun j hj => ?_⟩
  rw [hlen] at hj
  by_cases hend : j = e.txbLen.toNat
  · rw [hend, Mem.read_write_same]; rfl
  · rw [Mem.read_write_other _ b hend]; exact hread j (by omega)

section Keeps

variable {i : Instr} {s t : State}

/-- An instruction keeps the decoder's invariant (R133). -/
theorem exec_keeps_dec_inv (hinv : s.dec.Inv) (h : exec i s = .next t) : t.dec.Inv := by
  rcases exec_dec_cases h with ⟨hd, -⟩ | ⟨hd, -⟩ | ⟨b, -, hd⟩ | ⟨-, hd⟩
  · rwa [hd]
  · rw [hd]; exact Decoder.clearDone_inv hinv
  · obtain ⟨d, hok, hd'⟩ := Decoder.rxByte_inv hinv b
    cases hok.symm.trans hd
    exact hd'
  · rw [hd, Decoder.hardReset_eq rfl]; exact Decoder.reset_inv

/-- An instruction keeps the encoder's invariant (R29, R30). -/
theorem exec_keeps_enc_inv (hinv : s.enc.Inv) (h : exec i s = .next t) : t.enc.Inv := by
  rcases exec_enc_cases h with he | ⟨b, -, hlt, he⟩ | ⟨-, he⟩ <;> rw [he]
  · exact hinv
  · exact Encoder.push_inv hinv hlt b
  · obtain ⟨-, hwf, -⟩ := hinv
    exact ⟨Nat.zero_le _, hwf, nofun⟩

/-- An instruction keeps the engine's invariant (R45). -/
theorem exec_keeps_seq_inv (hinv : s.seq.Inv Config.params) (h : exec i s = .next t) : t.seq.Inv Config.params := by
  rcases exec_seq_cases h with he | ⟨n, rs, -, hrs, he⟩ | ⟨evs, -, htick⟩ | ⟨-, he⟩
  · rwa [he]
  · obtain ⟨-, -, -, -, hkey⟩ := hinv
    rw [he]; exact Engine.start_inv _ hkey hrs
  · obtain ⟨e, evs', hok, he⟩ := Engine.tick_inv hinv (Config.busyLevels s.draws) (Config.mbRxBytes s.draws)
    cases hok.symm.trans htick
    exact he
  · rw [he]; exact Engine.stop_inv hinv

/-- An instruction keeps the machine's invariant. -/
theorem exec_keeps_inv (hinv : s.Inv) (h : exec i s = .next t) : t.Inv := by
  obtain ⟨hdec, henc, hseq⟩ := hinv
  exact ⟨exec_keeps_dec_inv hdec h, exec_keeps_enc_inv henc h, exec_keeps_seq_inv hseq h⟩

end Keeps

/-! ## `dec_done` after RX_BYTE (R28, R121) -/

/-- RX_BYTE leaves `dec_done` at 1 exactly when it is the checksum byte and matches. -/
theorem Decoder.rxByte_frameDone_iff {d t : Decoder} {b : Byte} (h : d.rxByte b = .ok t) :
    t.frameDone = true ↔ d.state = .waitXor ∧ b = d.xor := by
  unfold Decoder.rxByte at h
  cases hs : d.state <;> simp only [hs] at h
  case waitXor =>
    cases h
    by_cases hb : b = d.xor <;> simp [Decoder.rxXor, hb]
  case waitData =>
    unfold Decoder.rxData at h
    dsimp only at h
    split at h
    · cases h; simp
    · cases h
  case waitStx => cases h; unfold Decoder.rxStx; split <;> simp
  case waitLenLow => cases h; unfold Decoder.rxLenLow; dsimp only; split <;> simp
  all_goals cases h; simp [Decoder.rxLenHigh, Decoder.rxCmd]

/-! ## `completed` over a tick (R34) -/

/-- The samples take no motor out of `completed` (R194). -/
theorem Engine.sampleAll_completed_gains (p : Params) (busy : Lines) (e : Engine) (j : Nat) (h : e.completed.getLsbD j = true) :
    (e.sampleAll p busy).completed.getLsbD j = true := by
  by_cases hj : j < 10
  · rw [Engine.sampleAll_completed p busy e ⟨j, hj⟩, h, Bool.true_or]
  · rw [(Engine.sampleAll_high p busy e j (Nat.le_of_not_lt hj)).2, h]

/-- Neither exit of a WaitingStatus tick takes a motor out of `completed` (R194, R197). -/
theorem Engine.waitingExit_completed_gains (p : Params) (e : Engine) (j : Nat) (h : e.completed.getLsbD j = true) :
    (e.waitingExit p).completed.getLsbD j = true := by
  rcases Engine.waitingExit_cases p e with ⟨-, he⟩ | ⟨-, -, he⟩ | ⟨-, -, he⟩ <;> rw [he]
  · exact h
  · rw [Engine.forceComplete_completed, BitVec.getLsbD_or, h, Bool.true_or]
  · exact h

/-- The Sending exit writes no mask (R191, R193). -/
theorem Engine.leaveSending_completed (e : Engine) : e.leaveSending.completed = e.completed := by
  unfold Engine.leaveSending
  split <;> rfl

/-- A tick takes no motor out of `completed` (R34). -/
theorem Engine.tick_completed_gains {p : Params} {busy : Lines} {rx : List Byte} {e t : Engine} {evs : List Event}
    (h : e.tick p busy rx = .ok (t, evs)) (j : Nat) (hj : e.completed.getLsbD j = true) : t.completed.getLsbD j = true := by
  rcases Engine.tick_cases p busy rx e t evs h with ⟨rfl, -⟩ | ⟨-, -, rfl, -⟩ | ⟨-, -, -, -, rfl⟩ | ⟨-, -, -, r, i, -, -, rfl, -⟩ |
    ⟨-, -, rfl, -⟩
  case inr.inr.inr.inl => rw [Engine.leaveSending_completed]; exact hj
  case inr.inr.inr.inr => exact Engine.waitingExit_completed_gains _ _ _ (Engine.sampleAll_completed_gains _ _ _ _ hj)
  all_goals exact hj

end Sys2Proof.Machine

namespace Sys2Proof

open Sys2Proof.Machine

/-! ## The statements -/

/-- Settles O11: a step changes only what arrives and the controller's program, resets the machine, records a refusal, or runs one instruction; each
keeps the invariant. -/
theorem stepKeepsInvariant : Obligations.StepKeepsInvariant := by
  intro s t hinv h
  rcases step_cases h with ⟨p, q, rfl⟩ | ⟨rest, -, rfl⟩ | ⟨p, q, r, rfl⟩ | ⟨p, q, i, hexec⟩
  · exact hinv
  · exact State.reset_inv
  · exact hinv
  · exact exec_keeps_inv (s := { s with port := p, ctl := q }) hinv hexec

/-- Settles O13: the masks are a part of the invariant that every step keeps. -/
theorem maskInvariants : Obligations.MaskInvariants := by
  intro s t hinv h
  obtain ⟨-, -, hmasks, -⟩ := stepKeepsInvariant s t hinv h
  exact hmasks

/-- Settles O28: RX_BYTE sets `dec_done` on a match alone, and every other operation that is not refused clears it. -/
theorem doneFollowsLastOperation : Obligations.DoneFollowsLastOperation := by
  intro i w s t hw _ h ht
  have hcleared : t.dec.frameDone = false → (∀ b, i ≠ .rxByte b) →
      (t.dec.frameDone = true ↔ ∃ b, i = .rxByte b ∧ s.dec.state = .waitXor ∧ b = s.dec.xor) := by
    intro hfalse hne
    rw [hfalse]
    exact ⟨nofun, fun ⟨b, hb, _⟩ => absurd hb (hne b)⟩
  rcases exec_dec_cases h with ⟨-, hr | hctl⟩ | ⟨hd, hne⟩ | ⟨b, rfl, hd⟩ | ⟨rfl, hd⟩
  · exact absurd ht hr
  · exact absurd hw (hctl w)
  · exact hcleared (by rw [hd]) hne
  · rw [Decoder.rxByte_frameDone_iff hd]
    constructor
    · exact fun hmatch => ⟨b, rfl, hmatch⟩
    · rintro ⟨b', hb, hmatch⟩
      cases hb
      exact hmatch
  · exact hcleared (by rw [hd]; rfl) nofun

/-- Settles O49: a tick only adds to `completed`, and SEQ_STOP sets it to `active`, which holds it. -/
theorem completedOnlyGains : Obligations.CompletedOnlyGains := by
  intro i s t hinv hne h
  obtain ⟨hmasks, -⟩ := hinv
  obtain ⟨-, hactive, -, -⟩ := (Engine.masksOk_iff _).mp hmasks
  rw [Mask.and_not_eq_zero]
  intro j hj
  rcases exec_seq_cases h with he | ⟨n, rs, hstart, -⟩ | ⟨evs, -, htick⟩ | ⟨-, he⟩
  · rwa [he]
  · exact absurd hstart (hne n)
  · exact Engine.tick_completed_gains htick j hj
  · rw [he]; exact hactive j hj

/-- Settles O50: what an instruction does to the decoder, the encoder and the engine, each for the instructions that do not write it. -/
theorem singleWriter : Obligations.SingleWriter := by
  intro i s t h
  refine ⟨fun hrx hclear => ?_, fun hpush hclear => ?_, fun hstart htick hstop => ?_⟩
  · rcases exec_dec_cases h with ⟨hd, -⟩ | ⟨hd, -⟩ | ⟨b, hi, -⟩ | ⟨hi, -⟩
    · rw [hd]; exact ⟨rfl, id⟩
    · rw [hd]; exact ⟨rfl, nofun⟩
    · exact absurd hi (hrx b)
    · exact absurd hi hclear
  · rcases exec_enc_cases h with he | ⟨b, hi, -⟩ | ⟨hi, -⟩
    · exact he
    · exact absurd hi (hpush b)
    · exact absurd hi hclear
  · rcases exec_seq_cases h with he | ⟨n, rs, hi, -⟩ | ⟨evs, hi, -⟩ | ⟨hi, -⟩
    · exact he
    · exact absurd hi (hstart n)
    · exact absurd hi htick
    · exact absurd hi hstop

/-- Settles O51: the history is kept, or one of the four emitting instructions appends to it. -/
theorem historyOnlyGrows : Obligations.HistoryOnlyGrows := by
  intro i s t h
  rcases exec_hist_cases h with hkeep | ⟨hi, hgrow⟩
  · exact ⟨⟨[], by rw [hkeep, List.append_nil]⟩, fun _ _ _ _ => hkeep⟩
  · refine ⟨hgrow, fun hframe hstart htick hstop => ?_⟩
    rcases hi with ⟨c, hi⟩ | ⟨n, hi⟩ | hi | hi
    · exact absurd hi (hframe c)
    · exact absurd hi (hstart n)
    · exact absurd hi htick
    · exact absurd hi hstop

/-- Settles O9: each field's reset value; the counters and the key lines index by index. -/
theorem resetValues : Obligations.ResetValues := by
  have hdeb : ∀ i : Fin 10, State.reset.seq.deb[i] = 0#16 := fun i => Vector.getElem_replicate i.isLt
  have hkey : ∀ i : Fin 10, State.reset.seq.key[i] = false := fun i => Vector.getElem_replicate i.isLt
  exact ⟨rfl, rfl, rfl, rfl, rfl, Mem.read_nil, rfl, rfl, rfl, rfl, rfl, rfl, rfl, rfl, rfl, rfl, rfl, hdeb, hkey, rfl, rfl⟩

/-- Settles O10: the three parts of the invariant at reset, and both stores empty. -/
theorem resetMeetsInvariant : Obligations.ResetMeetsInvariant := ⟨State.reset_inv, Mem.wf_nil, Mem.wf_nil⟩

/-- Settles O60: `all_complete`, `dec_ready` and `dec_plen` in the fields' own terms, the state numbers listed, and the key line's XNOR. -/
theorem statusOutputs : Obligations.StatusOutputs := by
  intro s
  refine ⟨allComplete_iff s, decide_eq_true_iff, fun hs hmin hmax => ?_, rfl, rfl, fun p i => beq_iff_eq⟩
  exact decPlen_of_ready hs (by omega) (by omega)

end Sys2Proof
end

section
/-! PROOFS. The statement of 20_memory.md's family: what an instruction writes in the byte stores, and the canonical form every step keeps (R60). -/

namespace Sys2Proof.Machine

/-! ## What RX_BYTE writes in `dec_buf` (R121 to R129) -/

/-- What an accepted RX_BYTE does to `dec_buf`: a Data byte is written at index `dec_cnt - 4`, a bad Length or checksum empties the store, and any
other byte leaves it. -/
theorem Decoder.rxByte_buf_cases {d t : Decoder} {b : Byte} (h : d.rxByte b = .ok t) :
    t.buf = d.buf ∨
    ((d.state = .waitLenLow ∨ d.state = .waitXor) ∧ t.buf = []) ∨
    (d.state = .waitData ∧ (d.cnt - 4#8).toNat < payloadMax ∧ t.buf = Mem.write d.buf (d.cnt - 4#8).toNat b) := by
  unfold Decoder.rxByte at h
  cases hs : d.state <;> simp only [hs] at h
  case waitStx =>
    cases h
    unfold Decoder.rxStx
    split <;> exact Or.inl rfl
  case waitLenLow =>
    simp only [Decoder.rxLenLow] at h
    split at h <;> cases h
    · exact Or.inr (Or.inl ⟨Or.inl rfl, rfl⟩)
    · exact Or.inl rfl
  case waitData =>
    simp only [Decoder.rxData] at h
    split at h
    · rename_i hlt
      cases h
      exact Or.inr (Or.inr ⟨rfl, hlt, rfl⟩)
    · cases h
  case waitXor =>
    cases h
    unfold Decoder.rxXor
    split
    · exact Or.inl rfl
    · exact Or.inr (Or.inl ⟨Or.inr rfl, rfl⟩)
  all_goals cases h; exact Or.inl rfl

/-! ## The canonical form is kept (R60) -/

/-- RX_BYTE keeps `dec_buf` in its canonical form: it stores inside the capacity or faults. -/
theorem Decoder.rxByte_keeps_wf {d t : Decoder} {b : Byte} (hwf : Mem.wf d.buf = true) (h : d.rxByte b = .ok t) :
    Mem.wf t.buf = true := by
  rcases Decoder.rxByte_buf_cases h with hbuf | ⟨-, hbuf⟩ | ⟨-, hlt, hbuf⟩ <;> rw [hbuf]
  · exact hwf
  · exact Mem.wf_nil
  · exact Mem.wf_write _ b hwf hlt

/-- An instruction keeps `dec_buf` in its canonical form. -/
theorem exec_keeps_buf_wf {i : Instr} {s t : State} (hwf : Mem.wf s.dec.buf = true) (h : exec i s = .next t) :
    Mem.wf t.dec.buf = true := by
  rcases exec_dec_cases h with ⟨hd, -⟩ | ⟨hd, -⟩ | ⟨b, -, hd⟩ | ⟨-, hd⟩
  · rwa [hd]
  · rwa [hd]
  · exact Decoder.rxByte_keeps_wf hwf hd
  · rw [hd, Decoder.hardReset_buf]; exact Mem.wf_nil

/-- An instruction keeps `txb` in its canonical form: TXB_PUSH alone writes it, below the capacity. -/
theorem exec_keeps_txb_wf {i : Instr} {s t : State} (hwf : Mem.wf s.enc.txb = true) (h : exec i s = .next t) :
    Mem.wf t.enc.txb = true := by
  rcases exec_enc_cases h with he | ⟨b, -, hlt, he⟩ | ⟨-, he⟩ <;> rw [he]
  · exact hwf
  · exact Mem.wf_write _ b hwf hlt
  · exact hwf

/-- An instruction keeps both byte stores in their canonical form. -/
theorem exec_keeps_memWf {i : Instr} {s t : State} (hwf : s.memWf) (h : exec i s = .next t) : t.memWf := by
  obtain ⟨hbuf, htxb⟩ := hwf
  exact ⟨exec_keeps_buf_wf hbuf h, exec_keeps_txb_wf htxb h⟩

end Sys2Proof.Machine

namespace Sys2Proof

open Sys2Proof.Machine

/-! ## The statement -/

/-- Settles O12: a step changes only what arrives and the controller's program, resets the machine, records a refusal, or runs one instruction; each
keeps the canonical form. -/
theorem stepKeepsMemoryForm : Obligations.StepKeepsMemoryForm := by
  intro s t hwf h
  rcases step_cases h with ⟨p, q, rfl⟩ | ⟨rest, -, rfl⟩ | ⟨p, q, r, rfl⟩ | ⟨p, q, i, hexec⟩
  · exact hwf
  · exact resetMeetsInvariant.2
  · exact hwf
  · exact exec_keeps_memWf (s := { s with port := p, ctl := q }) hwf hexec

end Sys2Proof
end

section
/-! PROOFS. The statements of 30_encoding.md's family: the decoder and the encoder on every code, the operation words' effects, and `SEND`. -/

namespace Sys2Proof

/-! ## Operation words (R96 to R100) -/

/-- The operation of an unreserved word, by the number of its opcode and its operand fields (R97). -/
def wordOperation (opc : Nat) (aux : BitVec 4) (b : Byte) : Instr :=
  if opc = 0 then .nop else if opc = 1 then .rxByte b else if opc = 2 then .decClear else if opc = 3 then .encFrame b
  else if opc = 4 then .txbPush b else if opc = 5 then .txbClear else if opc = 6 then .seqStart aux
  else if opc = 7 then .seqTick else .seqStop

/-- The decoder of operation words in terms of the opcode's number: the checks of R100 in their order, then the operation. -/
theorem decodeWord_eq (w : OpWord) :
    decodeWord w =
      if 9 ≤ (opcOf w).toNat then .ok (reservedRow w)
      else if auxOf w ≠ 0#4 ∧ (opcOf w).toNat ≠ 6 then .error .nonzeroField
      else if byteOf w ≠ 0#8 ∧ (opcOf w).toNat ≠ 1 ∧ (opcOf w).toNat ≠ 3 ∧ (opcOf w).toNat ≠ 4 then .error .nonzeroField
      else .ok (wordOperation (opcOf w).toNat (auxOf w) (byteOf w)) := by
  have hle : 0x9#4 ≤ opcOf w ↔ 9 ≤ (opcOf w).toNat := BitVec.le_def
  have hne : ∀ k : BitVec 4, opcOf w ≠ k ↔ (opcOf w).toNat ≠ k.toNat := fun k => BitVec.toNat_inj.not.symm
  simp only [decodeWord, hle, hne, BitVec.toNat_ofNat, Nat.reduceMod, Nat.reducePow]
  by_cases hres : 9 ≤ (opcOf w).toNat
  · rw [if_pos hres, if_pos hres]
  · rw [if_neg hres, if_neg hres]
    congr 2
    generalize (opcOf w).toNat = n at hres
    have hn : n < 9 := Nat.lt_of_not_le hres
    interval_cases n <;> rfl

/-- Which fields an unreserved word may have nonzero: `aux` for SEQ_START alone, `byte` for RX_BYTE, ENC_FRAME and TXB_PUSH (R98). -/
def fieldsAllowed (opc : Nat) (aux : BitVec 4) (b : Byte) : Prop :=
  (aux = 0#4 ∨ opc = 6) ∧ (b = 0#8 ∨ opc = 1 ∨ opc = 3 ∨ opc = 4)

/-- A field is refused exactly when one of R100's two checks finds it. -/
theorem not_fieldsAllowed_iff {opc : Nat} {aux : BitVec 4} {b : Byte} :
    ¬ fieldsAllowed opc aux b ↔ (aux ≠ 0#4 ∧ opc ≠ 6) ∨ (b ≠ 0#8 ∧ opc ≠ 1 ∧ opc ≠ 3 ∧ opc ≠ 4) := by
  unfold fieldsAllowed
  tauto

section Word

variable {w : OpWord}

/-- A word of a reserved opcode decodes to its RESERVED row, whatever its fields (R99). -/
theorem decode_reservedOpcode (hres : 9 ≤ (opcOf w).toNat) : decode (.opw w) = .ok (reservedRow w) := by
  simp only [decode, decodeWord_eq]
  rw [if_pos hres]

/-- An unreserved word with allowed fields decodes to its operation (R97). -/
theorem decode_operation (hres : ¬ 9 ≤ (opcOf w).toNat) (hf : fieldsAllowed (opcOf w).toNat (auxOf w) (byteOf w)) :
    decode (.opw w) = .ok (wordOperation (opcOf w).toNat (auxOf w) (byteOf w)) := by
  obtain ⟨haux, hbyte⟩ := not_or.mp (mt not_fieldsAllowed_iff.mpr (not_not.mpr hf))
  simp only [decode, decodeWord_eq]
  rw [if_neg hres, if_neg haux, if_neg hbyte]

/-- An unreserved word with a field that must be zero and is not is rejected (R98). -/
theorem decode_nonzeroField (hres : ¬ 9 ≤ (opcOf w).toNat) (hf : ¬ fieldsAllowed (opcOf w).toNat (auxOf w) (byteOf w)) :
    decode (.opw w) = .error .nonzeroField := by
  simp only [decode, decodeWord_eq]
  rw [if_neg hres]
  split_ifs with haux hbyte
  · rfl
  · rfl
  · exact absurd (not_fieldsAllowed_iff.mp hf) (not_or.mpr ⟨haux, hbyte⟩)

end Word

/-- The word built from an unreserved opcode and allowed fields decodes to their operation. -/
theorem decode_opWord {opc aux : BitVec 4} {b : Byte} (hres : ¬ 9 ≤ opc.toNat) (hf : fieldsAllowed opc.toNat aux b) :
    decode (.opw (opWord opc aux b)) = .ok (wordOperation opc.toNat aux b) := by
  have h := decode_operation (w := opWord opc aux b)
  simp only [opcOf_opWord, auxOf_opWord, byteOf_opWord] at h
  exact h hres hf

/-- The code of an operation is the word of its fields: each opcode in turn, the fields it does not allow being zero. -/
theorem encode_wordOperation {opc : Nat} {aux : BitVec 4} {b : Byte} (hres : ¬ 9 ≤ opc) (hf : fieldsAllowed opc aux b) :
    encode (wordOperation opc aux b) = .opw (opWord (BitVec.ofNat 4 opc) aux b) := by
  obtain ⟨haux, hbyte⟩ := hf
  have hopc : opc < 9 := Nat.lt_of_not_le hres
  interval_cases opc <;> simp_all [wordOperation, encode]

/-- No operation is a RESERVED row, so each is well-formed. -/
theorem wellFormed_wordOperation (opc : Nat) (aux : BitVec 4) (b : Byte) : (wordOperation opc aux b).wellFormed = true := by
  unfold wordOperation
  split_ifs <;> rfl

/-! ## The RESERVED rows (R99) -/

/-- The well-formed instruction of a RESERVED row is the row of its own word, whose opcode is reserved. -/
theorem reservedRow_of_wellFormed {w : OpWord} {i : Instr} (hi : i = .reserved9 w ∨ i = .reservedAB w ∨ i = .reservedCF w)
    (hwf : i.wellFormed = true) : 9 ≤ (opcOf w).toNat ∧ reservedRow w = i := by
  rcases hi with rfl | rfl | rfl <;> simp only [Instr.wellFormed, Bool.or_eq_true, beq_iff_eq] at hwf <;> unfold reservedRow
  · rw [hwf]; exact ⟨by decide, rfl⟩
  · rcases hwf with h | h <;> rw [h] <;> exact ⟨by decide, rfl⟩
  · rcases hwf with ((h | h) | h) | h <;> rw [h] <;> exact ⟨by decide, rfl⟩

/-- A well-formed instruction of a RESERVED row decodes from its word. -/
theorem decode_reserved {w : OpWord} {i : Instr} (hi : i = .reserved9 w ∨ i = .reservedAB w ∨ i = .reservedCF w)
    (hwf : i.wellFormed = true) : decode (.opw w) = .ok i := by
  obtain ⟨hres, hrow⟩ := reservedRow_of_wellFormed hi hwf
  rw [decode_reservedOpcode hres, hrow]

/-- The code of a RESERVED row is its word. -/
theorem encode_reservedRow (w : OpWord) : encode (reservedRow w) = .opw w := by
  unfold reservedRow
  split_ifs <;> rfl

/-- A word of a reserved opcode lies in the range of the row it is given. -/
theorem wellFormed_reservedRow {w : OpWord} (hres : 9 ≤ (opcOf w).toNat) : (reservedRow w).wellFormed = true := by
  unfold reservedRow
  generalize ho : opcOf w = o at hres
  split_ifs with h9 hAB <;> simp only [Instr.wellFormed, ho]
  · rw [h9]; rfl
  · simpa only [Bool.or_eq_true, beq_iff_eq] using hAB
  · clear ho; decide +revert

/-! ## What decodes is well-formed, and its code is what was decoded -/

/-- An operation word that decodes is the code of what it decodes to. -/
theorem encode_of_decode_opw {w : OpWord} {i : Instr} (h : decode (.opw w) = .ok i) : i.wellFormed = true ∧ encode i = .opw w := by
  by_cases hres : 9 ≤ (opcOf w).toNat
  · cases (decode_reservedOpcode hres).symm.trans h
    exact ⟨wellFormed_reservedRow hres, encode_reservedRow w⟩
  by_cases hf : fieldsAllowed (opcOf w).toNat (auxOf w) (byteOf w)
  · cases (decode_operation hres hf).symm.trans h
    refine ⟨wellFormed_wordOperation _ _ _, ?_⟩
    rw [encode_wordOperation hres hf, BitVec.ofNat_toNat, BitVec.setWidth_eq, opWord_fields]
  · cases (decode_nonzeroField hres hf).symm.trans h

/-- A Cmd byte that selects a handler is the code of that command (R91). -/
theorem encode_of_decodeCmd {c : Byte} {i : Instr} (h : decodeCmd c = .ok i) : i.wellFormed = true ∧ encode i = .cmd c := by
  unfold decodeCmd at h
  split_ifs at h with hc hc hc hc hc <;> cases h <;> exact ⟨rfl, by rw [hc]; rfl⟩

/-- A response code and Data byte that name a response are the code of that response; only ERROR has the Data byte (R92, R240). -/
theorem encode_of_decodeRsp {c e : Byte} {i : Instr} (h : decodeRsp c e = .ok i) : i.wellFormed = true ∧ encode i = .rsp c e := by
  unfold decodeRsp at h
  split_ifs at h with hc he hc hc hc hc <;> cases h
  · exact ⟨rfl, by rw [hc]; rfl⟩
  all_goals
    rw [not_not] at he
    exact ⟨rfl, by rw [hc, he]; rfl⟩

end Sys2Proof

namespace Sys2Proof.Machine

/-! ## What an operation word does -/

/-- Each RESERVED row is refused (R99). -/
theorem exec_reservedRow (w : OpWord) (s : State) : exec (reservedRow w) s = .next (s.refuse .refReservedOp) := by
  unfold reservedRow
  split_ifs <;> rfl

/-! ## `SEND` as words (R103) -/

/-- The word of TXB_PUSH (R97). -/
theorem opWord_txbPush (b : Byte) : opWord 0x4#4 0#4 b = 0x4000#16 ||| b.setWidth 16 := by decide +revert

/-- The word of ENC_FRAME (R97). -/
theorem opWord_encFrame (c : Byte) : opWord 0x3#4 0#4 c = 0x3000#16 ||| c.setWidth 16 := by decide +revert

/-- `SEND` in the words of its operations (R103). -/
theorem sendProgram_words (c : Byte) (data : List Byte) :
    sendProgram c data = [CtlItem.op 0x5000#16] ++ data.map (fun b => CtlItem.op (0x4000#16 ||| b.setWidth 16)) ++
      [CtlItem.op (0x3000#16 ||| c.setWidth 16)] := by
  simp only [sendProgram, opWord_txbPush, opWord_encFrame]
  rfl

/-- The electrical level of a status line is its logical level, inverted if `STATUS_BUSY_HIGH` is 0 (R43). -/
theorem getElem_statusLevels (p : Params) (busy : Lines) (i : Fin 10) : (statusLevels p busy)[i] = (busy[i] == p.statusBusyHigh) :=
  Vector.getElem_map _ _

end Sys2Proof.Machine

namespace Sys2Proof

open Sys2Proof.Machine

/-! ## The statements -/

/-- Settles O1: an unreserved row's fields are allowed, a RESERVED row's word keeps its row, and the command and response codes are distinct. -/
theorem decodeEncodeAgree : Obligations.DecodeEncodeAgree := by
  intro i hwf
  cases i with
  | nop | decClear | txbClear | seqTick | seqStop => exact decode_opWord (by decide) ⟨.inl rfl, .inl rfl⟩
  | rxByte b => exact decode_opWord (by decide) ⟨.inl rfl, .inr (.inl rfl)⟩
  | encFrame c => exact decode_opWord (by decide) ⟨.inl rfl, .inr (.inr (.inl rfl))⟩
  | txbPush b => exact decode_opWord (by decide) ⟨.inl rfl, .inr (.inr (.inr rfl))⟩
  | seqStart n => exact decode_opWord (by decide) ⟨.inr rfl, .inl rfl⟩
  | reserved9 w => exact decode_reserved (.inl rfl) hwf
  | reservedAB w => exact decode_reserved (.inr (.inl rfl)) hwf
  | reservedCF w => exact decode_reserved (.inr (.inr rfl)) hwf
  | cmdVersion | cmdStatus | cmdStop | cmdSyncMove | cmdAsyncMove | rspVersion | rspStatus | rspStop | rspMove | rspError e => rfl

/-- Settles O2: each of the three decoders gives only well-formed instructions, and inverts the encoder. -/
theorem encodeDecodeAgree : Obligations.EncodeDecodeAgree := by
  intro c i h
  cases c with
  | opw w => exact encode_of_decode_opw h
  | cmd c => exact encode_of_decodeCmd h
  | rsp c e => exact encode_of_decodeRsp h

/-- Settles O4: the word is fetched, and each branch of its decoding is a refusal or the operation. -/
theorem operationWordsDecode : Obligations.OperationWordsDecode := by
  intro w s rest opc aux b hr hp hopc haux hb
  obtain rfl : opc = (opcOf w).toNat := hopc
  obtain rfl : aux = auxOf w := haux
  obtain rfl : b = byteOf w := hb
  have hfetch := fetch_word hr hp
  by_cases hres : 9 ≤ (opcOf w).toNat
  · rw [if_pos hres, step_run_ok hfetch (decode_reservedOpcode hres), exec_reservedRow]
    rfl
  rw [if_neg hres]
  by_cases haux : auxOf w ≠ 0#4 ∧ (opcOf w).toNat ≠ 6
  · rw [if_pos haux]
    exact step_run_error hfetch (decode_nonzeroField hres (not_fieldsAllowed_iff.mpr (.inl haux)))
  rw [if_neg haux]
  by_cases hbyte : byteOf w ≠ 0#8 ∧ (opcOf w).toNat ≠ 1 ∧ (opcOf w).toNat ≠ 3 ∧ (opcOf w).toNat ≠ 4
  · rw [if_pos hbyte]
    exact step_run_error hfetch (decode_nonzeroField hres (not_fieldsAllowed_iff.mpr (.inr hbyte)))
  rw [if_neg hbyte]
  exact step_run_ok hfetch (decode_operation hres (by_contra fun hf => (not_fieldsAllowed_iff.mp hf).elim haux hbyte))

/-- Settles O58: each response puts its `SEND` before the controller's program; the two open payloads are cut to a legal length. -/
theorem responsesSend : Obligations.ResponsesSend := by
  intro s send hsend
  obtain rfl : send = sendProgram := by
    funext c data
    rw [hsend, sendProgram_words]
  exact ⟨⟨_, List.length_take_le _ _, rfl, rfl⟩,
    ⟨_, statusLevels Config.params (Config.busyLevels s.draws), List.length_take_le _ _, rfl, getElem_statusLevels _ _, rfl⟩,
    rfl, rfl, fun _ => rfl⟩

/-- Settles O3: each word is evaluated by the decoder. -/
theorem specWordsDecode : Obligations.SpecWordsDecode := by
  unfold Obligations.SpecWordsDecode
  decide

end Sys2Proof
end

section
/-! PROOFS. The statements of 40_packet_decoder.md's family: RX_BYTE in each decoder state, DEC_CLEAR and the ready frame, and whole frames fed byte by
byte. -/

namespace Sys2Proof.Machine

/-! ## RX_BYTE in each decoder state (R122 to R129) -/

/-- An RX_BYTE that the decoder takes writes the decoder and nothing else (R121). -/
theorem exec_rxByte_of_ok {b : Byte} {s : State} {d : Decoder} (h : s.dec.rxByte b = .ok d) : exec (.rxByte b) s = .next { s with dec := d } := by
  rw [exec_rxByte_eq, h]; rfl

namespace Decoder

section RxByte

variable {d : Decoder} (b : Byte)

/-- In WaitStx only STX is taken (R122). -/
theorem rxByte_of_waitStx (hs : d.state = .waitStx) :
    d.rxByte b = .ok (if b = stx then { d with cnt := 1#8, state := .waitLenHigh, frameDone := false } else { d with frameDone := false }) := by
  simp only [rxByte, hs]; rfl

/-- In WaitLenHigh the byte is the Length's high half (R123). -/
theorem rxByte_of_waitLenHigh (hs : d.state = .waitLenHigh) :
    d.rxByte b = .ok { d with len := b.setWidth 16 <<< 8, xor := b, cnt := 2#8, state := .waitLenLow, frameDone := false } := by
  simp only [rxByte, hs]; rfl

/-- In WaitLenLow the byte completes the Length, and a Length out of its range is the hard reset (R124, R129). -/
theorem rxByte_of_waitLenLow (hs : d.state = .waitLenLow) :
    d.rxByte b = .ok (if (d.len ||| b.setWidth 16).toNat < 5 ∨ 256 < (d.len ||| b.setWidth 16).toNat then Decoder.reset
      else { d with len := d.len ||| b.setWidth 16, xor := d.xor ^^^ b, cnt := 3#8, state := .waitCmd, frameDone := false }) := by
  simp only [rxByte, hs]; rfl

/-- In WaitCmd the byte is the Cmd, and Length 5 has no Data (R125). -/
theorem rxByte_of_waitCmd (hs : d.state = .waitCmd) :
    d.rxByte b = .ok { d with cmd := b, xor := d.xor ^^^ b, cnt := 4#8, frameDone := false,
                              state := if d.len = 5#16 then .waitXor else .waitData } := by
  have hlen : d.len = 5#16 ↔ d.len.toNat = lenMin := BitVec.toNat_inj.symm
  simp only [rxByte, hs, rxCmd, hlen]

/-- In WaitData the byte is stored at index `dec_cnt - 4`, and the Xor byte is next once `dec_cnt` is `dec_len - 1` (R126). -/
theorem rxByte_of_waitData (hs : d.state = .waitData) (hmax : d.len.toNat ≤ 256) (hmin : 4 ≤ d.cnt.toNat) (hcnt : d.cnt.toNat + 1 < d.len.toNat) :
    d.rxByte b = .ok { d with buf := Mem.write d.buf (d.cnt.toNat - 4) b, xor := d.xor ^^^ b, cnt := d.cnt + 1#8, frameDone := false,
                              state := if d.cnt.toNat + 1 = d.len.toNat - 1 then .waitXor else .waitData } := by
  have hidx : (d.cnt - 4#8).toNat = d.cnt.toNat - 4 := by bv_omega
  have hroom : d.cnt.toNat - 4 < payloadMax := by simp only [payloadMax]; omega
  have hlast : (d.cnt + 1#8).setWidth 16 = d.len - 1#16 ↔ d.cnt.toNat + 1 = d.len.toNat - 1 := by bv_omega
  simp only [rxByte, hs, rxData, hidx, hroom, if_true, hlast]

/-- In WaitXor a match accepts the frame, and a mismatch is the hard reset (R127, R129). -/
theorem rxByte_of_waitXor (hs : d.state = .waitXor) :
    d.rxByte b = .ok (if b = d.xor then { d with state := .ready, frameDone := true } else Decoder.reset) := by
  simp only [rxByte, hs]; rfl

/-- In Ready the byte is discarded (R128). -/
theorem rxByte_of_ready (hs : d.state = .ready) : d.rxByte b = .ok { d with frameDone := false } := by
  simp only [rxByte, hs]

end RxByte

end Decoder

/-! ## What the invariant says of `dec_buf` (R133) -/

/-- A store written exactly below `n` is readable exactly there. -/
theorem Mem.isSome_read_iff {m : Mem} {n : Nat} (h : Mem.writtenBelow m n) (i : Nat) : (Mem.read m i).isSome = true ↔ i < n := by
  rw [Mem.read_of_writtenBelow h, isSome_getElem?, Mem.length_bytes h]

/-! ## DEC_CLEAR and the ready frame (R134, R135) -/

/-- DEC_CLEAR leaves the reset decoder in every state (R134). -/
theorem exec_decClear_eq (s : State) : exec .decClear s = .next { s with dec := Decoder.reset } := rfl

/-- In Ready no instruction but DEC_CLEAR writes a field of the decoder other than `dec_done` (R128, R135). -/
theorem exec_keeps_ready_dec {i : Instr} {s t : State} (hs : s.dec.state = .ready) (hi : i ≠ .decClear) (h : exec i s = .next t) :
    t.dec = { s.dec with frameDone := t.dec.frameDone } := by
  rcases exec_dec_cases h with ⟨hd, -⟩ | ⟨hd, -⟩ | ⟨b, -, hd⟩ | ⟨hclear, -⟩
  · rw [hd]
  · rw [hd]
  · injection (Decoder.rxByte_of_ready b hs).symm.trans hd with hd
    rw [← hd]
  · exact absurd hclear hi

/-! ## Bytes fed one after another (R103, R138) -/

section Feed

variable {bs : List Byte} {s t : State}

/-- Bytes the decoder takes run whole, and write nothing but the decoder. -/
theorem execAll_feedOps_of_feed {d : Decoder} (h : Decoder.feed bs s.dec = .ok d) : execAll (feedOps bs) s = .next { s with dec := d } := by
  rw [execAll_feedOps, h]; rfl

/-- A run of RX_BYTEs that completes is a span the decoder takes. -/
theorem feed_of_execAll_feedOps (h : execAll (feedOps bs) s = .next t) : Decoder.feed bs s.dec = .ok t.dec := by
  rw [execAll_feedOps] at h
  split at h
  · rename_i d hd
    cases h
    exact hd
  · cases h

end Feed

/-! ## Frames with any byte in the place of the checksum (R80 to R83, R136) -/

/-- The Length of a frame with at most 251 Data bytes, and its range (R81, R83). -/
theorem length_of_payload {n : Nat} (h : n ≤ payloadMax) :
    n + 5 = (BitVec.ofNat 16 (5 + n)).toNat ∧ (BitVec.ofNat 16 (5 + n)).toNat ≤ lenMax := by
  simp only [payloadMax, lenMax, BitVec.toNat_ofNat] at *
  omega

/-- A frame's bytes, but for `x` in the place of the checksum (R80). -/
def frameClosedBy (l : BitVec 16) (c : Byte) (ds : List Byte) (x : Byte) : List Byte := [stx, lenHigh l, lenLow l, c] ++ ds ++ [x]

@[simp] theorem length_frameClosedBy (l : BitVec 16) (c x : Byte) (ds : List Byte) : (frameClosedBy l c ds x).length = ds.length + 5 := by
  simp [frameClosedBy]

/-- A change in one byte of a span is the same change in its checksum. -/
theorem xorFrom_set (e : Byte) {v : Byte} {bs : List Byte} {i : Nat} (x : Byte) (hv : bs[i]? = some v) :
    xorFrom x (bs.set i (v ^^^ e)) = xorFrom x bs ^^^ e := by
  induction bs generalizing x i with
  | nil => cases hv
  | cons b bs ih =>
    cases i with
    | zero =>
      cases hv
      rw [List.set_cons_zero, xorFrom_cons, xorFrom_cons, ← BitVec.xor_assoc, xorFrom_xor]
    | succ i => exact ih (x ^^^ b) hv

/-- The bytes a frame's checksum covers from Cmd on, with the checksum itself, cancel exactly when the checksum is right (R82). -/
theorem xorFrom_closed_eq_zero_iff (h l c x : Byte) (ds : List Byte) :
    xorFrom (h ^^^ l) (c :: (ds ++ [x])) = 0#8 ↔ x = frameXor h l c ds := by
  rw [xorFrom_cons, xorFrom_append, xorFrom_cons, xorFrom_nil, BitVec.xor_eq_zero_iff, eq_comm]; rfl

/-- A span of at least two bytes has a first and a last one. -/
theorem exists_first_last {n : Nat} {bs : List Byte} (h : bs.length = n + 2) : ∃ c ds x, bs = c :: (ds ++ [x]) ∧ ds.length = n := by
  obtain ⟨c, tl, rfl⟩ := List.exists_cons_of_length_eq_add_one h
  rcases List.eq_nil_or_concat' tl with rfl | ⟨ds, x, rfl⟩
  · cases h
  · exact ⟨c, ds, x, rfl, by simpa using h⟩

/-- A legal frame with one byte from Cmd on changed is a frame of the same Length with a wrong checksum. -/
theorem frameBytes_set {l : BitVec 16} {c v e : Byte} {ds : List Byte} {j : Nat} (hj : 3 ≤ j) (hv : (frameBytes l c ds)[j]? = some v)
    (he : e ≠ 0#8) :
    ∃ c' ds' x, (frameBytes l c ds).set j (v ^^^ e) = frameClosedBy l c' ds' x ∧ ds'.length = ds.length ∧
      x ≠ frameXor (lenHigh l) (lenLow l) c' ds' := by
  obtain ⟨i, rfl⟩ := Nat.exists_eq_add_of_le' hj
  have hlegal := (xorFrom_closed_eq_zero_iff (lenHigh l) (lenLow l) c _ ds).mpr rfl
  have hchanged := xorFrom_set e (lenHigh l ^^^ lenLow l) (bs := c :: (ds ++ [frameXor (lenHigh l) (lenLow l) c ds])) (i := i) hv
  obtain ⟨c', ds', x, hset, hlen⟩ : ∃ c' ds' x,
      (c :: (ds ++ [frameXor (lenHigh l) (lenLow l) c ds])).set i (v ^^^ e) = c' :: (ds' ++ [x]) ∧ ds'.length = ds.length :=
    exists_first_last (by simp)
  refine ⟨c', ds', x, ?_, hlen, fun hx => he ?_⟩
  · exact congrArg ([stx, lenHigh l, lenLow l] ++ ·) hset
  · rw [hset, (xorFrom_closed_eq_zero_iff _ _ _ _ _).mpr hx, hlegal, BitVec.zero_xor] at hchanged
    exact hchanged.symm

namespace Decoder

/-- One more byte after a span that was taken. -/
theorem feed_concat {bs : List Byte} {d u : Decoder} (h : feed bs d = .ok u) (b : Byte) : feed (bs ++ [b]) d = u.rxByte b := by
  rw [feed_append bs [b] d u h]
  simp only [feed]
  split <;> simp only [*]

/-- From a decoder that meets the invariant no byte faults (R120, R133). -/
theorem feed_inv (bs : List Byte) {d : Decoder} (hinv : d.Inv) : ∃ t, feed bs d = .ok t ∧ t.Inv := by
  induction bs generalizing d with
  | nil => exact ⟨d, rfl, hinv⟩
  | cons b bs ih =>
    obtain ⟨u, hu, huinv⟩ := rxByte_inv hinv b
    obtain ⟨t, ht, htinv⟩ := ih huinv
    exact ⟨t, by rw [feed, hu]; exact ht, htinv⟩

/-! ## The decoder inside a frame

`Receiving bs d` says that a decoder `d` outside Ready has taken the bytes `bs` since it was last reset. The bytes determine the decoder
(`Receiving.feed_eq`), and every further byte goes on, resets the decoder, or completes a legal frame (`Receiving.rxByte_cases`). -/

/-- The decoder has taken the bytes `bs` of a frame that is not yet complete. -/
inductive Receiving : List Byte → Decoder → Prop where
  | start : Receiving [] Decoder.reset
  | marker : Receiving [stx] gotStx
  | highByte (h : Byte) : Receiving [stx, h] (gotLenHigh h)
  | wholeLength (l : BitVec 16) (hmin : lenMin ≤ l.toNat) (hmax : l.toNat ≤ lenMax) : Receiving [stx, lenHigh l, lenLow l] (gotLength l)
  | body (l : BitVec 16) (c : Byte) (ds : List Byte) (hlen : ds.length + 5 ≤ l.toNat) (hmax : l.toNat ≤ lenMax) :
      Receiving ([stx, lenHigh l, lenLow l, c] ++ ds) (mid l c ds)

section Receiving

variable {bs : List Byte} {d : Decoder}

/-- Inside a frame nothing has been reported. -/
theorem Receiving.frameDone_eq (h : Receiving bs d) : d.frameDone = false := by
  cases h <;> rfl

/-- Inside a frame no frame is ready. -/
theorem Receiving.state_ne_ready (h : Receiving bs d) : d.state ≠ .ready := by
  cases h with
  | start | marker | highByte _ | wholeLength _ _ _ => exact nofun
  | body l c ds _ _ => simp only [mid]; split <;> exact nofun

/-- The bytes, fed to the reset decoder, give the decoder. -/
theorem Receiving.feed_eq (h : Receiving bs d) : feed bs Decoder.reset = .ok d := by
  cases h with
  | start | marker | highByte _ => rfl
  | wholeLength l hmin hmax =>
    have htwo : feed [stx, lenHigh l] Decoder.reset = .ok (gotLenHigh (lenHigh l)) := rfl
    rw [show [stx, lenHigh l, lenLow l] = [stx, lenHigh l] ++ [lenLow l] from rfl, feed_concat htwo, rxByte_gotLenHigh, append_lenHigh_lenLow,
      if_neg (by omega)]
  | body l c ds hlen hmax =>
    have hmin : lenMin ≤ l.toNat := by simp only [lenMin]; omega
    rw [feed_append _ _ _ _ (feed_header l c hmin hmax), feed_data l c [] ds (by simpa using hlen) hmax, List.nil_append]

/-- One more byte resets the decoder, goes on with the frame, or completes a legal one (R122 to R127). -/
theorem Receiving.rxByte_cases (h : Receiving bs d) (b : Byte) :
    ∃ t, d.rxByte b = .ok t ∧ (t = Decoder.reset ∨ Receiving (bs ++ [b]) t ∨
      ∃ l c ds, ds.length + 5 = l.toNat ∧ l.toNat ≤ lenMax ∧ bs ++ [b] = frameBytes l c ds ∧ t = accepted l c ds true) := by
  cases h with
  | start =>
    refine ⟨_, rxByte_reset b, ?_⟩
    split
    · rename_i hb
      rw [hb]; exact .inr (.inl .marker)
    · exact .inl rfl
  | marker => exact ⟨_, rxByte_gotStx b, .inr (.inl (.highByte b))⟩
  | highByte h =>
    refine ⟨_, rxByte_gotLenHigh h b, ?_⟩
    split
    · exact .inl rfl
    · have hnext := Receiving.wholeLength (h ++ b) (by omega) (by omega)
      rw [lenHigh_append, lenLow_append] at hnext
      exact .inr (.inl hnext)
  | wholeLength l hmin hmax => exact ⟨_, rxByte_gotLength l b, .inr (.inl (.body l b [] (by simpa [lenMin] using hmin) hmax))⟩
  | body l c ds hlen hmax =>
    by_cases hfull : ds.length + 5 = l.toNat
    · refine ⟨_, rxByte_mid_xor l c b ds hfull, ?_⟩
      split
      · rename_i hb
        exact .inr (.inr ⟨l, c, ds, hfull, hmax, by rw [hb]; rfl, rfl⟩)
      · exact .inl rfl
    · have hlt : ds.length + 5 < l.toNat := by omega
      refine ⟨_, rxByte_mid_data l c b ds hlt hmax, .inr (.inl ?_)⟩
      rw [List.append_assoc]
      exact .body l c (ds ++ [b]) (by rw [List.length_append, List.length_singleton]; omega) hmax

end Receiving

/-- A span that leaves the decoder neither in WaitStx nor in Ready after any of its bytes is the beginning of a frame (R138). -/
theorem receiving_of_feed {bs : List Byte}
    (hinside : ∀ k u, 0 < k → k ≤ bs.length → feed (bs.take k) Decoder.reset = .ok u → u.state ≠ .waitStx ∧ u.state ≠ .ready) :
    ∃ d, Receiving bs d := by
  induction bs using List.reverseRecOn with
  | nil => exact ⟨_, .start⟩
  | append_singleton bs b ih =>
    have hlen : (bs ++ [b]).length = bs.length + 1 := List.length_append
    obtain ⟨d, hd⟩ := ih fun k u hpos hk hu =>
      hinside k u hpos (by omega) (by rwa [List.take_append_of_le_length hk])
    obtain ⟨t, ht, hcases⟩ := hd.rxByte_cases b
    obtain ⟨hstx, hready⟩ := hinside _ t (by omega) le_rfl (by rw [List.take_length, feed_concat hd.feed_eq, ht])
    rcases hcases with rfl | hnext | ⟨l, c, ds, -, -, -, rfl⟩
    · exact absurd rfl hstx
    · exact ⟨t, hnext⟩
    · exact absurd rfl hready

/-- A span whose last byte reports a frame, and after whose earlier bytes the decoder is neither in WaitStx nor in Ready, is a legal frame (R138). -/
theorem exists_frame_of_frameDone {bs : List Byte} {t : Decoder}
    (hinside : ∀ k u, 0 < k → k < bs.length → feed (bs.take k) Decoder.reset = .ok u → u.state ≠ .waitStx ∧ u.state ≠ .ready)
    (hfeed : feed bs Decoder.reset = .ok t) (hdone : t.frameDone = true) :
    ∃ l c ds, ds.length + 5 = l.toNat ∧ l.toNat ≤ lenMax ∧ bs = frameBytes l c ds := by
  have hunreported : t.frameDone ≠ false := by rw [hdone]; exact nofun
  rcases List.eq_nil_or_concat' bs with rfl | ⟨pre, b, rfl⟩
  · cases hfeed
    exact absurd rfl hunreported
  have hlen : (pre ++ [b]).length = pre.length + 1 := List.length_append
  obtain ⟨d, hd⟩ := receiving_of_feed (bs := pre) fun k u hpos hk hu =>
    hinside k u hpos (by omega) (by rwa [List.take_append_of_le_length hk])
  obtain ⟨u, hu, hcases⟩ := hd.rxByte_cases b
  cases (hu.symm.trans (feed_concat hd.feed_eq b).symm).trans hfeed
  rcases hcases with rfl | hnext | ⟨l, c, ds, hl, hmax, hframe, -⟩
  · exact absurd rfl hunreported
  · exact absurd hnext.frameDone_eq hunreported
  · exact ⟨l, c, ds, hl, hmax, hframe⟩

/-! ## A frame closed by any byte -/

section ClosedBy

variable {l : BitVec 16} {ds : List Byte} (c x : Byte) (hlen : ds.length + 5 = l.toNat) (hmax : l.toNat ≤ lenMax)
include hlen hmax

/-- Before its last byte such a span is the beginning of a frame. -/
theorem receiving_take_frameClosedBy {k : Nat} (hk : k < ds.length + 5) : ∃ d, Receiving ((frameClosedBy l c ds x).take k) d := by
  match k with
  | 0 => exact ⟨_, .start⟩
  | 1 => exact ⟨_, .marker⟩
  | 2 => exact ⟨_, .highByte _⟩
  | 3 => exact ⟨_, .wholeLength l (by simp only [lenMin]; omega) hmax⟩
  | k + 4 =>
    have htake : (frameClosedBy l c ds x).take (k + 4) = [stx, lenHigh l, lenLow l, c] ++ ds.take k := by
      simp only [frameClosedBy, List.cons_append, List.nil_append, List.take_succ_cons, List.take_append_of_le_length (show k ≤ ds.length by omega)]
    rw [htake]
    exact ⟨_, .body l c (ds.take k) (by rw [List.length_take]; omega) hmax⟩

/-- Its last byte decides: the frame is accepted if it is the checksum, and the decoder is reset if not (R127). -/
theorem feed_frameClosedBy :
    feed (frameClosedBy l c ds x) Decoder.reset =
      .ok (if x = frameXor (lenHigh l) (lenLow l) c ds then accepted l c ds true else Decoder.reset) := by
  rw [frameClosedBy, feed_concat (Receiving.body l c ds hlen.le hmax).feed_eq, rxByte_mid_xor l c x ds hlen]

/-- With a wrong checksum no beginning of the span, nor the whole of it, reports a frame (R136). -/
theorem frameDone_of_wrong_checksum (hbad : x ≠ frameXor (lenHigh l) (lenLow l) c ds) {n : Nat} {u : Decoder}
    (h : feed ((frameClosedBy l c ds x).take n) Decoder.reset = .ok u) : u.frameDone = false := by
  by_cases hn : n < ds.length + 5
  · obtain ⟨d, hd⟩ := receiving_take_frameClosedBy c x hlen hmax hn
    cases hd.feed_eq.symm.trans h
    exact hd.frameDone_eq
  · rw [List.take_of_length_le (by rw [length_frameClosedBy]; omega), feed_frameClosedBy c x hlen hmax, if_neg hbad] at h
    cases h; rfl

end ClosedBy

end Decoder

end Sys2Proof.Machine

namespace Sys2Proof

open Sys2Proof.Machine

/-! ## The statements -/

/-- Settles O14: the invariant is kept; it fixes WaitStx's fields, and the written indexes and the checksum while Data or Xor is awaited. -/
theorem decoderInvariants : Obligations.DecoderInvariants := by
  intro s t hinv h
  obtain ⟨⟨⟨hstx, -, -, -, hdata, hxor⟩, -⟩, -, -⟩ := stepKeepsInvariant s t hinv h
  refine ⟨fun hs => ?_, fun hs => ?_, fun hs => ?_⟩
  · obtain ⟨hl, hx, hc, hn, hbuf⟩ := hstx hs
    exact ⟨hl, hx, hc, hn, fun i => by rw [hbuf, Mem.read_nil]⟩
  · rcases hs with hs | hs
    · obtain ⟨hmax, hmin, hcnt, hbelow, -⟩ := hdata hs
      exact ⟨by omega, hmax, Mem.isSome_read_iff hbelow⟩
    · obtain ⟨hmin, hmax, -, hbelow, -⟩ := hxor (.inl hs)
      exact ⟨hmin, hmax, Mem.isSome_read_iff hbelow⟩
  · obtain ⟨-, -, -, hbelow, hsum⟩ := hdata hs
    exact ⟨Mem.bytes t.dec.buf, Mem.length_bytes hbelow, Mem.read_of_writtenBelow hbelow, hsum⟩

/-- Settles O15: STX is taken and any other byte discarded; under the invariant the decoder in WaitStx is the reset one. -/
theorem rxWaitStx : Obligations.RxWaitStx := by
  intro b s hs
  refine ⟨exec_rxByte_of_ok (Decoder.rxByte_of_waitStx b hs), fun hinv => ?_⟩
  rw [Decoder.eq_reset hinv hs]
  exact ⟨rfl, rfl, rfl, Mem.read_nil⟩

/-- Settles O16: the byte is taken as the Length's high half. -/
theorem rxWaitLenHigh : Obligations.RxWaitLenHigh :=
  fun b _ hs => exec_rxByte_of_ok (Decoder.rxByte_of_waitLenHigh b hs)

/-- Settles O17: the two arms of the length check. -/
theorem rxWaitLenLow : Obligations.RxWaitLenLow := by
  intro b s hs
  have hexec := exec_rxByte_of_ok (Decoder.rxByte_of_waitLenLow b hs)
  refine ⟨fun hbad => ?_, fun hmin hmax => ?_⟩
  · rw [hexec, if_pos hbad]; rfl
  · rw [hexec, if_neg (by omega)]

/-- Settles O18: the byte is taken as the Cmd. -/
theorem rxWaitCmd : Obligations.RxWaitCmd :=
  fun b _ hs => exec_rxByte_of_ok (Decoder.rxByte_of_waitCmd b hs)

/-- Settles O19: the invariant bounds `dec_cnt` by the Length, and the write leaves every other index. -/
theorem rxWaitData : Obligations.RxWaitData := by
  intro b s hinv hs
  obtain ⟨⟨-, -, -, -, hdata, -⟩, -⟩ := hinv
  obtain ⟨hmax, hmin, hcnt, -, -⟩ := hdata hs
  simp only [lenMax] at hmax
  refine ⟨by omega, by omega, by omega, _, exec_rxByte_of_ok (Decoder.rxByte_of_waitData b hs hmax hmin hcnt), rfl, fun k hk => ?_⟩
  have hidx : k - 1 = s.dec.cnt.toNat - 4 := by omega
  rw [hidx]
  exact ⟨by bv_omega, Mem.read_write_same _ _ _, fun a ha => Mem.read_write_other _ _ ha⟩

/-- Settles O20: the two arms of the checksum, and the count the invariant gives in WaitXor. -/
theorem rxWaitXor : Obligations.RxWaitXor := by
  intro b s hs
  have hexec := exec_rxByte_of_ok (Decoder.rxByte_of_waitXor b hs)
  refine ⟨fun hmatch => ?_, fun hmiss => ?_, fun hinv => ?_⟩
  · rw [hexec, if_pos hmatch]
  · rw [hexec, if_neg hmiss]; rfl
  · obtain ⟨⟨-, -, -, -, -, hxor⟩, -⟩ := hinv
    obtain ⟨-, -, hcnt, -, -⟩ := hxor (.inl hs)
    omega

/-- Settles O21: the byte is discarded, and the state stays Ready. -/
theorem rxReadyDiscards : Obligations.RxReadyDiscards :=
  fun b _ hs => ⟨_, exec_rxByte_of_ok (Decoder.rxByte_of_ready b hs), rfl, decide_eq_true hs⟩

/-- Settles O22: under the invariant the decoder takes every byte, and only the match sets `dec_done`. -/
theorem rxByteCompletes : Obligations.RxByteCompletes := by
  intro b s hinv
  obtain ⟨d, hd, -⟩ := Decoder.rxByte_inv hinv b
  exact ⟨d, exec_rxByte_of_ok hd, Decoder.rxByte_frameDone_iff hd⟩

/-- Settles O23: each proper beginning of the frame leaves the decoder inside it, and the last byte is its checksum. -/
theorem legalFrameAccepted : Obligations.LegalFrameAccepted := by
  intro c data s hdata hinv hs
  obtain ⟨hlen, hmax⟩ := length_of_payload hdata
  generalize BitVec.ofNat 16 (5 + data.length) = l at hlen hmax
  have hreset : s.dec = Decoder.reset := Decoder.eq_reset hinv hs
  refine ⟨?_, fun k hk => ?_⟩
  · have hfeed := Decoder.feed_frameClosedBy c (frameXor (lenHigh l) (lenLow l) c data) hlen hmax
    rw [if_pos rfl, ← hreset] at hfeed
    refine ⟨_, execAll_feedOps_of_feed hfeed, rfl, rfl, rfl, rfl, ?_, fun i => ?_⟩
    · exact decPlen_of_ready rfl (hlen.symm.trans (Nat.add_comm _ _)) hdata
    · exact (Mem.read_ofBytes 0 data i).trans (if_pos (Nat.zero_le i))
  · obtain ⟨d, hd⟩ := Decoder.receiving_take_frameClosedBy c (frameXor (lenHigh l) (lenLow l) c data) hlen hmax hk
    exact ⟨_, execAll_feedOps_of_feed (by rw [hreset]; exact hd.feed_eq), hd.frameDone_eq, hd.state_ne_ready⟩

/-- Settles O24: all bytes but the last are the beginning of a frame, and only a byte that completes a legal frame sets `dec_done`. -/
theorem onlyLegalFramesAccepted : Obligations.OnlyLegalFramesAccepted := by
  intro bs s t hinv hs hinside hrun hdone
  have hreset : s.dec = Decoder.reset := Decoder.eq_reset hinv hs
  have hfeed : Decoder.feed bs Decoder.reset = .ok t.dec := hreset ▸ feed_of_execAll_feedOps hrun
  obtain ⟨l, c, ds, hlen, hmax, hframe⟩ := Decoder.exists_frame_of_frameDone (fun k u hpos hk hu =>
    hinside k { s with dec := u } hpos hk (execAll_feedOps_of_feed (by rw [hreset, hu]))) hfeed hdone
  have hl : BitVec.ofNat 16 (5 + ds.length) = l := by
    rw [Nat.add_comm, hlen, BitVec.ofNat_toNat, BitVec.setWidth_eq]
  simp only [lenMax] at hmax
  exact ⟨c, ds, by omega, by rw [hl, hframe]⟩

/-- Settles O25: the changed frame has a wrong checksum, so its last byte resets the decoder, and no byte before it reports a frame. -/
theorem bitErrorRejected : Obligations.BitErrorRejected := by
  intro c data s j k x hdata hinv hs hj hx hk
  obtain ⟨hlen, hmax⟩ := length_of_payload hdata
  generalize BitVec.ofNat 16 (5 + data.length) = l at hlen hmax hx
  have hreset : s.dec = Decoder.reset := Decoder.eq_reset hinv hs
  have hbit : ∀ k < 8, 1#8 <<< k ≠ 0#8 := by decide
  obtain ⟨c', data', x', hset, hlen', hbad⟩ := frameBytes_set hj hx (hbit k hk)
  rw [hset]
  rw [← hlen'] at hlen
  have hfeed := Decoder.feed_frameClosedBy c' x' hlen hmax
  rw [if_neg hbad] at hfeed
  refine ⟨⟨_, execAll_feedOps_of_feed (d := Decoder.reset) (by rw [hreset]; exact hfeed), rfl⟩, fun n u hrun => ?_⟩
  have htaken := feed_of_execAll_feedOps hrun
  rw [hreset] at htaken
  exact Decoder.frameDone_of_wrong_checksum c' x' hlen hmax hbad htaken

/-- Settles O26: DEC_CLEAR leaves the reset decoder, which under the invariant is the one decoder in WaitStx. -/
theorem decClearResets : Obligations.DecClearResets := by
  refine ⟨by decide, fun s => ⟨_, exec_decClear_eq s, rfl, rfl, Mem.read_nil, fun hinv hs => ?_⟩, fun i s t hs hi h => ?_⟩
  · rw [← Decoder.eq_reset hinv hs]
  · rw [exec_keeps_ready_dec hs hi h]; exact hs

/-- Settles O27: the decoder is kept but for `dec_done`; the invariant gives the Length's range and the written indexes. -/
theorem readyFrameHeld : Obligations.ReadyFrameHeld := by
  intro i s t hs hi h
  have hdec := exec_keeps_ready_dec hs hi h
  have hready : t.dec.state = .ready := by rw [hdec]; exact hs
  refine ⟨hdec, decide_eq_true hready, fun hinv => ?_⟩
  obtain ⟨⟨-, -, -, -, -, hframe⟩, -⟩ := hinv
  obtain ⟨hmin, hmax, hcnt, hbelow, -⟩ := hframe (.inr hs)
  simp only [lenMin, lenMax] at hmin hmax
  have hplen : t.decPlen.toNat = s.dec.len.toNat - 5 := decPlen_of_ready hready (by rw [hdec]; show s.dec.len.toNat = _; omega) (by omega)
  refine ⟨hplen, fun k hk => ?_⟩
  rw [hdec]
  exact (Mem.isSome_read_iff hbelow k).mpr (by omega)

end Sys2Proof
end

section
/-! PROOFS. The statements of 41_packet_encoder.md's family: NOP, TXB_CLEAR and TXB_PUSH, the frame ENC_FRAME emits, and its way back through the
decoder. -/

namespace Sys2Proof.Machine

/-! ## The encoder's words (R97) -/

/-- The word of TXB_PUSH decodes to it, whatever its byte. -/
theorem decode_txbPush (b : Byte) : decode (.opw (0x4000#16 ||| b.setWidth 16)) = .ok (.txbPush b) := by
  rw [← opWord_txbPush]
  exact decodeEncodeAgree (.txbPush b) rfl

/-- The word of ENC_FRAME decodes to it, whatever its code. -/
theorem decode_encFrame (c : Byte) : decode (.opw (0x3000#16 ||| c.setWidth 16)) = .ok (.encFrame c) := by
  rw [← opWord_encFrame]
  exact decodeEncodeAgree (.encFrame c) rfl

/-! ## TXB_PUSH by the bytes queued (R152) -/

/-- With 251 bytes queued TXB_PUSH is refused. -/
theorem exec_txbPush_of_full (b : Byte) {s : State} (h : s.enc.txbLen.toNat = payloadMax) :
    exec (.txbPush b) s = .next { s with refused := some .refTxbFull } :=
  if_pos h

/-- With fewer queued TXB_PUSH writes the byte behind them. -/
theorem exec_txbPush_of_room (b : Byte) {s : State} (h : s.enc.txbLen.toNat < payloadMax) :
    exec (.txbPush b) s = .next { s with
      dec := { s.dec with frameDone := false },
      enc := { txb := Mem.write s.enc.txb s.enc.txbLen.toNat b, txbLen := s.enc.txbLen + 1#8 } } :=
  (if_neg h.ne).trans (if_pos h)

/-! ## The frame ENC_FRAME emits (R81, R153) -/

/-- The Length of the queued bytes' frame, as the frames of the decoder's statements write it. -/
theorem frameLength_eq_ofNat (n : Byte) : frameLength n = BitVec.ofNat 16 (5 + n.toNat) := by
  rw [← toNat_frameLength, BitVec.ofNat_toNat, BitVec.setWidth_eq]

/-- Under the encoder's invariant the queued bytes are readable, and ENC_FRAME emits their frame. -/
theorem exec_encFrame_of_inv (c : Byte) {s : State} (hinv : s.enc.Inv) :
    ∃ data : List Byte, data.length = s.enc.txbLen.toNat ∧ (∀ i, i < s.enc.txbLen.toNat → Mem.read s.enc.txb i = data[i]?) ∧
      exec (.encFrame c) s = .next (s.clearDone.emit ((frameBytes (frameLength s.enc.txbLen) c data).map Event.host)) := by
  obtain ⟨-, -, hwritten⟩ := hinv
  obtain ⟨data, hspan⟩ := Mem.readSpan_isSome s.enc.txb 0 s.enc.txbLen.toNat (by simpa only [Nat.zero_add] using hwritten)
  obtain ⟨hlen, hread⟩ := (Mem.readSpan_eq_some _ _ _ _).mp hspan
  simp only [Nat.zero_add] at hread
  refine ⟨data, hlen, hread, ?_⟩
  simp only [exec, execEncFrame, hspan]

end Sys2Proof.Machine

namespace Sys2Proof

open Sys2Proof.Machine

/-! ## The statements -/

/-- Settles O33: what ENC_FRAME emits is the legal frame of its code and the queued bytes, which the decoder accepts. -/
theorem encodedFrameDecodes : Obligations.EncodedFrameDecodes := by
  intro c s henc hdec hs
  obtain ⟨data, hlen, hread, hexec⟩ := exec_encFrame_of_inv c henc
  have hmax : data.length ≤ 251 := by rw [hlen]; exact henc.1
  rw [frameLength_eq_ofNat, ← hlen] at hexec
  obtain ⟨⟨u, hrun, -, hready, hdone, hcmd, hplen, hbuf⟩, -⟩ := legalFrameAccepted c data
    (s.clearDone.emit ((frameBytes (BitVec.ofNat 16 (5 + data.length)) c data).map Event.host)) hmax (Decoder.clearDone_inv hdec) hs
  refine ⟨_, _, u, hexec, rfl, hrun, hready, hdone, hcmd, BitVec.eq_of_toNat_eq (hplen.trans hlen), fun i hi => ?_⟩
  rw [hbuf, hread i hi]

/-- Settles O32: the two bytes of the Length and the queued bytes are those of the frame emitted. -/
theorem encFrameEmits : Obligations.EncFrameEmits := by
  refine fun c s => ⟨decode_encFrame c, fun hinv => ?_⟩
  obtain ⟨data, hlen, hread, hexec⟩ := exec_encFrame_of_inv c hinv
  refine ⟨lenHigh (frameLength s.enc.txbLen), lenLow (frameLength s.enc.txbLen), data, false, ?_, hlen, hread, hexec⟩
  rw [toNat_lenHigh_lenLow, toNat_frameLength]

/-- Settles O31: the two arms of TXB_PUSH; the write leaves every other index. -/
theorem txbPushAppends : Obligations.TxbPushAppends := by
  refine fun b s => ⟨decode_txbPush b, exec_txbPush_of_full b, fun hroom => ⟨_, exec_txbPush_of_room b hroom, rfl, ?_, ?_, ?_⟩⟩
  · show (s.enc.txbLen + 1#8).toNat = s.enc.txbLen.toNat + 1
    bv_omega
  · exact Mem.read_write_same _ _ _
  · exact fun a ha => Mem.read_write_other _ _ ha

/-- Settles O30: TXB_CLEAR replaces `txb_len` alone, and clears `dec_done`. -/
theorem txbClearEmpties : Obligations.TxbClearEmpties := ⟨by decide, fun _ => ⟨false, rfl⟩⟩

/-- Settles O29: NOP is the clearing of `dec_done`. -/
theorem nopClearsDone : Obligations.NopClearsDone := ⟨by decide, fun _ => rfl⟩

end Sys2Proof
end

section
/-! PROOFS. The statements of 42_motor_settings.md's family: a record's decoding from its 16 bytes, and the validity predicate. -/

namespace Sys2Proof.Machine

/-! ## A record from its 16 bytes (R85, R86, R165) -/

/-- A span whose bytes are a function of the offset reads as the list of them. -/
theorem Mem.readSpan_of_bytes (m : Mem) (o n : Nat) (b : Nat → Byte) (hb : ∀ i, i < n → Mem.read m (o + i) = some (b i)) :
    Mem.readSpan m o n = some ((List.range n).map b) := by
  refine (Mem.readSpan_eq_some m o n _).mpr ⟨by simp, fun i hi => ?_⟩
  rw [hb i hi, List.getElem?_map, List.getElem?_range hi, Option.map_some]

/-- A record whose 16 bytes have been written is made of them, four for each field, in the order of the fields. -/
theorem msdDecode_of_bytes {buf : Mem} {k : Nat} {b : Nat → Byte} (hb : ∀ i, i < 16 → Mem.read buf (16 * k + i) = some (b i)) :
    msdDecode buf k = some {
      number := le32 (b 0) (b 1) (b 2) (b 3), acceleration := le32 (b 4) (b 5) (b 6) (b 7),
      maxSpeed := le32 (b 8) (b 9) (b 10) (b 11), steps := le32 (b 12) (b 13) (b 14) (b 15) } := by
  have hspan : Mem.readSpan buf (16 * k) recSize = some ((List.range 16).map b) := Mem.readSpan_of_bytes buf (16 * k) 16 b hb
  simp only [msdDecode, hspan]
  rfl

/-- A record with an unwritten byte has no value. -/
theorem msdDecode_eq_none {buf : Mem} {k i : Nat} (hi : i < 16) (h : Mem.read buf (16 * k + i) = none) : msdDecode buf k = none := by
  have hspan : Mem.readSpan buf (16 * k) recSize = none := Mem.readSpan_eq_none buf (16 * k) 16 i hi h
  simp only [msdDecode, hspan]

/-- `steps` in two's complement (R11, R86). -/
theorem stepsInt_eq_ite (r : MotorSetting) :
    r.stepsInt = if r.steps.toNat < 2147483648 then (r.steps.toNat : Int) else (r.steps.toNat : Int) - 4294967296 := by
  rw [MotorSetting.stepsInt, BitVec.toInt_eq_toNat_cond]
  exact if_congr (by omega) rfl rfl

end Sys2Proof.Machine

namespace Sys2Proof

open Sys2Proof.Machine

/-! ## The statements -/

/-- Settles O34: the record is made of its 16 bytes, and each field's value is that of its four bytes. -/
theorem recordDecoding : Obligations.RecordDecoding :=
  fun _ _ => ⟨fun _ hb => ⟨_, msdDecode_of_bytes hb, toNat_le32 .., toNat_le32 .., toNat_le32 .., toNat_le32 .., stepsInt_eq_ite _⟩,
    fun _ => msdDecode_eq_none⟩

/-- Settles O35: the predicate's four comparisons. -/
theorem recordValidity : Obligations.RecordValidity := msdValid_iff

end Sys2Proof
end

section
/-! PROOFS. The statements of 43_sequencer.md's family: SEQ_START's checks and what it initialises, SEQ_TICK in each engine state, the debounce, the
termination of a started command, SEQ_STOP, and the wait with no active motor. -/

namespace Sys2Proof.Machine

/-! ## SEQ_START (R180 to R182) -/

/-- The word of SEQ_START (R97). -/
theorem opWord_seqStart (n : BitVec 4) : opWord 0x6#4 n 0#8 = 0x6000#16 ||| n.setWidth 16 <<< 8 :=
  CtlItem.op.inj (itemSeqStart_word n)

section Start

variable {n : BitVec 4} {buf : Mem} {s : State}

/-- A count above ten fails the first check (R180). -/
theorem startRecords_of_tooMany (hn : 10 < n.toNat) : startRecords buf n = .error .refStartCount := if_pos hn

/-- With a legal count the records' checks decide (R181). -/
theorem startRecords_of_count (hn : n.toNat ≤ 10) : startRecords buf n = msdRecords buf 0 n.toNat := if_neg (Nat.not_lt.mpr hn)

/-- A SEQ_START that passes the checks has records to latch (R181). -/
theorem startRecords_of_accepted (h : startAccepted buf n) : ∃ rs, startRecords buf n = .ok rs := by
  obtain ⟨hn, hrec⟩ := h
  rw [startRecords_of_count hn]
  exact msdRecords_ok_of_accepted buf n.toNat 0 (by simpa only [Nat.zero_add] using hrec)

/-- Records that are given by their index are accepted as the list of them (R181). -/
theorem startRecords_of_records (r : Nat → MotorSetting) (hn : n.toNat ≤ 10)
    (hrec : ∀ k, k < n.toNat → msdDecode buf k = some (r k) ∧ msdValid (r k) = true) :
    startRecords buf n = .ok ((List.range n.toNat).map r) := by
  rw [startRecords_of_count hn, msdRecords_eq_ok]
  refine ⟨by simp, fun i hi => ⟨r i, ?_, ?_⟩⟩
  · rw [List.getElem?_map, List.getElem?_range hi, Option.map_some]
  · rw [Nat.zero_add]; exact hrec i hi

/-- A SEQ_START that fails a check is refused (R180, R181). -/
theorem exec_seqStart_of_error {r : RefReason} (h : startRecords s.dec.buf n = .error r) : exec (.seqStart n) s = .next (s.refuse r) := by
  simp only [exec, execSeqStart, h]

/-- A SEQ_START that passes the checks starts the engine and drains the motor bus (R182). -/
theorem exec_seqStart_of_ok {rs : List MotorSetting} (h : startRecords s.dec.buf n = .ok rs) :
    exec (.seqStart n) s =
      .next (((s.clearDone.setSeq (s.seq.start n rs)).emit (drainEvents Config.params (Config.mbRxBytes s.draws))).drew true) := by
  simp only [exec, execSeqStart, h]

end Start

/-- The latch after records that are given by their index (R182). -/
theorem getElem_latchRecords (old : Vector MotorSetting 10) (r : Nat → MotorSetting) (n : Nat) (i : Fin 10) :
    (latchRecords old ((List.range n).map r))[i] = if i.val < n then r i.val else old[i] := by
  have hget : (latchRecords old ((List.range n).map r))[i] = (((List.range n).map r)[i.val]?).getD old[i] := Vector.getElem_ofFn _
  rw [hget, List.getElem?_map]
  split
  case isTrue hi => rw [List.getElem?_range hi]; rfl
  case isFalse hi => rw [List.getElem?_eq_none (by simpa using hi)]; rfl

/-- A bit of valid records' union is set exactly when a record has that motor (R182, R183). -/
theorem getLsbD_recordMask_of_valid {r : Nat → MotorSetting} {n j : Nat} (hvalid : ∀ k, k < n → msdValid (r k) = true) (hj : j < 16) :
    (recordMask ((List.range n).map r)).getLsbD j = true ↔ ∃ k, k < n ∧ (r k).number.toNat = j + 1 := by
  simp only [getLsbD_recordMask, List.any_map, List.any_eq_true, List.mem_range, Function.comp_apply, getLsbD_motorBit, decide_eq_true_eq]
  refine exists_congr fun k => and_congr_right fun hk => ?_
  obtain ⟨⟨hpos, -⟩, -⟩ := (msdValid_iff _).mp (hvalid k hk)
  omega

/-- `all_complete` is 0 while no motor is completed (R203). -/
theorem allComplete_of_none_completed {s : State} (h : s.seq.completed = 0#16) : s.allComplete = false := by
  refine Bool.eq_false_iff.mpr fun hall => ?_
  obtain ⟨hactive, hcovered⟩ := (allComplete_iff s).mp hall
  rw [h, BitVec.and_zero] at hcovered
  exact hactive hcovered.symm

/-! ## SEQ_TICK (R187) -/

section Tick

variable {p : Params} {busy : Lines} {rx : List Byte} {e t : Engine} {evs : List Event}

/-- SEQ_TICK writes the engine that the tick answers, appends its events, clears `dec_done`, and writes nothing else (R187). -/
theorem exec_seqTick_of_ok {s : State} {d : Bool} (hd : s.seq.drawsInput = d)
    (h : s.seq.tick Config.params (Config.busyLevels s.draws) (Config.mbRxBytes s.draws) = .ok (e, evs)) :
    exec .seqTick s = .next { s with
      dec := { s.dec with frameDone := false }, seq := e, hist := s.hist ++ evs, draws := if d then s.draws + 1 else s.draws } := by
  simp only [exec, execSeqTick, h, hd]
  rfl

/-- A SEQ_TICK with no events leaves the history as it is. -/
theorem exec_seqTick_of_ok_nil {s : State} {d : Bool} (hd : s.seq.drawsInput = d)
    (h : s.seq.tick Config.params (Config.busyLevels s.draws) (Config.mbRxBytes s.draws) = .ok (e, [])) :
    exec .seqTick s = .next { s with
      dec := { s.dec with frameDone := false }, seq := e, draws := if d then s.draws + 1 else s.draws } := by
  rw [exec_seqTick_of_ok hd h, List.append_nil]

/-- A SEQ_TICK that answers a next state is a tick of its engine. -/
theorem tick_of_exec_seqTick {s u : State} (h : exec .seqTick s = .next u) :
    ∃ busy rx evs, s.seq.tick Config.params busy rx = .ok (u.seq, evs) := by
  simp only [exec, execSeqTick] at h
  split at h
  case h_1 e evs he =>
    cases h
    exact ⟨_, _, evs, he⟩
  case h_2 => cases h

/-- Neither a tick out of CheckingRx and WaitingStatus nor one of a stopped engine draws from the environment (R184, R194). -/
theorem Engine.drawsInput_eq_false (h : e.running = false ∨ e.state = .sending) : e.drawsInput = false := by
  rcases h with h | h <;> simp [Engine.drawsInput, h]

/-- A running engine's tick in CheckingRx or WaitingStatus draws from the environment (R184, R194). -/
theorem Engine.drawsInput_eq_true (hrun : e.running = true) (hs : e.state = .checkingRx ∨ e.state = .waitingStatus) :
    e.drawsInput = true := by
  rcases hs with hs | hs <;> simp [Engine.drawsInput, hrun, hs]

/-- A drain takes at most `RX_DRAIN_MAX` bytes (R184). -/
theorem drainEvents_bounded (p : Params) (rx : List Byte) :
    ∃ bs : List Byte, bs.length ≤ p.rxDrainMax ∧ drainEvents p rx = bs.map Event.mbrxDrop :=
  ⟨_, List.length_take_le _ _, rfl⟩

/-- The events of one tick: none, a bounded drain, or one frame between the edges of its key line (R205). -/
theorem Engine.tick_events (h : e.tick p busy rx = .ok (t, evs)) :
    evs = [] ∨ (∃ bs : List Byte, bs.length ≤ p.rxDrainMax ∧ evs = bs.map Event.mbrxDrop) ∨
      ∃ (m : Nat) (f : List Byte), f.length = 14 ∧ evs = [Event.key m true] ++ f.map Event.mbus ++ [Event.key m false] := by
  rcases Engine.tick_cases p busy rx e t evs h with ⟨-, hevs, -⟩ | ⟨-, -, -, hevs⟩ | ⟨-, -, -, hevs, -⟩ | ⟨-, -, -, r, i, -, -, -, hevs⟩ |
    ⟨-, -, -, hevs⟩
  · exact Or.inl hevs
  · rw [hevs]; exact Or.inr (Or.inl (drainEvents_bounded p rx))
  · exact Or.inl hevs
  · exact Or.inr (Or.inr ⟨i.val + 1, mbusFrame p.mbCfgCmd r, length_mbusFrame _ _, hevs⟩)
  · exact Or.inl hevs

/-- The Sending exit by the count of motors still to send (R191, R193). -/
theorem Engine.leaveSending_eq (e : Engine) :
    e.leaveSending = { e with
      state := if e.motorCount ≤ e.sendIdx then .waitingStatus else e.state,
      tickCounter := if e.motorCount ≤ e.sendIdx then 0#32 else e.tickCounter } := by
  unfold Engine.leaveSending
  split <;> rfl

/-- Writing a key line through its motor's index or by a checked number is the same (R42). -/
theorem Lines.set_eq_setIfInBounds (key : Lines) (i : Fin 10) (v : Bool) : key.set i.val v = key.setIfInBounds i.val v :=
  Vector.ext fun j hj => by rw [Vector.getElem_set, Vector.getElem_setIfInBounds]

/-- In Sending with a record left, the next record is valid and its motor's frame is sent (R191, R192). -/
theorem Engine.tick_sendOne (hlatch : e.latchOk) (hrun : e.running = true) (hs : e.state = .sending) (h10 : e.sendIdx.toNat < 10)
    (hlt : e.sendIdx.toNat < e.motorCount.toNat) :
    ∃ i : Fin 10, i.val + 1 = e.settings[e.sendIdx.toNat].number.toNat ∧
      e.tick p busy rx = .ok ({ e with
        key := e.key.set i false
        pending := e.pending ||| motorBit (i.val + 1)
        sendIdx := e.sendIdx + 1#4
        state := if e.sendIdx.toNat + 1 = e.motorCount.toNat then .waitingStatus else .sending
        tickCounter := if e.sendIdx.toNat + 1 = e.motorCount.toNat then 0#32 else e.tickCounter },
        sendEvents p i e.settings[e.sendIdx.toNat]) := by
  obtain ⟨-, -, hvalid, -⟩ := hlatch
  obtain ⟨i, hi, hnumber⟩ := motorIndex_of_valid (hvalid ⟨_, h10⟩ hlt)
  have hlast : e.motorCount ≤ e.sendIdx + 1#4 ↔ e.sendIdx.toNat + 1 = e.motorCount.toNat := by
    rw [BitVec.le_def, BitVec.toNat_add, BitVec.toNat_ofNat]; omega
  refine ⟨i, hnumber, ?_⟩
  rw [Engine.tick_sending p busy rx hrun hs, Engine.tickSending_some p hlt (Vector.getElem?_eq_getElem h10) hi, Engine.leaveSending_eq]
  simp only [Engine.sendOne, hlast, hs]

end Tick

/-! ## A WaitingStatus tick (R194 to R197) -/

section Waiting

variable {p : Params} {busy : Lines} {e : Engine}

/-- The engine of a WaitingStatus tick between its samples and its exits (R194). -/
def Engine.sampled (p : Params) (busy : Lines) (e : Engine) : Engine := Engine.sampleAll p busy { e with tickCounter := e.tickCounter + 1#32 }

theorem Engine.tickWaiting_eq (p : Params) (busy : Lines) (e : Engine) : e.tickWaiting p busy = (e.sampled p busy).waitingExit p := rfl

/-- Samples leave the state, `running` and the latch, and the tick is counted. -/
theorem Engine.sampled_other (p : Params) (busy : Lines) (e : Engine) :
    (e.sampled p busy).state = e.state ∧ (e.sampled p busy).running = e.running ∧ (e.sampled p busy).active = e.active ∧
    (e.sampled p busy).motorCount = e.motorCount ∧ (e.sampled p busy).sendIdx = e.sendIdx ∧
    (e.sampled p busy).tickCounter = e.tickCounter + 1#32 ∧ (e.sampled p busy).settings = e.settings ∧ (e.sampled p busy).key = e.key :=
  Engine.sampleAll_other p busy _

theorem Engine.sampled_deb (p : Params) (busy : Lines) (e : Engine) (i : Fin 10) : (e.sampled p busy).deb[i] = e.sampledDeb busy i :=
  Engine.sampleAll_deb p busy _ i

theorem Engine.sampled_pending (p : Params) (busy : Lines) (e : Engine) (i : Fin 10) :
    (e.sampled p busy).pending.getLsbD i.val = (e.pending.getLsbD i.val && !e.promotes p busy i) :=
  Engine.sampleAll_pending p busy _ i

theorem Engine.sampled_completed (p : Params) (busy : Lines) (e : Engine) (i : Fin 10) :
    (e.sampled p busy).completed.getLsbD i.val = (e.completed.getLsbD i.val || e.promotes p busy i) :=
  Engine.sampleAll_completed p busy _ i

/-- Which motors a sample promotes (R194). -/
theorem Engine.promotes_iff {i : Fin 10} :
    e.promotes p busy i = true ↔ e.pending.getLsbD i.val = true ∧ busy[i] = false ∧ p.debounceTicks ≤ (e.deb[i] + 1#16).toNat := by
  simp only [Engine.promotes, Bool.and_eq_true, Bool.not_eq_true', decide_eq_true_eq, and_assoc]

/-- No motor is pending after the samples if every pending one is promoted (R196). -/
theorem Engine.sampled_pending_eq_zero (hhigh : e.pending &&& 0xFC00#16 = 0#16)
    (hall : ∀ i : Fin 10, e.pending.getLsbD i.val = true → e.promotes p busy i = true) : (e.sampled p busy).pending = 0#16 := by
  refine BitVec.eq_of_getLsbD_eq fun j _ => ?_
  rw [BitVec.getLsbD_zero]
  by_cases hj : j < 10
  · rw [Engine.sampled_pending p busy e ⟨j, hj⟩]
    cases hbit : e.pending.getLsbD j
    case false => rfl
    case true => rw [hall ⟨j, hj⟩ hbit]; rfl
  · have hkeep : (e.sampled p busy).pending.getLsbD j = e.pending.getLsbD j := (Engine.sampleAll_high p busy _ j (Nat.le_of_not_lt hj)).1
    rw [hkeep, (Mask.high_eq_zero _).mp hhigh j (Nat.le_of_not_lt hj)]

/-- A pending motor that is not promoted is pending after the samples (R194). -/
theorem Engine.sampled_pending_ne_zero (hleft : ∃ i : Fin 10, e.pending.getLsbD i.val = true ∧ ¬ e.promotes p busy i = true) :
    (e.sampled p busy).pending ≠ 0#16 := by
  obtain ⟨i, hi, hnot⟩ := hleft
  intro hz
  have hbit := Engine.sampled_pending p busy e i
  rw [hz, hi, Bool.eq_false_iff.mpr hnot, BitVec.getLsbD_zero] at hbit
  cases hbit

/-- The exits write only the state, `running` and the two masks (R196, R197). -/
theorem Engine.waitingExit_other (p : Params) (e : Engine) :
    (e.waitingExit p).active = e.active ∧ (e.waitingExit p).motorCount = e.motorCount ∧ (e.waitingExit p).sendIdx = e.sendIdx ∧
    (e.waitingExit p).settings = e.settings ∧ (e.waitingExit p).key = e.key ∧ (e.waitingExit p).tickCounter = e.tickCounter ∧
    (e.waitingExit p).deb = e.deb := by
  rcases Engine.waitingExit_cases p e with ⟨-, h⟩ | ⟨-, -, h⟩ | ⟨-, -, h⟩ <;> rw [h] <;> exact ⟨rfl, rfl, rfl, rfl, rfl, rfl, rfl⟩

/-- What every WaitingStatus tick does, whichever exit it takes: it counts the tick, samples the lines, and leaves the rest but the state, `running`
and the two masks (R194). -/
theorem Engine.tickWaiting_other (p : Params) (busy : Lines) (e : Engine) :
    (e.tickWaiting p busy).active = e.active ∧ (e.tickWaiting p busy).motorCount = e.motorCount ∧ (e.tickWaiting p busy).sendIdx = e.sendIdx ∧
    (e.tickWaiting p busy).settings = e.settings ∧ (e.tickWaiting p busy).key = e.key ∧
    (e.tickWaiting p busy).tickCounter = e.tickCounter + 1#32 ∧ ∀ i : Fin 10, (e.tickWaiting p busy).deb[i] = e.sampledDeb busy i := by
  obtain ⟨-, -, hact, hmotors, hidx, hcount, hset, hkey⟩ := Engine.sampled_other p busy e
  obtain ⟨xact, xmotors, xidx, xset, xkey, xcount, xdeb⟩ := Engine.waitingExit_other p (e.sampled p busy)
  rw [Engine.tickWaiting_eq]
  exact ⟨xact.trans hact, xmotors.trans hmotors, xidx.trans hidx, xset.trans hset, xkey.trans hkey, xcount.trans hcount,
    fun i => by rw [xdeb]; exact Engine.sampled_deb p busy e i⟩

/-- A tick that promotes every pending motor ends in Complete (R196). -/
theorem Engine.tickWaiting_of_empty (h : (e.sampled p busy).pending = 0#16) : e.tickWaiting p busy = (e.sampled p busy).enterComplete := if_pos h

/-- A tick past the safety timeout that leaves a motor pending ends in a forced Complete (R197). -/
theorem Engine.tickWaiting_of_timeout (h : (e.sampled p busy).pending ≠ 0#16) (ht : p.safetyTimeoutTicks < (e.tickCounter + 1#32).toNat) :
    e.tickWaiting p busy = (e.sampled p busy).forceComplete := by
  obtain ⟨-, -, -, -, -, hcount, -, -⟩ := Engine.sampled_other p busy e
  rw [← hcount] at ht
  exact (if_neg h).trans (if_pos ht)

/-- A tick within the safety timeout that leaves a motor pending goes on waiting (R194). -/
theorem Engine.tickWaiting_of_stay (h : (e.sampled p busy).pending ≠ 0#16) (ht : (e.tickCounter + 1#32).toNat ≤ p.safetyTimeoutTicks) :
    e.tickWaiting p busy = e.sampled p busy := by
  obtain ⟨-, -, -, -, -, hcount, -, -⟩ := Engine.sampled_other p busy e
  rw [← hcount] at ht
  exact (if_neg h).trans (if_neg (Nat.not_lt.mpr ht))

end Waiting

/-! ## The debounce (R195) -/

section Debounce

variable {p : Params} {busy : Lines} {i : Fin 10} {k : Nat} {e : Engine}

/-- Where a pending motor's debounce stands after `k` deasserted samples in a row, the timeout being far enough away (R195). -/
structure Engine.Debouncing (p : Params) (i : Fin 10) (k : Nat) (e : Engine) : Prop where
  inv : e.Inv p
  waiting : e.state = .waitingStatus
  pending : e.pending.getLsbD i.val = true
  count : e.deb[i].toNat = k
  time : e.tickCounter.toNat + p.debounceTicks ≤ p.safetyTimeoutTicks + k

/-- The tick counter does not wrap in WaitingStatus (R38). -/
theorem Engine.toNat_tickCounter_succ (hinv : e.Inv p) (hs : e.state = .waitingStatus) :
    (e.tickCounter + 1#32).toNat = e.tickCounter.toNat + 1 := by
  obtain ⟨-, -, -, ⟨-, -, -, hwaiting⟩, -⟩ := hinv
  obtain ⟨-, -, -, htime⟩ := hwaiting hs
  have := p.safetyTimeout.isLt
  rw [Params.safetyTimeoutTicks] at htime
  rw [BitVec.toNat_add, BitVec.toNat_ofNat]; omega

/-- A debouncing motor is not completed: no motor is both pending and completed (R45). -/
theorem Engine.Debouncing.not_completed (h : e.Debouncing p i k) : e.completed.getLsbD i.val = false := by
  obtain ⟨hmasks, -⟩ := h.inv
  obtain ⟨-, -, -, hdisjoint⟩ := (Engine.masksOk_iff e).mp hmasks
  by_contra hc
  have hpend := hdisjoint i.val (by simpa using hc)
  rw [h.pending] at hpend
  cases hpend

/-- The counter after one more deasserted sample; it does not wrap (R39). -/
theorem Engine.Debouncing.toNat_deb_succ (h : e.Debouncing p i k) (hk : k < p.debounceTicks) : (e.deb[i] + 1#16).toNat = k + 1 := by
  have := p.debounceLessOne.isLt
  rw [Params.debounceTicks] at hk
  rw [BitVec.toNat_add, h.count, BitVec.toNat_ofNat]; omega

/-- A deasserted sample that does not reach the threshold counts up and leaves the motor pending (R194). -/
theorem Engine.Debouncing.tick (h : e.Debouncing p i k) (hbusy : busy[i] = false) (hk : k + 1 < p.debounceTicks) :
    (e.tickWaiting p busy).Debouncing p i (k + 1) := by
  have hcount : (e.deb[i] + 1#16).toNat = k + 1 := h.toNat_deb_succ (by omega)
  have htime := Engine.toNat_tickCounter_succ h.inv h.waiting
  have hlimit := h.time
  have hnot : ¬ e.promotes p busy i = true := fun hp => by
    obtain ⟨-, -, hreach⟩ := Engine.promotes_iff.mp hp
    omega
  have hstay := Engine.tickWaiting_of_stay (Engine.sampled_pending_ne_zero ⟨i, h.pending, hnot⟩) (by omega)
  obtain ⟨-, -, -, -, -, htick, hdeb⟩ := Engine.tickWaiting_other p busy e
  obtain ⟨hstate, -⟩ := Engine.sampled_other p busy e
  refine ⟨Engine.tickWaiting_inv h.inv h.waiting busy, ?_, ?_, ?_, ?_⟩
  · rw [hstay, hstate, h.waiting]
  · rw [hstay, Engine.sampled_pending, h.pending, Bool.eq_false_iff.mpr hnot]; rfl
  · rw [hdeb, Engine.sampledDeb, if_pos h.pending, hbusy]; exact hcount
  · rw [htick]; omega

/-- The deasserted sample that reaches the threshold promotes the motor, whichever exit the tick takes (R194). -/
theorem Engine.Debouncing.promoted (h : e.Debouncing p i k) (hbusy : busy[i] = false) (hk : k + 1 = p.debounceTicks) :
    (e.tickWaiting p busy).completed.getLsbD i.val = true := by
  refine Engine.waitingExit_completed_gains p (e.sampled p busy) i.val ?_
  have hp : e.promotes p busy i = true := Engine.promotes_iff.mpr ⟨h.pending, hbusy, by rw [h.toNat_deb_succ (by omega)]; omega⟩
  rw [Engine.sampled_completed, hp, Bool.or_true]

/-- One more tick of a waiting engine is a WaitingStatus tick (R194). -/
theorem Engine.Debouncing.ticksFrom_succ {busy : Nat → Lines} (h : (e.ticksFrom p busy k).Debouncing p i k) :
    e.ticksFrom p busy (k + 1) = (e.ticksFrom p busy k).tickWaiting p (busy k) := by
  obtain ⟨-, -, -, ⟨-, -, -, hwaiting⟩, -⟩ := h.inv
  simp only [Engine.ticksFrom, Engine.tick_waitingStatus p (busy k) [] (hwaiting h.waiting).1 h.waiting]

/-- Before the threshold the motor's debounce goes on, one count for each tick (R195). -/
theorem Engine.Debouncing.ticksFrom {busy : Nat → Lines} (h : e.Debouncing p i 0) (hbusy : ∀ j, j < p.debounceTicks → (busy j)[i] = false)
    (hk : k < p.debounceTicks) : (e.ticksFrom p busy k).Debouncing p i k := by
  induction k with
  | zero => exact h
  | succ k ih =>
    have hprev := ih (by omega)
    rw [hprev.ticksFrom_succ]
    exact hprev.tick (hbusy k (by omega)) hk

end Debounce

/-! ## The ticks a started command takes (R204) -/

section Ranking

variable {p : Params} {busy : Lines} {rx : List Byte} {e t : Engine} {evs : List Event}

/-- How many ticks an engine can still take before Complete: one for CheckingRx, one for each record (at least one), and those the safety timeout
allows (R204). -/
def Engine.ticksLeft (p : Params) (e : Engine) : Nat :=
  match e.state with
  | .idle | .complete => 0
  | .checkingRx => max e.motorCount.toNat 1 + 2 + p.safetyTimeoutTicks
  | .sending => max (e.motorCount.toNat - e.sendIdx.toNat) 1 + 1 + p.safetyTimeoutTicks
  | .waitingStatus => p.safetyTimeoutTicks + 1 - e.tickCounter.toNat

theorem Engine.ticksLeft_complete (hs : e.state = .complete) : e.ticksLeft p = 0 := by simp only [Engine.ticksLeft, hs]

theorem Engine.ticksLeft_checkingRx (hs : e.state = .checkingRx) : e.ticksLeft p = max e.motorCount.toNat 1 + 2 + p.safetyTimeoutTicks := by
  simp only [Engine.ticksLeft, hs]

theorem Engine.ticksLeft_sending (hs : e.state = .sending) :
    e.ticksLeft p = max (e.motorCount.toNat - e.sendIdx.toNat) 1 + 1 + p.safetyTimeoutTicks := by
  simp only [Engine.ticksLeft, hs]

theorem Engine.ticksLeft_waitingStatus (hs : e.state = .waitingStatus) : e.ticksLeft p = p.safetyTimeoutTicks + 1 - e.tickCounter.toNat := by
  simp only [Engine.ticksLeft, hs]

/-- A tick changes no active motor (R33). -/
theorem Engine.tick_active (h : e.tick p busy rx = .ok (t, evs)) : t.active = e.active := by
  rcases Engine.tick_cases p busy rx e t evs h with ⟨rfl, -⟩ | ⟨-, -, rfl, -⟩ | ⟨-, -, -, -, rfl⟩ | ⟨-, -, -, r, i, -, -, rfl, -⟩ |
    ⟨-, -, rfl, -⟩
  case inr.inr.inr.inl => rw [Engine.leaveSending_eq]; rfl
  case inr.inr.inr.inr =>
    obtain ⟨hactive, -⟩ := Engine.tickWaiting_other p busy e
    exact hactive
  all_goals rfl

/-- A Sending tick with a record left brings the engine nearer to Complete (R191). -/
theorem Engine.ticksLeft_sendOne (hs : e.state = .sending) (hlt : e.sendIdx < e.motorCount) (i : Fin 10) :
    (Engine.leaveSending { e.sendOne i with sendIdx := e.sendIdx + 1#4 }).state ≠ .idle ∧
    (Engine.leaveSending { e.sendOne i with sendIdx := e.sendIdx + 1#4 }).ticksLeft p < e.ticksLeft p := by
  have hcount := e.motorCount.isLt
  have hidx : (e.sendIdx + 1#4).toNat = e.sendIdx.toNat + 1 := by
    rw [BitVec.lt_def] at hlt
    rw [BitVec.toNat_add, BitVec.toNat_ofNat]; omega
  rw [Engine.ticksLeft_sending hs, Engine.leaveSending_eq]
  by_cases hlast : e.motorCount ≤ e.sendIdx + 1#4
  · simp only [Engine.sendOne_motorCount, hlast, if_true]
    refine ⟨nofun, ?_⟩
    rw [Engine.ticksLeft_waitingStatus rfl]
    simp only [BitVec.toNat_ofNat]
    omega
  · simp only [Engine.sendOne_motorCount, Engine.sendOne_state, hlast, if_false, hs]
    refine ⟨nofun, ?_⟩
    rw [Engine.ticksLeft_sending rfl]
    rw [BitVec.le_def] at hlast
    simp only [hidx]
    omega

/-- A WaitingStatus tick leaves the engine in Complete or nearer to the timeout (R196, R197). -/
theorem Engine.ticksLeft_tickWaiting (hinv : e.Inv p) (hs : e.state = .waitingStatus) (busy : Lines) :
    (e.tickWaiting p busy).state ≠ .idle ∧ (e.tickWaiting p busy).ticksLeft p < e.ticksLeft p := by
  obtain ⟨-, -, -, ⟨-, -, -, hwaiting⟩, -⟩ := id hinv
  obtain ⟨-, -, -, htime⟩ := hwaiting hs
  obtain ⟨hstate, -, -, -, -, htick, -, -⟩ := Engine.sampled_other p busy e
  have hcount := Engine.toNat_tickCounter_succ hinv hs
  have hleft := Engine.ticksLeft_waitingStatus (p := p) hs
  rw [Engine.tickWaiting_eq]
  rcases Engine.waitingExit_cases p (e.sampled p busy) with ⟨-, h⟩ | ⟨-, -, h⟩ | ⟨-, hstay, h⟩ <;> rw [h]
  · exact ⟨nofun, by rw [Engine.ticksLeft_complete rfl]; omega⟩
  · exact ⟨nofun, by rw [Engine.ticksLeft_complete rfl]; omega⟩
  · rw [htick] at hstay
    refine ⟨by rw [hstate, hs]; nofun, ?_⟩
    rw [Engine.ticksLeft_waitingStatus (hstate.trans hs), htick]
    omega

/-- Under the invariant only Idle and Complete do not run (R32). -/
theorem Engine.running_iff (hinv : e.Inv p) : e.running = true ↔ e.state ≠ .idle ∧ e.state ≠ .complete := by
  obtain ⟨-, -, -, ⟨hstopped, hchecking, hsending, hwaiting⟩, -⟩ := hinv
  cases hs : e.state
  case idle => simp [(hstopped (Or.inl hs)).1]
  case checkingRx => simp [(hchecking hs).1]
  case sending => simp [(hsending hs).1]
  case waitingStatus => simp [(hwaiting hs).1]
  case complete => simp [(hstopped (Or.inr hs)).1]

/-- Every tick of a running engine brings it nearer to Complete (R204). -/
theorem Engine.tick_ticksLeft (hinv : e.Inv p) (hrun : e.running = true) (h : e.tick p busy rx = .ok (t, evs)) :
    t.state ≠ .idle ∧ t.ticksLeft p < e.ticksLeft p := by
  rcases Engine.tick_cases p busy rx e t evs h with ⟨-, -, hstop⟩ | ⟨-, hs, rfl, -⟩ | ⟨-, hs, -, -, rfl⟩ | ⟨-, hs, hlt, r, i, -, -, rfl, -⟩ |
    ⟨-, hs, rfl, -⟩
  · obtain ⟨hidle, hcomplete⟩ := (Engine.running_iff hinv).mp hrun
    rcases hstop with hstop | hstop | hstop
    · rw [hrun] at hstop; cases hstop
    · exact absurd hstop hidle
    · exact absurd hstop hcomplete
  · refine ⟨nofun, ?_⟩
    rw [Engine.ticksLeft_checkingRx hs, Engine.ticksLeft_sending rfl]
    dsimp only
    omega
  · refine ⟨nofun, ?_⟩
    rw [Engine.ticksLeft_sending hs, Engine.ticksLeft_waitingStatus rfl]
    simp only [BitVec.toNat_ofNat]
    omega
  · exact Engine.ticksLeft_sendOne hs hlt i
  · exact Engine.ticksLeft_tickWaiting hinv hs busy

/-- In Complete nothing runs, every active motor is completed and none is pending (R196). -/
theorem Engine.of_complete (hinv : e.Inv p) (hs : e.state = .complete) : e.running = false ∧ e.completed = e.active ∧ e.pending = 0#16 := by
  obtain ⟨-, -, -, ⟨hstopped, -⟩, -⟩ := hinv
  exact hstopped (Or.inr hs)

end Ranking

/-- With ticks alone an engine that has been started reaches Complete within the ticks left to it (R204). -/
theorem execAll_ticks_complete {s : State} (hinv : s.seq.Inv Config.params) (hidle : s.seq.state ≠ .idle) :
    ∃ (k : Nat) (u : State), k ≤ s.seq.ticksLeft Config.params ∧ execAll (List.replicate k .seqTick) s = .next u ∧
      u.seq.Inv Config.params ∧ u.seq.state = .complete ∧ u.seq.active = s.seq.active := by
  induction hm : s.seq.ticksLeft Config.params using Nat.strong_induction_on generalizing s with
  | h m ih =>
    by_cases hs : s.seq.state = .complete
    · exact ⟨0, s, Nat.zero_le _, rfl, hinv, hs, rfl⟩
    obtain ⟨e, evs, htick, hinv'⟩ := Engine.tick_inv hinv (Config.busyLevels s.draws) (Config.mbRxBytes s.draws)
    obtain ⟨hidle', hlt⟩ := Engine.tick_ticksLeft hinv ((Engine.running_iff hinv).mpr ⟨hidle, hs⟩) htick
    obtain ⟨t, hexec, hseq⟩ : ∃ t, exec .seqTick s = .next t ∧ t.seq = e := ⟨_, exec_seqTick_of_ok rfl htick, rfl⟩
    subst hseq
    obtain ⟨k, u, hk, hrun, huinv, hus, hactive⟩ := ih _ (hm ▸ hlt) hinv' hidle' rfl
    refine ⟨k + 1, u, by omega, ?_, huinv, hus, hactive.trans (Engine.tick_active htick)⟩
    simp only [List.replicate_succ, execAll, hexec, hrun]

/-! ## The steps that can write the engine (R46) -/

section EngineSteps

variable {i : Instr} {s t : State} {rest : List Arrival} {w : OpWord}

/-- Only SEQ_START writes `active` (R33). -/
theorem exec_active (hi : ∀ n, i ≠ .seqStart n) (h : exec i s = .next t) : t.seq.active = s.seq.active := by
  rcases exec_seq_cases h with he | ⟨n, rs, hstart, -⟩ | ⟨evs, -, htick⟩ | ⟨-, he⟩
  · rw [he]
  · exact absurd hstart (hi n)
  · exact Engine.tick_active htick
  · rw [he]; rfl

/-- An operation word leaves the controller's program (R46). -/
theorem exec_word_ctl (hi : encode i = .opw w) (h : exec i s = .next t) : t.ctl = s.ctl := by
  rcases exec_cases h with ⟨r, rfl⟩ | ⟨c, b, hctl, -⟩ | ⟨b, d, -, -, rfl⟩ | ⟨-, rfl⟩ | ⟨-, rfl⟩ | ⟨c, data, -, -, rfl⟩ | ⟨b, -, -, rfl⟩ |
    ⟨-, rfl⟩ | ⟨n, rs, -, -, rfl⟩ | ⟨e, evs, -, -, rfl⟩ | ⟨-, rfl⟩
  case inr.inl => exact absurd hi (hctl w)
  all_goals rfl

/-- Every operation word decodes, or is rejected for a nonzero field (R100). -/
theorem decode_word_cases (w : OpWord) : (∃ i, decode (.opw w) = .ok i ∧ encode i = .opw w) ∨ decode (.opw w) = .error .nonzeroField := by
  cases hd : decode (.opw w) with
  | ok i => exact Or.inl ⟨i, rfl, (encode_of_decode_opw hd).2⟩
  | error r =>
    by_cases hres : 9 ≤ (opcOf w).toNat
    · cases (decode_reservedOpcode hres).symm.trans hd
    by_cases hf : fieldsAllowed (opcOf w).toNat (auxOf w) (byteOf w)
    · cases (decode_operation hres hf).symm.trans hd
    · exact Or.inr (hd.symm.trans (decode_nonzeroField hres hf))

/-- A run that goes on without a reset carries no refusal mark (R12, R14). -/
theorem unrefused_of_step (hreset : ∀ rest, s.port ≠ .resetInput :: rest) (h : step s = .next t) : s.refused = none := by
  by_contra hmarked
  obtain ⟨r, hr⟩ := Option.ne_none_iff_exists'.mp hmarked
  cases (step_stopped (fetch_marked hr hreset)).symm.trans h

/-- What a word on the port can do: run the operation it is the code of, or be refused (R5, R98). -/
theorem step_word_cases (hp : s.port = .word w :: rest) (h : step s = .next t) :
    (∃ i, encode i = .opw w ∧ exec i (s.setPort rest) = .next t) ∨ (∃ r, t = (s.setPort rest).refuse r) := by
  have hr := unrefused_of_step (by rw [hp]; nofun) h
  rcases decode_word_cases w with ⟨i, hd, hi⟩ | hd
  · rw [step_run_ok (fetch_word hr hp) hd] at h
    exact Or.inl ⟨i, hi, h⟩
  · rw [step_run_error (fetch_word hr hp) hd] at h
    cases h
    exact Or.inr ⟨_, rfl⟩

/-- A word with another opcode field is not SEQ_START's (R97). -/
theorem ne_seqStart_of_opcode (hi : encode i = .opw w) (hw : opcOf w ≠ 0x6#4) : ∀ n, i ≠ .seqStart n := by
  rintro n rfl
  cases hi
  exact hw (opcOf_opWord _ _ _)

/-- A step that takes no reset, no SEQ_START and no SEQ_STOP leaves the engine or ticks it. -/
theorem step_seq_cases (hreset : ∀ rest, s.port ≠ .resetInput :: rest)
    (hword : ∀ v w, fetch s = .run (.opw w) v → opcOf w ≠ 0x6#4 ∧ opcOf w ≠ 0x8#4) (h : step s = .next t) :
    t.seq = s.seq ∨ ∃ busy rx evs, s.seq.tick Config.params busy rx = .ok (t.seq, evs) := by
  unfold step at h
  split at h
  case h_1 u hf =>
    cases h
    rcases fetch_noOp_cases hf with ⟨p, q, rfl⟩ | ⟨rest, hp, -⟩
    · exact Or.inl rfl
    · exact absurd hp (hreset rest)
  case h_2 => cases h
  case h_3 c v hf =>
    obtain ⟨p, q, rfl⟩ := fetch_run_frame hf
    split at h
    case h_1 i hd =>
      obtain ⟨-, hcode⟩ := encodeDecodeAgree c i hd
      rcases exec_seq_cases h with he | ⟨n, rs, rfl, -⟩ | ⟨evs, -, htick⟩ | ⟨rfl, -⟩
      · exact Or.inl he
      · cases hcode
        exact absurd (opcOf_opWord _ _ _) (hword _ _ hf).1
      · exact Or.inr ⟨_, _, evs, htick⟩
      · cases hcode
        exact absurd (opcOf_opWord _ _ _) (hword _ _ hf).2
    case h_2 r hd =>
      cases r <;> cases h <;> exact Or.inl rfl

/-- A SEQ_TICK word on the port ticks the engine (R187). -/
theorem step_tickWord (hp : s.port = .word 0x7000#16 :: rest) (h : step s = .next t) :
    ∃ busy rx evs, s.seq.tick Config.params busy rx = .ok (t.seq, evs) := by
  have hdecode : decode (.opw 0x7000#16) = .ok .seqTick := by decide
  have hr := unrefused_of_step (by rw [hp]; nofun) h
  rw [step_run_ok (fetch_word hr hp) hdecode] at h
  exact tick_of_exec_seqTick (s := s.setPort rest) h

end EngineSteps

/-! ## Fair ticks among other arrivals (R298) -/

section Fair

variable {σ : Nat → Arrival} {t : State}

theorem ticksIn_succ (σ : Nat → Arrival) (k : Nat) :
    ticksIn σ (k + 1) = ticksIn σ k + if σ k = .word 0x7000#16 then 1 else 0 := by
  simp only [ticksIn, List.range_succ, List.countP_append, List.countP_singleton, decide_eq_true_eq]

theorem ticksIn_mono (σ : Nat → Arrival) : Monotone (ticksIn σ) :=
  monotone_nat_of_le_succ fun k => by rw [ticksIn_succ]; exact Nat.le_add_right _ _

/-- A fair tick source has given any number of ticks after some while (R298). -/
theorem exists_ticksIn_ge (hfair : TickFair σ) (b : Nat) : ∃ k, b ≤ ticksIn σ k := by
  induction b with
  | zero => exact ⟨0, Nat.zero_le _⟩
  | succ b ih =>
    obtain ⟨k, hk⟩ := ih
    obtain ⟨m, hkm, hm⟩ := hfair k
    refine ⟨m + 1, ?_⟩
    rw [ticksIn_succ, if_pos hm]
    exact Nat.succ_le_succ (hk.trans (ticksIn_mono σ hkm))

/-- One more arrival of a run. -/
theorem runArrivals_succ {k : Nat} {u : State} (h : runArrivals σ k t = .next u) : runArrivals σ (k + 1) t = step (u.setPort [σ k]) := by
  simp only [runArrivals, h]

/-- How far a run has come after `k` arrivals: each tick so far has brought it nearer to Complete, so that the ticks so far and those left stay within
those left at the start (R204). -/
structure RunProgress (σ : Nat → Arrival) (t : State) (k : Nat) (u : State) : Prop where
  run : runArrivals σ k t = .next u
  inv : u.Inv
  started : u.seq.state ≠ .idle
  active : u.seq.active = t.seq.active
  bound : ticksIn σ k + u.seq.ticksLeft Config.params ≤ t.seq.ticksLeft Config.params

/-- An arrival before Complete that is no reset, no SEQ_START and no SEQ_STOP keeps the progress: a SEQ_TICK word costs one of the ticks left, and
nothing adds to them. -/
theorem RunProgress.succ {k : Nat} {u v : State} (h : RunProgress σ t k u) (hs : u.seq.state ≠ .complete) (hreset : σ k ≠ .resetInput)
    (hword : ∀ v w, fetch (u.setPort [σ k]) = .run (.opw w) v → opcOf w ≠ 0x6#4 ∧ opcOf w ≠ 0x8#4)
    (hv : runArrivals σ (k + 1) t = .next v) : RunProgress σ t (k + 1) v := by
  have hstep : step (u.setPort [σ k]) = .next v := (runArrivals_succ h.run).symm.trans hv
  obtain ⟨-, -, hseq⟩ := h.inv
  have hrun := (Engine.running_iff hseq).mpr ⟨h.started, hs⟩
  have hbound := h.bound
  have hinv : v.Inv := stepKeepsInvariant (u.setPort [σ k]) v h.inv hstep
  have hports : ∀ rest, (u.setPort [σ k]).port ≠ .resetInput :: rest := fun rest hp => hreset (List.cons.inj hp).1
  have hcount := ticksIn_succ σ k
  have hticked : ∀ busy rx evs, u.seq.tick Config.params busy rx = .ok (v.seq, evs) → RunProgress σ t (k + 1) v := by
    intro busy rx evs htick
    obtain ⟨hidle, hlt⟩ := Engine.tick_ticksLeft hseq hrun htick
    refine ⟨hv, hinv, hidle, (Engine.tick_active htick).trans h.active, ?_⟩
    split at hcount <;> omega
  by_cases htick : σ k = .word 0x7000#16
  · obtain ⟨busy, rx, evs, he⟩ := step_tickWord (s := u.setPort [σ k]) (rest := []) (by rw [htick]; rfl) hstep
    exact hticked busy rx evs he
  · rw [if_neg htick] at hcount
    rcases step_seq_cases hports hword hstep with he | ⟨busy, rx, evs, he⟩
    · rw [State.setPort_seq] at he
      exact ⟨hv, hinv, by rw [he]; exact h.started, by rw [he]; exact h.active, by rw [he]; omega⟩
    · exact hticked busy rx evs he

/-- With fair ticks among any other arrivals a started engine reaches Complete within the ticks left to it (R204, R298): otherwise the ticks would
outgrow what is left. -/
theorem exists_complete_of_fair (hfair : TickFair σ) (hinv : t.Inv) (hidle : t.seq.state ≠ .idle) (hreset : ∀ k, σ k ≠ .resetInput)
    (hnext : ∀ k, ∃ u, runArrivals σ k t = .next u)
    (hword : ∀ k u v w, runArrivals σ k t = .next u → fetch (u.setPort [σ k]) = .run (.opw w) v → opcOf w ≠ 0x6#4 ∧ opcOf w ≠ 0x8#4) :
    ∃ k u, RunProgress σ t k u ∧ u.seq.state = .complete := by
  by_contra hnever
  have hprogress : ∀ k, ∃ u, RunProgress σ t k u := by
    intro k
    induction k with
    | zero => exact ⟨t, rfl, hinv, hidle, rfl, by simp [ticksIn]⟩
    | succ k ih =>
      obtain ⟨u, hu⟩ := ih
      obtain ⟨v, hv⟩ := hnext (k + 1)
      exact ⟨v, hu.succ (fun hs => hnever ⟨k, u, hu, hs⟩) (hreset k) (fun v w => hword k u v w hu.run) hv⟩
  obtain ⟨k, hk⟩ := exists_ticksIn_ge hfair (t.seq.ticksLeft Config.params + 1)
  obtain ⟨u, hu⟩ := hprogress k
  have := hu.bound
  omega

end Fair

/-! ## SEQ_STOP (R201) -/

/-- SEQ_STOP's events: one for each key line that was asserted. -/
theorem Engine.mem_stopEvents {e : Engine} {ev : Event} :
    ev ∈ e.stopEvents ↔ ∃ i : Fin 10, e.key[i] = true ∧ ev = Event.key (i.val + 1) false := by
  simp only [Engine.stopEvents, motorIndexes, List.mem_map, List.mem_filter, List.mem_finRange, true_and, eq_comm]

/-- No key line is deasserted twice. -/
theorem Engine.nodup_stopEvents (e : Engine) : e.stopEvents.Nodup := by
  refine ((List.nodup_finRange 10).filter _).map fun i j hij => ?_
  injection hij with hmotor
  exact Fin.ext (Nat.succ.inj hmotor)

/-! ## The wait with no active motor (R302) -/

/-- `all_complete` is 0 while no motor is active (R203). -/
theorem allComplete_of_no_motor {s : State} (h : s.seq.active = 0#16) : s.allComplete = false := by
  refine Bool.eq_false_iff.mpr fun hall => ?_
  obtain ⟨hactive, -⟩ := (allComplete_iff s).mp hall
  exact hactive h

/-- A step of a controller that waits with no motor active makes no motor active and keeps the wait, unless a reset or a SEQ_START word comes; an
emergency-stop event queues the build's report behind it (R186, R302). -/
theorem step_wait_of_no_motor {s t : State} {q : List CtlItem} (hactive : s.seq.active = 0#16) (hctl : s.ctl = .waitComplete :: q)
    (hreset : ∀ rest, s.port ≠ .resetInput :: rest) (hword : ∀ w rest, s.port = .word w :: rest → opcOf w ≠ 0x6#4) (h : step s = .next t) :
    t.seq.active = s.seq.active ∧
      (t.ctl = s.ctl ∨ ∃ rest, s.port = .stopEvent :: rest ∧ t.ctl = s.ctl ++ optionProgram (Config.params.reportAt .stopEvent)) := by
  have hr := unrefused_of_step hreset h
  rcases hp : s.port with _ | ⟨w | _ | _ | _, rest⟩
  case nil =>
    cases (step_noOp (fetch_nil hr hp)).symm.trans h
    exact ⟨rfl, Or.inl rfl⟩
  case cons.word =>
    rcases step_word_cases hp h with ⟨i, hi, hexec⟩ | ⟨r, rfl⟩
    · exact ⟨exec_active (s := s.setPort rest) (ne_seqStart_of_opcode hi (hword w rest hp)) hexec,
        Or.inl (exec_word_ctl (s := s.setPort rest) hi hexec)⟩
    · exact ⟨rfl, Or.inl rfl⟩
  case cons.controller =>
    have hturn : controllerTurn (s.setPort rest) = .noOp (s.setPort rest) := by
      rw [controllerTurn_wait (s := s.setPort rest) hctl, allComplete_of_no_motor (s := s.setPort rest) hactive]; rfl
    cases (step_noOp ((fetch_controller hr hp).trans hturn)).symm.trans h
    exact ⟨rfl, Or.inl rfl⟩
  case cons.resetInput => exact absurd hp (hreset rest)
  case cons.stopEvent =>
    cases (step_noOp (fetch_stopEvent hr hp)).symm.trans h
    exact ⟨rfl, Or.inr ⟨rest, rfl, rfl⟩⟩

end Sys2Proof.Machine

namespace Sys2Proof

open Sys2Proof.Machine

/-! ## The statements -/

/-- Settles O36: the word's fields are those of SEQ_START, and the count is the first check. -/
theorem startCountRefused : Obligations.StartCountRefused := by
  intro n s
  rw [← opWord_seqStart]
  exact ⟨decodeEncodeAgree (.seqStart n) rfl, fun hn => exec_seqStart_of_error (startRecords_of_tooMany hn)⟩

/-- Settles O37: with a legal count the records' checks decide, and the first failing one ends them. -/
theorem startFirstFailureRefused : Obligations.StartFirstFailureRefused := by
  intro n s k hn hk hbefore
  have hfirst := msdRecords_first_failure s.dec.buf n.toNat 0 k hk (by simpa only [Nat.zero_add] using hbefore)
  rw [Nat.zero_add, ← startRecords_of_count hn] at hfirst
  obtain ⟨hunwritten, hinvalid⟩ := hfirst
  exact ⟨fun h => exec_seqStart_of_error (hunwritten h), fun r h hv => exec_seqStart_of_error (hinvalid r h hv)⟩

/-- Settles O38: the accepted records are the list of `r`, and the started engine's fields are read off it. -/
theorem startInitialises : Obligations.StartInitialises := by
  intro n s r hn hrec
  refine ⟨_, exec_seqStart_of_ok (startRecords_of_records r hn hrec), rfl, rfl, rfl, rfl, rfl, rfl, rfl, ?_, rfl, ?_, ?_, rfl, ?_⟩
  · exact fun i => Vector.getElem_replicate _
  · exact getElem_latchRecords s.seq.settings r n.toNat
  · exact fun j hj => getLsbD_recordMask_of_valid (fun k hk => (hrec k hk).2) hj
  · exact allComplete_of_none_completed rfl

/-- Settles O40: a tick of an engine that does not run does nothing, and the invariant says that Complete does not run. -/
theorem tickNotRunning : Obligations.TickNotRunning := by
  intro s
  refine ⟨fun hrun => ⟨false, ?_⟩, fun hinv hs => (Engine.of_complete hinv hs).1⟩
  exact exec_seqTick_of_ok_nil (Engine.drawsInput_eq_false (Or.inl hrun)) (Engine.tick_not_running _ _ _ hrun)

/-- Settles O41: the drain of a CheckingRx tick. -/
theorem tickCheckingRx : Obligations.TickCheckingRx :=
  fun _ hrun hs => ⟨false, exec_seqTick_of_ok (Engine.drawsInput_eq_true hrun (Or.inl hs)) (Engine.tick_checkingRx _ _ _ hrun hs)⟩

/-- Settles O42: the Sending tick with nothing left to send, and the one that sends the next valid record. -/
theorem tickSending : Obligations.TickSending := by
  intro s hlatch hrun hs
  have hdraw : s.seq.drawsInput = false := Engine.drawsInput_eq_false (Or.inr hs)
  refine ⟨fun heq => ⟨false, exec_seqTick_of_ok_nil hdraw ?_⟩, fun h10 hlt => ?_⟩
  · rw [Engine.tick_sending _ _ _ hrun hs]
    exact Engine.tickSending_none _ (BitVec.le_def.mpr heq.ge)
  · obtain ⟨i, hnumber, htick⟩ := Engine.tick_sendOne hlatch hrun hs h10 hlt
    refine ⟨i.val + 1, _, mbusBody Config.params.mbCfgCmd s.seq.settings[s.seq.sendIdx.toNat], false, rfl, hnumber, by omega, by omega, rfl, ?_⟩
    rw [exec_seqTick_of_ok hdraw htick, Lines.set_eq_setIfInBounds]
    rfl

/-- Settles O43: the samples motor by motor, and then whichever exit the pending mask and the timeout choose. -/
theorem tickWaiting : Obligations.TickWaiting := by
  intro s pend promoted hrun hs hhigh hpend hpromoted
  have htick := exec_seqTick_of_ok_nil (Engine.drawsInput_eq_true hrun (Or.inr hs))
    (Engine.tick_waitingStatus Config.params (Config.busyLevels s.draws) (Config.mbRxBytes s.draws) hrun hs)
  generalize Config.busyLevels s.draws = busy at hpromoted htick ⊢
  have hpr : ∀ i, promoted i ↔ s.seq.promotes Config.params busy i = true := fun i => by rw [hpromoted, hpend, Engine.promotes_iff]
  obtain ⟨hactive, hmotors, hidx, hset, hkey, hcount, hdeb⟩ := Engine.tickWaiting_other Config.params busy s.seq
  obtain ⟨hstate, hrunning, -⟩ := Engine.sampled_other Config.params busy s.seq
  have hpending := Engine.sampled_pending Config.params busy s.seq
  have hcompleted := Engine.sampled_completed Config.params busy s.seq
  refine ⟨_, false, htick, hactive, hmotors, hidx, hset, hkey, hcount, ?_⟩
  simp only [hpend, hpr]
  refine ⟨fun i hi hbusy => ?_, fun i hi hbusy => ?_, fun i hi => ?_, fun hall => ?_, fun hleft htime => ?_, fun hleft htime => ?_⟩
  · rw [hdeb, Engine.sampledDeb, if_pos hi, if_pos hbusy]
  · rw [hdeb, Engine.sampledDeb, if_pos hi, hbusy]; rfl
  · rw [hdeb, Engine.sampledDeb, if_neg hi]
  · have hz := Engine.sampled_pending_eq_zero hhigh hall
    rw [Engine.tickWaiting_of_empty hz]
    exact ⟨rfl, rfl, hz, fun i => by rw [Engine.enterComplete_completed, hcompleted, Bool.or_eq_true]⟩
  · rw [Engine.tickWaiting_of_timeout (Engine.sampled_pending_ne_zero hleft) htime]
    refine ⟨rfl, rfl, rfl, fun i => ?_⟩
    have hpromotes : s.seq.promotes Config.params busy i = true → s.seq.pending.getLsbD i.val = true := fun h => (Engine.promotes_iff.mp h).1
    rw [Engine.forceComplete_completed, BitVec.getLsbD_or, hcompleted, hpending]
    cases hp : s.seq.promotes Config.params busy i
    case false => simp
    case true => simp [hpromotes hp]
  · rw [Engine.tickWaiting_of_stay (Engine.sampled_pending_ne_zero hleft) htime]
    exact ⟨hstate.trans hs, hrunning.trans hrun, fun i => by rw [hpending, Bool.and_eq_true, Bool.not_eq_true', Bool.not_eq_true],
      fun i => by rw [hcompleted, Bool.or_eq_true]⟩

/-- Settles O44: under the invariant the tick answers, and its events are bounded. -/
theorem tickCompletesBounded : Obligations.TickCompletesBounded := by
  intro s hinv
  obtain ⟨e, evs, htick, -⟩ := Engine.tick_inv hinv (Config.busyLevels s.draws) (Config.mbRxBytes s.draws)
  exact ⟨_, evs, exec_seqTick_of_ok rfl htick, rfl, Engine.tick_events htick⟩

/-- Settles O45: up to the threshold the debounce counts one for each tick, and the tick that reaches it promotes. -/
theorem debouncePromotes : Obligations.DebouncePromotes := by
  intro p busy e i hinv hs hpend hdeb htime hbusy
  have hstart : e.Debouncing p i 0 := ⟨hinv, hs, hpend, by rw [hdeb]; rfl, htime⟩
  have hgoes : ∀ k, k < p.debounceTicks → (e.ticksFrom p busy k).Debouncing p i k := fun k hk => hstart.ticksFrom hbusy hk
  refine ⟨fun k hk => ⟨(hgoes k hk).pending, (hgoes k hk).not_completed⟩, ?_⟩
  have hlast := hgoes (p.debounceTicks - 1) (by simp [Params.debounceTicks])
  have hsucc : p.debounceTicks - 1 + 1 = p.debounceTicks := by simp [Params.debounceTicks]
  rw [← hsucc, hlast.ticksFrom_succ]
  exact hlast.promoted (hbusy _ (by omega)) hsucc

/-- Settles O46: the started engine has exactly the bound's ticks left, and each tick costs one of them. -/
theorem sequenceTerminates : Obligations.SequenceTerminates := by
  intro n s t hinv haccepted hexec
  obtain ⟨rs, hrs⟩ := startRecords_of_accepted haccepted
  have htinv : t.Inv := exec_keeps_inv hinv hexec
  have hseq : t.seq = s.seq.start n rs := by
    cases (exec_seqStart_of_ok hrs).symm.trans hexec
    rfl
  have hidle : t.seq.state ≠ .idle := by rw [hseq]; nofun
  have hleft : t.seq.ticksLeft Config.params = max n.toNat 1 + 2 + Config.params.safetyTimeoutTicks := by
    rw [hseq]; exact Engine.ticksLeft_checkingRx rfl
  rw [← hleft]
  refine ⟨?_, fun σ hfair hreset hnext hword => ?_⟩
  · obtain ⟨-, -, hsinv⟩ := htinv
    obtain ⟨k, u, hk, hrun, huinv, hus, hactive⟩ := execAll_ticks_complete hsinv hidle
    obtain ⟨hstopped, hcompleted, hpending⟩ := Engine.of_complete huinv hus
    exact ⟨k, u, hk, hrun, hus, hstopped, hactive, hcompleted, hpending⟩
  · obtain ⟨k, u, hu, hus⟩ := exists_complete_of_fair hfair htinv hidle hreset hnext hword
    obtain ⟨-, -, huinv⟩ := hu.inv
    obtain ⟨hstopped, hcompleted, hpending⟩ := Engine.of_complete huinv hus
    exact ⟨k, u, (Nat.le_add_right _ _).trans hu.bound, hu.run, hus, hstopped, hu.active, hcompleted, hpending⟩

/-- Settles O47: SEQ_STOP's events are those of the asserted lines, and its `completed` is `active`. -/
theorem stopAborts : Obligations.StopAborts := by
  refine ⟨by decide, fun s => ⟨_, s.seq.stopEvents, rfl, rfl, fun hkey => ?_, s.seq.nodup_stopEvents, fun ev => Engine.mem_stopEvents,
    (allComplete_iff _).trans ⟨And.left, fun hactive => ⟨hactive, BitVec.and_self⟩⟩⟩⟩
  refine List.eq_nil_iff_forall_not_mem.mpr fun ev hev => ?_
  obtain ⟨i, hi, -⟩ := Engine.mem_stopEvents.mp hev
  rw [hkey i] at hi
  cases hi

/-- Settles O53: whatever arrives, the program keeps the wait at its head, and only an emergency-stop event puts items behind it. -/
theorem zeroRecordMoveHangs : Obligations.ZeroRecordMoveHangs := by
  intro s t q hactive hctl hreset hword h
  obtain ⟨ha, hc⟩ := step_wait_of_no_motor hactive hctl hreset hword h
  refine ⟨ha.trans hactive, ?_⟩
  rcases hc with hc | ⟨rest, hp, hc⟩
  · exact ⟨[], by rw [hc, hctl, List.append_nil], fun _ => rfl⟩
  · exact ⟨_, by rw [hc, hctl]; rfl, fun hno => absurd hp (hno rest)⟩

end Sys2Proof
end

section
/-! PROOFS. The statement of 44_command_contract.md's family: the dispatch of a ready frame, and the answer to an unrecognised Cmd. -/

namespace Sys2Proof

/-- A Cmd byte that is none of the five host commands selects no handler (R91, R237). -/
theorem decode_cmd_unknown {c : Byte} (hversion : c ≠ codeVersion) (hstatus : c ≠ codeStatus) (hstop : c ≠ codeStop)
    (hsync : c ≠ codeSyncMove) (hasync : c ≠ codeAsyncMove) : decode (.cmd c) = .error (.unknownCommand c) := by
  simp only [decode, decodeCmd, hversion, hstatus, hstop, hsync, hasync, if_false]

end Sys2Proof

namespace Sys2Proof.Machine

variable {s : State} {rest : List Arrival}

/-- The turn of a free controller takes the Cmd of a ready frame (R230). -/
theorem fetch_dispatch (hr : s.refused = none) (hp : s.port = .controller :: rest) (hc : s.ctl = []) (hs : s.dec.state = .ready) :
    fetch s = .run (.cmd s.dec.cmd) (s.setPort rest) :=
  (fetch_controller hr hp).trans (controllerTurn_ready hc hs)

/-- A free controller that answers an unrecognised Cmd has the ERROR answer as its whole program (R237). -/
theorem rejected_unknownCommand_of_free (c : Byte) (hc : s.ctl = []) :
    rejected (.unknownCommand c) s = .next { s with ctl := errorProgram errInvalidCommand } := by
  simp only [rejected, unknownCommand, State.runProgram, hc, List.append_nil]

end Sys2Proof.Machine

namespace Sys2Proof

open Sys2Proof.Machine

/-- Settles O57: the dispatched Cmd selects no handler, and the rejection is answered with ERROR and DEC_CLEAR. -/
theorem unknownCommandAnswered : Obligations.UnknownCommandAnswered := by
  intro s rest hr hp hc hs hversion hstatus hstop hsync hasync
  rw [step_run_error (fetch_dispatch hr hp hc hs) (decode_cmd_unknown hversion hstatus hstop hsync hasync)]
  exact rejected_unknownCommand_of_free s.dec.cmd hc

end Sys2Proof
end

section
/-! PROOFS. The statement of 60_exceptions.md's family: a stop and a tick that contend, in either order (R266). -/

namespace Sys2Proof.Machine

/-! ## Instructions one after another -/

/-- A run whose first instruction answers a next state goes on from that state. -/
theorem execAll_cons {i : Instr} {s t : State} (is : List Instr) (h : exec i s = .next t) : execAll (i :: is) s = execAll is t := by
  simp only [execAll, h]

/-! ## A stop next to a tick (R201, R266) -/

/-- SEQ_STOP with the key lines deasserted stops the engine, clears `dec_done`, and writes nothing else: no edge is recorded (R201, R202 (a)). -/
theorem exec_seqStop_of_deasserted {s : State} (h : s.seq.key = Vector.replicate 10 false) :
    exec .seqStop s = .next { s with dec := { s.dec with frameDone := false }, seq := s.seq.stop } := by
  have hexec : exec .seqStop s = .next ((s.clearDone.setSeq s.seq.stop).emit s.seq.stopEvents) := rfl
  rw [hexec, Engine.stopEvents_of_deasserted h]
  simp only [State.emit, List.append_nil]
  rfl

/-- SEQ_TICK of an engine that does not run clears `dec_done` and writes nothing else (R198). -/
theorem exec_seqTick_of_not_running {s : State} (h : s.seq.running = false) :
    exec .seqTick s = .next { s with dec := { s.dec with frameDone := false } } :=
  exec_seqTick_of_ok_nil (Engine.drawsInput_eq_false (Or.inl h)) (Engine.tick_not_running _ _ _ h)

/-- A stop undoes a tick in everything but the tick's own counters (R201, R266). -/
theorem Engine.stop_of_tick {p : Params} {busy : Lines} {rx : List Byte} {e t : Engine} {evs : List Event}
    (h : e.tick p busy rx = .ok (t, evs)) :
    t.stop = { e.stop with sendIdx := t.sendIdx, tickCounter := t.tickCounter, deb := t.deb } := by
  rcases Engine.tick_cases p busy rx e t evs h with ⟨rfl, -⟩ | ⟨-, -, rfl, -⟩ | ⟨-, -, -, -, rfl⟩ | ⟨-, -, -, r, i, -, -, rfl, -⟩ |
    ⟨-, -, rfl, -⟩
  case inr.inr.inr.inl => rw [Engine.leaveSending_eq]; rfl
  case inr.inr.inr.inr =>
    obtain ⟨hactive, hmotors, hidx, hset, -⟩ := Engine.tickWaiting_other p busy e
    simp only [Engine.stop, hactive, hmotors, hset]
  all_goals rfl

end Sys2Proof.Machine

namespace Sys2Proof

open Sys2Proof.Machine

/-! ## The statement -/

/-- Settles O48: the tick after the stop finds nothing running, and the stop after the tick undoes all of it but its events, its draws and its own
counters. -/
theorem stopAgainstTick : Obligations.StopAgainstTick := by
  intro s hinv _
  obtain ⟨e, evs, htick, -, -, -, -, hkey'⟩ := Engine.tick_inv hinv (Config.busyLevels s.draws) (Config.mbRxBytes s.draws)
  obtain ⟨-, -, -, -, hkey⟩ := hinv
  have hexec := exec_seqTick_of_ok rfl htick
  refine ⟨_, _, _, evs, hexec, rfl, (execAll_cons _ (exec_seqStop_of_deasserted hkey)).trans (execAll_cons [] (exec_seqTick_of_not_running rfl)),
    (execAll_cons _ hexec).trans (execAll_cons [] (exec_seqStop_of_deasserted hkey')), rfl, ?_⟩
  simp only [Engine.stop_of_tick htick]

end Sys2Proof
end

section
/-! PROOFS. The statements of 70_reset_and_hazards.md's family: the reset input (R290), and a SEQ_START issued after the DEC_CLEAR (R301). -/

namespace Sys2Proof.Machine

/-- A store with no byte written holds no record (R165). -/
theorem msdDecode_nil (k : Nat) : msdDecode [] k = none := msdDecode_eq_none (i := 0) (by decide) (Mem.read_nil _)

end Sys2Proof.Machine

namespace Sys2Proof

open Sys2Proof.Machine

/-- Settles O39: DEC_CLEAR leaves no byte of the buffer readable, so the first record's check already fails. -/
theorem startAfterClearRefused : Obligations.StartAfterClearRefused := by
  intro n s hpos hn
  have hbefore : ∀ j, j < 0 → ∃ r, msdDecode [] j = some r ∧ msdValid r = true := fun j hj => absurd hj (Nat.not_lt_zero j)
  have hfirst := startFirstFailureRefused n { s with dec := Decoder.reset } 0 hn hpos hbefore
  exact ⟨_, exec_decClear_eq s, hfirst.1 (msdDecode_nil 0)⟩

/-- Settles O8: the reset input is taken in every run, and the state it leaves has the reset decoder, encoder and engine. -/
theorem resetInputResets : Obligations.ResetInputResets := by
  intro s rest hp
  exact ⟨s.resetInput rest, step_noOp (fetch_resetInput hp), rfl, rfl, rfl, rfl, rfl, rfl⟩

end Sys2Proof
end
